-- ==== Sys2Proof/Word.lean ====
section
/-! DEFINITION. The words and the ciphertexts the block handles: the 32-bit word of encodings and registers
(30_encoding.md R71, R84), the two opaque ciphertext types (10_state.md R38), and the items of a payload (R84). -/

namespace Sys2Proof

/-- A 32-bit word: a gate word, a command word, an image word or a register (20_memory.md R55). -/
abbrev Word := BitVec 32

/-- Size of the wire index space, `MAX_WIRES` (00_scope.md R7, 10_state.md R21). -/
abbrev maxWires : Nat := 32768

/-- An encrypted bit, "ciphertext carrying one boolean ... value, opaque to this system" (00_scope.md R16).
The block can do nothing with it but hand it to the engine; `code` only tells ciphertexts apart.
DESIGN CHOICE (notes/assumptions/1.md). -/
structure EncBit where
  code : Nat
  deriving DecidableEq, Repr, Inhabited

/-- An encrypted byte, "an opaque ciphertext representing one unsigned 8-bit value" (00_scope.md R16).
DESIGN CHOICE (notes/assumptions/1.md). -/
structure EncByte where
  code : Nat
  deriving DecidableEq, Repr, Inhabited

/-- One element of a payload or of a result: "encrypted bits, encrypted bytes or 32-bit words" (30_encoding.md R84). -/
inductive Item where
  | bit (b : EncBit)
  | byte (b : EncByte)
  | word (w : Word)
  deriving DecidableEq, Repr

/-- A command's payload, or the result it returns (30_encoding.md R84, R85; notes/assumptions/13.md). -/
abbrev Payload := List Item

end Sys2Proof
end

