-- ==== Sys2Proof/Syntax.lean ====
section
/-! DEFINITION. The instructions: one constructor for each of the 12 rows of spec/opcode_table.json. The three gates are the
words of a program image (30_encoding.md R71), the nine commands are the words of a command port (R84). -/

namespace Sys2Proof

/-- An instruction. Wire numbers and the field `SEL` are numbers; `Instr.wf` bounds them by their fields. The destination of
a gate is not encoded (R71), and a command's payload comes beside its word (R84). -/
inductive Instr where
  /-- `d = s1 XOR s2` (40_gates.md R100). -/
  | xor (s1 s2 : Nat)
  /-- `d = s1 AND s2` (R101). -/
  | and (s1 s2 : Nat)
  /-- `d = s1 !` (R102). -/
  | not (s1 : Nat)
  /-- Install the position-value table (42_codec.md R150). -/
  | loadPv
  /-- Split an encrypted byte into 8 encrypted bits (R152). -/
  | decompose
  /-- Join 8 encrypted bits into an encrypted byte (R155). -/
  | recompose
  /-- Load a program image into slot `sel` (41_executor.md R140). -/
  | loadProg (sel : Nat)
  /-- Run the program of slot `sel` (R121). -/
  | exec (sel : Nat)
  /-- Forward AES S-box of one encrypted byte (43_sbox.md R172). -/
  | sbox
  /-- Inverse AES S-box of one encrypted byte (R175). -/
  | invsbox
  /-- MixColumns of one encrypted column (44_mixcolumns.md R192). -/
  | mixcol
  /-- Read register `sel` (60_exceptions.md R215). -/
  | readReg (sel : Nat)
  deriving DecidableEq, Repr

/-- Whether an instruction is a gate word of a program image, and not a command word of the port. -/
def Instr.isGate : Instr → Bool
  | .xor _ _ | .and _ _ | .not _ => true
  | .loadPv | .decompose | .recompose | .loadProg _ | .exec _ | .sbox | .invsbox | .mixcol | .readReg _ => false

end Sys2Proof
end

