-- ==== Sys2Proof/WellFormed.lean ====
section
/-! DEFINITION. Which instructions have an encoding: a wire number has 15 bits (30_encoding.md R71), `SEL` has 5 (R84). -/

namespace Sys2Proof

/-- A wire number fits the 15-bit fields `S1`, `S2` (30_encoding.md R71). -/
def wireOk (s : Nat) : Bool := decide (s < maxWires)

/-- A slot or register number fits the 5-bit field `SEL` (30_encoding.md R84). -/
def selOk (sel : Nat) : Bool := decide (sel < 32)

/-- The instruction can be written as a word. -/
def Instr.wf : Instr → Bool
  | .xor s1 s2 => wireOk s1 && wireOk s2
  | .and s1 s2 => wireOk s1 && wireOk s2
  | .not s1 => wireOk s1
  | .loadPv => true
  | .decompose => true
  | .recompose => true
  | .loadProg sel => selOk sel
  | .exec sel => selOk sel
  | .sbox => true
  | .invsbox => true
  | .mixcol => true
  | .readReg sel => selOk sel

end Sys2Proof
end

