-- ==== Sys2Proof/Decode.lean ====
section
/-! DEFINITION. Decoding of gate words (30_encoding.md R71, R72, R77) and of command words (R84 to R86), total on every
32-bit word and refusing by name, and the encoder written from the same tables. A word is fetched either from a program
image, where it is a gate word, or from a command port, where it is a command word; the two encodings overlap. -/

namespace Sys2Proof

/-- Why a word is no instruction. -/
inductive DecodeRefusal where
  /-- A gate word with `OP = 11` (30_encoding.md R72). -/
  | unknownOperator
  /-- A NOT word with `S2 ≠ 0` (R77). -/
  | reservedNonzero
  /-- A command word with a reserved `OPC`, a nonzero reserved field or a nonzero unused `SEL` (R86). -/
  | unknownCommand
  deriving DecidableEq, Repr

/-- What a word decodes to. -/
inductive Decoded where
  | instr (i : Instr)
  | refused (r : DecodeRefusal)
  deriving DecidableEq, Repr

/-- `OP`, bits 31:30 of a gate word (R71). -/
def gateOp (w : Word) : Nat := (w.extractLsb' 30 2).toNat

/-- `S1`, bits 29:15 of a gate word (R71), zero-extended (R75). -/
def gateS1 (w : Word) : Nat := (w.extractLsb' 15 15).toNat

/-- `S2`, bits 14:0 of a gate word (R71), zero-extended (R75). -/
def gateS2 (w : Word) : Nat := (w.extractLsb' 0 15).toNat

/-- Decode a word of a program image (R71, R72, R77). -/
def decodeGate (w : Word) : Decoded :=
  match gateOp w with
  | 0 => .instr (.xor (gateS1 w) (gateS2 w))
  | 1 => .instr (.and (gateS1 w) (gateS2 w))
  | 2 => if gateS2 w = 0 then .instr (.not (gateS1 w)) else .refused .reservedNonzero
  | _ => .refused .unknownOperator

/-- `OPC`, bits 7:0 of a command word (R84). -/
def commandOpc (w : Word) : Nat := (w.extractLsb' 0 8).toNat

/-- `SEL`, bits 12:8 of a command word (R84). -/
def commandSel (w : Word) : Nat := (w.extractLsb' 8 5).toNat

/-- The reserved bits 31:13 of a command word (R84). -/
def commandReserved (w : Word) : Nat := (w.extractLsb' 13 19).toNat

/-- A command that does not use `SEL` is refused when `SEL` is not 0 (R86). -/
def withoutSel (w : Word) (i : Instr) : Decoded :=
  if commandSel w = 0 then .instr i else .refused .unknownCommand

/-- Decode a word of a command port (R84, R85, R86). -/
def decodeCommand (w : Word) : Decoded :=
  if commandReserved w ≠ 0 then .refused .unknownCommand
  else
    match commandOpc w with
    | 1 => withoutSel w .loadPv
    | 2 => withoutSel w .decompose
    | 3 => withoutSel w .recompose
    | 4 => .instr (.loadProg (commandSel w))
    | 5 => .instr (.exec (commandSel w))
    | 6 => withoutSel w .sbox
    | 7 => withoutSel w .invsbox
    | 8 => withoutSel w .mixcol
    | 9 => .instr (.readReg (commandSel w))
    | _ => .refused .unknownCommand

/-- A gate word from its three fields (R71). -/
def gateWord (op s1 s2 : Nat) : Word := BitVec.ofNat 32 (op * 2 ^ 30 + s1 * 2 ^ 15 + s2)

/-- A command word from `OPC` and `SEL`, with the reserved bits 0 (R84). -/
def commandWord (opc sel : Nat) : Word := BitVec.ofNat 32 (sel * 2 ^ 8 + opc)

/-- The word of an instruction (R71, R72, R84, R85). -/
def encode : Instr → Word
  | .xor s1 s2 => gateWord 0 s1 s2
  | .and s1 s2 => gateWord 1 s1 s2
  | .not s1 => gateWord 2 s1 0
  | .loadPv => commandWord 1 0
  | .decompose => commandWord 2 0
  | .recompose => commandWord 3 0
  | .loadProg sel => commandWord 4 sel
  | .exec sel => commandWord 5 sel
  | .sbox => commandWord 6 0
  | .invsbox => commandWord 7 0
  | .mixcol => commandWord 8 0
  | .readReg sel => commandWord 9 sel

/-- Decode a word where the instruction of its kind stands: a gate in an image, a command at a port. -/
def decodeAt (gate : Bool) (w : Word) : Decoded := if gate then decodeGate w else decodeCommand w

/-- The instruction of a table row's bits, or none where it has none. A word that both encodings read is taken as the command,
and as a gate word only if no command has it (notes/assumptions/14.md). -/
def decodeTableWord (nbits w : Nat) : Option Instr :=
  if 32 < nbits then none
  else
    let word : Word := BitVec.ofNat 32 (w % 2 ^ nbits)
    match decodeCommand word with
    | .instr i => some i
    | .refused _ =>
      match decodeGate word with
      | .instr i => some i
      | .refused _ => none

end Sys2Proof
end

