-- ==== Sys2Proof/Machine/Image.lean ====
section
/-! DEFINITION. The program image: its words (00_scope.md R12) and fields (30_encoding.md R73), and the construction check
(41_executor.md R141) with the cause codes it reports (60_exceptions.md R201). -/

namespace Sys2Proof.Machine

/-- The named cause codes (60_exceptions.md R201). `engineFailure` and `ceDuplicateName` are written by no command (R208,
41_executor.md R142). -/
inductive Cause where
  | ok
  | ceUnknownOperator
  | ceDanglingOperand
  | ceMissingOutput
  | ceReservedNonzero
  | ceDuplicateName
  | ceSize
  | ceRomSlot
  | pvInputCount
  | pvNoTable
  | pvNoProgram
  | pvTableLocked
  | pvBadSlot
  | pvUnknownCommand
  | engineFailure
  deriving DecidableEq, Repr

/-- `MemRead(a, 1)` of an image (00_scope.md R12). A word that no image holds reads 0 (DESIGN CHOICE,
notes/assumptions/8.md): no run from reset reads one. -/
def memRead (img : List Word) (a : Nat) : Word := img.getD a 0

/-- Bits 15:0 of a header word (30_encoding.md R73). -/
def headerField (w : Word) : Nat := (w.extractLsb' 0 16).toNat

/-- The reserved bits 31:16 of a header word (R73, R80). -/
def headerReserved (w : Word) : Nat := (w.extractLsb' 16 16).toNat

/-- `OSEL`, bits 14:0 of an output-selector word (R73, R79). -/
def selectorWire (w : Word) : Nat := (w.extractLsb' 0 15).toNat

/-- The reserved bits 31:15 of an output-selector word (R73, R80). -/
def selectorReserved (w : Word) : Nat := (w.extractLsb' 15 17).toNat

/-- `N_IN` of an image (R73). -/
def imageNIn (img : List Word) : Nat := headerField (memRead img 0)

/-- `N` of an image (R73). -/
def imageN (img : List Word) : Nat := headerField (memRead img 1)

/-- `N_OUT` of an image (R73). -/
def imageNOut (img : List Word) : Nat := headerField (memRead img 2)

/-- Gate word `k` of an image: `MemRead(3 + k, 1)` (41_executor.md R124). -/
def imageGate (img : List Word) (k : Nat) : Word := memRead img (3 + k)

/-- `OSEL[j]` of an image with `n` gates: `MemRead(3 + N + j, 1)[14:0]` (41_executor.md R129). -/
def imageSelector (img : List Word) (n j : Nat) : Nat := selectorWire (memRead img (3 + n + j))

/-- The gates of an image, from index `k` on (R141): `OP = 11`, then NOT with `S2 ≠ 0`, then `S1`, then `S2`. -/
def checkGates (nIn : Nat) : Nat → List Word → Option (Cause × Nat)
  | _, [] => none
  | k, w :: rest =>
    if gateOp w = 3 then some (.ceUnknownOperator, 3 + k)
    else if gateOp w = 2 ∧ gateS2 w ≠ 0 then some (.ceReservedNonzero, 3 + k)
    else if nIn + k ≤ gateS1 w then some (.ceDanglingOperand, 3 + k)
    else if gateOp w ≠ 2 ∧ nIn + k ≤ gateS2 w then some (.ceDanglingOperand, 3 + k)
    else checkGates nIn (k + 1) rest

/-- The output selectors of an image, from image word `a` on (R141): reserved bits, then range. -/
def checkSelectors (wires : Nat) : Nat → List Word → Option (Cause × Nat)
  | _, [] => none
  | a, o :: rest =>
    if selectorReserved o ≠ 0 then some (.ceReservedNonzero, a)
    else if wires ≤ selectorWire o then some (.ceMissingOutput, a)
    else checkSelectors wires (a + 1) rest

/-- The construction check `Check(img)` (R141, 30_encoding.md R81): none for `OK`, else the first failing cause and its
DETAIL (60_exceptions.md R204). -/
def check (img : List Word) : Option (Cause × Nat) :=
  match img with
  | h0 :: h1 :: h2 :: body =>
    if headerReserved h0 ≠ 0 then some (.ceReservedNonzero, 0)
    else if headerReserved h1 ≠ 0 then some (.ceReservedNonzero, 1)
    else if headerReserved h2 ≠ 0 then some (.ceReservedNonzero, 2)
    else if headerField h0 < 1 ∨ headerField h2 < 1 ∨ maxWires < headerField h0 + headerField h1 then some (.ceSize, 0)
    else if body.length ≠ headerField h1 + headerField h2 then some (.ceSize, 0)
    else
      match checkGates (headerField h0) 0 (body.take (headerField h1)) with
      | some e => some e
      | none => checkSelectors (headerField h0 + headerField h1) (3 + headerField h1) (body.drop (headerField h1))
  | _ => some (.ceSize, 0)

end Sys2Proof.Machine
end

