-- ==== Sys2Proof/Laws/Check.lean ====
section
/-! SUPPORT. What an image that passed the construction check satisfies (41_executor.md R141, 30_encoding.md R74, R76, R79). -/

namespace Sys2Proof.Machine

theorem checkGates_none {nIn k : Nat} {ws : List Word} (h : checkGates nIn k ws = none) (i : Nat) (hi : i < ws.length) :
    gateOp ws[i] ≠ 3 ∧ (gateOp ws[i] = 2 → gateS2 ws[i] = 0) ∧ gateS1 ws[i] < nIn + (k + i) ∧
      (gateOp ws[i] ≠ 2 → gateS2 ws[i] < nIn + (k + i)) := by
  induction ws generalizing k i with
  | nil => simp at hi
  | cons w rest ih =>
    simp only [checkGates] at h
    split at h
    · cases h
    · split at h
      · cases h
      · split at h
        · cases h
        · split at h
          · cases h
          · rename_i h1 h2 h3 h4
            cases i with
            | zero =>
              simp only [List.getElem_cons_zero, Nat.add_zero]
              refine ⟨h1, fun h5 => ?_, by omega, fun h5 => ?_⟩
              · by_contra h6; exact h2 ⟨h5, h6⟩
              · by_contra h6; exact h4 ⟨h5, by omega⟩
            | succ j =>
              simp only [List.getElem_cons_succ]
              have := ih h j (by simpa using hi)
              have e : k + (j + 1) = k + 1 + j := by omega
              rw [e]; exact this

theorem checkSelectors_none {wires a : Nat} {os : List Word} (h : checkSelectors wires a os = none) (i : Nat)
    (hi : i < os.length) : selectorReserved os[i] = 0 ∧ selectorWire os[i] < wires := by
  induction os generalizing a i with
  | nil => simp at hi
  | cons o rest ih =>
    simp only [checkSelectors] at h
    split at h
    · cases h
    · split at h
      · cases h
      · cases i with
        | zero => simp only [List.getElem_cons_zero]; omega
        | succ j => simpa using ih h j (by simpa using hi)

/-- What the construction check guarantees of an image. -/
structure ImageFacts (img : List Word) : Prop where
  nIn : 1 ≤ imageNIn img
  nOut : 1 ≤ imageNOut img
  size : imageNIn img + imageN img ≤ maxWires
  length : img.length = 3 + imageN img + imageNOut img
  gate : ∀ k, k < imageN img → gateOp (imageGate img k) ≠ 3 ∧
    (gateOp (imageGate img k) = 2 → gateS2 (imageGate img k) = 0) ∧ gateS1 (imageGate img k) < imageNIn img + k ∧
    (gateOp (imageGate img k) ≠ 2 → gateS2 (imageGate img k) < imageNIn img + k)
  selector : ∀ j, j < imageNOut img → imageSelector img (imageN img) j < imageNIn img + imageN img

theorem check_facts {img : List Word} (h : check img = none) : ImageFacts img := by
  unfold check at h
  split at h
  · rename_i h0 h1 h2 body
    split at h
    · cases h
    · split at h
      · cases h
      · split at h
        · cases h
        · split at h
          · cases h
          · split at h
            · cases h
            · split at h
              · cases h
              · rename_i hsize hlen hg
                have e0 : imageNIn (h0 :: h1 :: h2 :: body) = headerField h0 := rfl
                have e1 : imageN (h0 :: h1 :: h2 :: body) = headerField h1 := rfl
                have e2 : imageNOut (h0 :: h1 :: h2 :: body) = headerField h2 := rfl
                have hlen' : body.length = headerField h1 + headerField h2 := by omega
                have hw : ∀ a, memRead (h0 :: h1 :: h2 :: body) (3 + a) = body.getD a 0 := by
                  intro a; rw [Nat.add_comm]; rfl
                refine ⟨by omega, by omega, by omega, by simp only [List.length_cons]; omega, ?_, ?_⟩
                · intro k hk
                  rw [e1] at hk
                  have := checkGates_none hg k (by simp only [List.length_take]; omega)
                  simp only [List.getElem_take, Nat.zero_add] at this
                  simpa only [imageGate, hw, e0, List.getD_eq_getElem?_getD,
                    List.getElem?_eq_getElem (show k < body.length by omega), Option.getD_some] using this
                · intro j hj
                  rw [e2] at hj
                  have := checkSelectors_none h j (by simp only [List.length_drop]; omega)
                  simp only [List.getElem_drop] at this
                  have e : 3 + headerField h1 + j = 3 + (headerField h1 + j) := by omega
                  simpa only [imageSelector, e1, e0, e, hw, List.getD_eq_getElem?_getD,
                    List.getElem?_eq_getElem (show headerField h1 + j < body.length by omega),
                    Option.getD_some] using this.2
  · cases h

/-- Every gate of a checked image decodes, to one of the three gates with legal operands (30_encoding.md R72, R76, R77). -/
theorem decodeGate_checked {img : List Word} (h : ImageFacts img) {k : Nat} (hk : k < imageN img) :
    (∃ a b, decodeGate (imageGate img k) = .instr (.xor a b) ∧ gateOp (imageGate img k) = 0 ∧
        a = gateS1 (imageGate img k) ∧ b = gateS2 (imageGate img k) ∧ a < imageNIn img + k ∧ b < imageNIn img + k) ∨
    (∃ a b, decodeGate (imageGate img k) = .instr (.and a b) ∧ gateOp (imageGate img k) = 1 ∧
        a = gateS1 (imageGate img k) ∧ b = gateS2 (imageGate img k) ∧ a < imageNIn img + k ∧ b < imageNIn img + k) ∨
    (∃ a, decodeGate (imageGate img k) = .instr (.not a) ∧ gateOp (imageGate img k) = 2 ∧
        a = gateS1 (imageGate img k) ∧ a < imageNIn img + k) := by
  obtain ⟨h3, h2, ha, hb⟩ := h.gate k hk
  have hlt : gateOp (imageGate img k) < 4 := (BitVec.extractLsb' 30 2 (imageGate img k)).isLt
  unfold decodeGate
  generalize gateOp (imageGate img k) = op at *
  match op with
  | 0 => exact .inl ⟨_, _, rfl, rfl, rfl, rfl, ha, hb (by omega)⟩
  | 1 => exact .inr (.inl ⟨_, _, rfl, rfl, rfl, rfl, ha, hb (by omega)⟩)
  | 2 => exact .inr (.inr ⟨_, by simp [h2 rfl], rfl, rfl, ha⟩)
  | n + 3 => omega

end Sys2Proof.Machine
end

