-- ==== Sys2Proof/Machine/Rom.lean ====
section
/-! DEFINITION. The images in the ROM slots 0, 1 and 2 (10_state.md R35), and the reference programs `SBOX_FWD` (43_sbox.md R181),
`SBOX_INV` (R182) and `MIXCOL` (44_mixcolumns.md R198), word for word as the spec lists them. -/

namespace Sys2Proof.Machine

/-- SBOX_FWD (43_sbox.md R181), instructions 0 to 23. -/
def sboxFwdGates0 : List Word :=
  [0x00020002, 0x00038001, 0x00038004, 0x00038002, 0x00030005, 0x00060000, 0x00068004, 0x00048008,
   0x00068007, 0x00068001, 0x0008800B, 0x0001800F, 0x00098002, 0x00098006, 0x000A0000, 0x000A000C,
   0x000A800A, 0x00000018, 0x000B8018, 0x000B800B, 0x00060018, 0x0004801C, 0x0003801C, 0x40078014]

/-- SBOX_FWD (43_sbox.md R181), instructions 24 to 47. -/
def sboxFwdGates1 : List Word :=
  [0x40090016, 0x0010001F, 0x40070000, 0x0011001F, 0x4004801C, 0x4008800D, 0x00128024, 0x40080019,
   0x00138024, 0x40050018, 0x4004001A, 0x00150029, 0x40058017, 0x00160029, 0x0010802B, 0x0011802D,
   0x0013002B, 0x0014002D, 0x00170015, 0x0017801B, 0x0018001D, 0x0018801E, 0x00190033, 0x40190034]

/-- SBOX_FWD (43_sbox.md R181), instructions 48 to 71. -/
def sboxFwdGates2 : List Word :=
  [0x001A8037, 0x401B0038, 0x001C8033, 0x001A0035, 0x00198037, 0x401E003B, 0x001E8035, 0x001A003E,
   0x001C003E, 0x401A8040, 0x0020803F, 0x001C0041, 0x401D0043, 0x001B0044, 0x00228042, 0x001D003E,
   0x001D0045, 0x001F0042, 0x00238046, 0x40248014, 0x40210016, 0x401F0000, 0x4024001C, 0x4022800D]

/-- SBOX_FWD (43_sbox.md R181), instructions 72 to 95. -/
def sboxFwdGates3 : List Word :=
  [0x401D0019, 0x40238018, 0x4025001A, 0x40230017, 0x4024800F, 0x40210012, 0x401F000E, 0x40240009,
   0x40228011, 0x401D0010, 0x4023800A, 0x40250008, 0x4023000B, 0x002D005B, 0x002A8056, 0x00280058,
   0x002A0055, 0x00268057, 0x00268050, 0x00290053, 0x0025804E, 0x00288052, 0x002D805C, 0x002B805F]

/-- SBOX_FWD (43_sbox.md R181), instructions 96 to 118. -/
def sboxFwdGates4 : List Word :=
  [0x00308064, 0x0027805D, 0x00270065, 0x002E8068, 0x002C8068, 0x00318069, 0x00300069, 0x0027806A,
   0x0036006D, 0x0026006E, 0x0035006E, 0x0033806D, 0x80398000, 0x002F806B, 0x803A8000, 0x00378070,
   0x00320071, 0x00310071, 0x002F0070, 0x00378078, 0x803D8000, 0x00330077, 0x803E8000]

/-- SBOX_FWD (43_sbox.md R181), the output selectors. -/
def sboxFwdSelectors : List Word :=
  [118, 116, 122, 121, 120, 126, 124, 114]

/-- The image of SBOX_FWD (43_sbox.md R181). -/
def sboxFwdImage : List Word :=
  [8, 0x77, 8] ++ sboxFwdGates0 ++ sboxFwdGates1 ++ sboxFwdGates2 ++ sboxFwdGates3 ++ sboxFwdGates4 ++ sboxFwdSelectors

/-- SBOX_INV (43_sbox.md R182), instructions 0 to 23. -/
def sboxInvGates0 : List Word :=
  [0x80000000, 0x80008000, 0x80028000, 0x80030000, 0x0002000B, 0x00040009, 0x00018004, 0x0001800B,
   0x00010007, 0x0005000C, 0x0003800B, 0x0003800C, 0x0006000D, 0x0006800F, 0x00010009, 0x00010011,
   0x00018008, 0x00018013, 0x00020007, 0x00038008, 0x0004000E, 0x00040011, 0x0004800A, 0x0005000E]

/-- SBOX_INV (43_sbox.md R182), instructions 24 to 47. -/
def sboxInvGates1 : List Word :=
  [0x00050010, 0x0006800E, 0x00068011, 0x00068012, 0x000B000E, 0x000D800F, 0x000F000F, 0x00080014,
   0x00080015, 0x40118017, 0x400D0013, 0x00150029, 0x400A0020, 0x00160029, 0x40108026, 0x4006001C,
   0x0017802E, 0x400A8022, 0x0018802E, 0x40070027, 0x400C8024, 0x001A0033, 0x40090025, 0x001B0033]

/-- SBOX_INV (43_sbox.md R182), instructions 48 to 71. -/
def sboxInvGates2 : List Word :=
  [0x00158035, 0x00168037, 0x00180035, 0x00190037, 0x001C0028, 0x001C8018, 0x001D001D, 0x001D801F,
   0x001E003D, 0x401E003E, 0x001F8041, 0x40200042, 0x0021803D, 0x001F003F, 0x001E8041, 0x40230045,
   0x0023803F, 0x001F0048, 0x00210048, 0x401F804A, 0x00258049, 0x0021004B, 0x4022004D, 0x0020004E]

/-- SBOX_INV (43_sbox.md R182), instructions 72 to 95. -/
def sboxInvGates3 : List Word :=
  [0x0027804C, 0x00220048, 0x0022004F, 0x0024004C, 0x00288050, 0x40298017, 0x40260013, 0x40240020,
   0x40290026, 0x4027801C, 0x40220022, 0x40288027, 0x402A0024, 0x40280025, 0x40298023, 0x4026001A,
   0x40240014, 0x40290021, 0x4027800C, 0x40220015, 0x4028800E, 0x402A0019, 0x40280012, 0x0032005B]

/-- SBOX_INV (43_sbox.md R182), instructions 96 to 119. -/
def sboxInvGates4 : List Word :=
  [0x00338061, 0x00340062, 0x00348065, 0x0035005D, 0x002B0059, 0x002F8057, 0x00358055, 0x0036006D,
   0x00378063, 0x00380058, 0x0038805D, 0x00300066, 0x002C805C, 0x00338072, 0x00340072, 0x00398074,
   0x00398064, 0x003A006A, 0x003A8062, 0x003B0060, 0x003B8069, 0x003C005E, 0x003C8058, 0x003D0066]

/-- SBOX_INV (43_sbox.md R182), instructions 120 to 129. -/
def sboxInvGates5 : List Word :=
  [0x003D8065, 0x003E006D, 0x003F805E, 0x00408055, 0x0041805A, 0x00358058, 0x0042805A, 0x0036006E,
   0x0043805A, 0x00370057]

/-- SBOX_INV (43_sbox.md R182), the output selectors. -/
def sboxInvSelectors : List Word :=
  [125, 126, 136, 132, 137, 128, 130, 134]

/-- The image of SBOX_INV (43_sbox.md R182). -/
def sboxInvImage : List Word :=
  [8, 0x82, 8] ++ sboxInvGates0 ++ sboxInvGates1 ++ sboxInvGates2 ++ sboxInvGates3 ++ sboxInvGates4 ++ sboxInvGates5 ++ sboxInvSelectors

/-- MIXCOL (44_mixcolumns.md R198), instructions 0 to 23. -/
def mixcolGates0 : List Word :=
  [0x00000008, 0x00008009, 0x0001000A, 0x0001800B, 0x0002000C, 0x0002800D, 0x0003000E, 0x0003800F,
   0x00040010, 0x00048011, 0x00050012, 0x00058013, 0x00060014, 0x00068015, 0x00070016, 0x00078017,
   0x00080018, 0x00088019, 0x0009001A, 0x0009801B, 0x000A001C, 0x000A801D, 0x000B001E, 0x000B801F]

/-- MIXCOL (44_mixcolumns.md R198), instructions 24 to 47. -/
def mixcolGates1 : List Word :=
  [0x000C0000, 0x000C8001, 0x000D0002, 0x000D8003, 0x000E0004, 0x000E8005, 0x000F0006, 0x000F8007,
   0x00100027, 0x00110027, 0x00118027, 0x0014002F, 0x0015002F, 0x0015802F, 0x00180037, 0x00190037,
   0x00198037, 0x001C003F, 0x001D003F, 0x001D803F, 0x00040030, 0x00260027, 0x00048031, 0x00270040]

/-- MIXCOL (44_mixcolumns.md R198), instructions 48 to 71. -/
def mixcolGates2 : List Word :=
  [0x00050032, 0x00280021, 0x00058033, 0x00290041, 0x00060034, 0x002A0042, 0x00068035, 0x002B0024,
   0x00070036, 0x002C0025, 0x00078037, 0x002D0026, 0x00080038, 0x002E002F, 0x00088039, 0x002F0043,
   0x0009003A, 0x00300029, 0x0009803B, 0x00310044, 0x000A003C, 0x00320045, 0x000A803D, 0x0033002C]

/-- MIXCOL (44_mixcolumns.md R198), instructions 72 to 95. -/
def mixcolGates3 : List Word :=
  [0x000B003E, 0x0034002D, 0x000B803F, 0x0035002E, 0x000C0020, 0x00360037, 0x000C8021, 0x00370046,
   0x000D0022, 0x00380031, 0x000D8023, 0x00390047, 0x000E0024, 0x003A0048, 0x000E8025, 0x003B0034,
   0x000F0026, 0x003C0035, 0x000F8027, 0x003D0036, 0x00000028, 0x003E003F, 0x00008029, 0x003F0049]

/-- MIXCOL (44_mixcolumns.md R198), instructions 96 to 107. -/
def mixcolGates4 : List Word :=
  [0x0001002A, 0x00400039, 0x0001802B, 0x0041004A, 0x0002002C, 0x0042004B, 0x0002802D, 0x0043003C,
   0x0003002E, 0x0044003D, 0x0003802F, 0x0045003E]

/-- MIXCOL (44_mixcolumns.md R198), the output selectors. -/
def mixcolSelectors : List Word :=
  [77, 79, 81, 83, 85, 87, 89, 91,
   93, 95, 97, 99, 101, 103, 105, 107,
   109, 111, 113, 115, 117, 119, 121, 123,
   125, 127, 129, 131, 133, 135, 137, 139]

/-- The image of MIXCOL (44_mixcolumns.md R198). -/
def mixcolImage : List Word :=
  [0x20, 0x6C, 0x20] ++ mixcolGates0 ++ mixcolGates1 ++ mixcolGates2 ++ mixcolGates3 ++ mixcolGates4 ++ mixcolSelectors

/-- The contents of ROM slots 0, 1 and 2, the parameter `PROGRAM_ROM` (00_scope.md R7, 10_state.md R49). -/
structure Rom where
  /-- Slot 0. -/
  sboxFwd : List Word
  /-- Slot 1. -/
  sboxInv : List Word
  /-- Slot 2. -/
  mixcol : List Word
  deriving DecidableEq, Repr

/-- The reference values of `PROGRAM_ROM` (00_scope.md R7). -/
def Rom.reference : Rom := ⟨sboxFwdImage, sboxInvImage, mixcolImage⟩

end Sys2Proof.Machine
end

