-- ==== Sys2Proof/Machine/Contract.lean ====
section
/-! DEFINITION. What a program computes, the sequential reference semantics `Ref` (41_executor.md R132), over any values that have
the gates; the tables and the matrix of the circuits' contracts (43_sbox.md R178, R179, 44_mixcolumns.md R190, R193); and which
programs may stand in the ROM (43_sbox.md R177, 44_mixcolumns.md R195). -/

namespace Sys2Proof.Machine

/-- The three gates over some values: ciphertexts under an engine, or plaintext bits. -/
structure Gates (α : Type) where
  xor : α → α → α
  and : α → α → α
  not : α → α

/-- The gates on plaintext bits (40_gates.md R107). -/
def plainGates : Gates Bool where
  xor a b := a ^^ b
  and a b := a && b
  not a := !a

variable {α : Type}

/-- The value the gate word `w` gives on the wire values `v` (41_executor.md R132); none if an operand is not among them. -/
def refGate (G : Gates α) (w : Word) (v : List α) : Option α :=
  match gateOp w, v[gateS1 w]?, v[gateS2 w]? with
  | 0, some a, some b => some (G.xor a b)
  | 1, some a, some b => some (G.and a b)
  | 2, some a, _ => some (G.not a)
  | _, _, _ => none

/-- Evaluate the gate words in order, each appending the value of its wire (41_executor.md R132). -/
def refRun [Inhabited α] (G : Gates α) : List Word → List α → List α
  | [], v => v
  | w :: rest, v => refRun G rest (v ++ [(refGate G w v).getD default])

/-- The gate words of an image, in program order (30_encoding.md R73). -/
def imageGates (img : List Word) : List Word := (List.range (imageN img)).map (imageGate img)

/-- `Ref(prog, in)`: the value of every wire `0 .. N_IN + N - 1` (41_executor.md R132). -/
def refWires [Inhabited α] (G : Gates α) (img : List Word) (ins : List α) : List α := refRun G (imageGates img) ins

/-- `Ref(prog, in)[OSEL[j]]` for every output `j` (41_executor.md R131). -/
def refOutputs [Inhabited α] (G : Gates α) (img : List Word) (ins : List α) : List α :=
  (List.range (imageNOut img)).map (fun j => ((refWires G img ins)[imageSelector img (imageN img) j]?).getD default)

/-- The eight bits of a byte, bit 0 first (20_memory.md R51). -/
def byteBits (v : BitVec 8) : List Bool :=
  [v.getLsbD 0, v.getLsbD 1, v.getLsbD 2, v.getLsbD 3, v.getLsbD 4, v.getLsbD 5, v.getLsbD 6, v.getLsbD 7]

/-- `SBOX_TABLE` (43_sbox.md R178), entries 0x00 to 0x3F. -/
def sboxRows0 : List (BitVec 8) :=
  [0x63, 0x7C, 0x77, 0x7B, 0xF2, 0x6B, 0x6F, 0xC5, 0x30, 0x01, 0x67, 0x2B, 0xFE, 0xD7, 0xAB, 0x76,
   0xCA, 0x82, 0xC9, 0x7D, 0xFA, 0x59, 0x47, 0xF0, 0xAD, 0xD4, 0xA2, 0xAF, 0x9C, 0xA4, 0x72, 0xC0,
   0xB7, 0xFD, 0x93, 0x26, 0x36, 0x3F, 0xF7, 0xCC, 0x34, 0xA5, 0xE5, 0xF1, 0x71, 0xD8, 0x31, 0x15,
   0x04, 0xC7, 0x23, 0xC3, 0x18, 0x96, 0x05, 0x9A, 0x07, 0x12, 0x80, 0xE2, 0xEB, 0x27, 0xB2, 0x75]

/-- `SBOX_TABLE` (43_sbox.md R178), entries 0x40 to 0x7F. -/
def sboxRows1 : List (BitVec 8) :=
  [0x09, 0x83, 0x2C, 0x1A, 0x1B, 0x6E, 0x5A, 0xA0, 0x52, 0x3B, 0xD6, 0xB3, 0x29, 0xE3, 0x2F, 0x84,
   0x53, 0xD1, 0x00, 0xED, 0x20, 0xFC, 0xB1, 0x5B, 0x6A, 0xCB, 0xBE, 0x39, 0x4A, 0x4C, 0x58, 0xCF,
   0xD0, 0xEF, 0xAA, 0xFB, 0x43, 0x4D, 0x33, 0x85, 0x45, 0xF9, 0x02, 0x7F, 0x50, 0x3C, 0x9F, 0xA8,
   0x51, 0xA3, 0x40, 0x8F, 0x92, 0x9D, 0x38, 0xF5, 0xBC, 0xB6, 0xDA, 0x21, 0x10, 0xFF, 0xF3, 0xD2]

/-- `SBOX_TABLE` (43_sbox.md R178), entries 0x80 to 0xBF. -/
def sboxRows2 : List (BitVec 8) :=
  [0xCD, 0x0C, 0x13, 0xEC, 0x5F, 0x97, 0x44, 0x17, 0xC4, 0xA7, 0x7E, 0x3D, 0x64, 0x5D, 0x19, 0x73,
   0x60, 0x81, 0x4F, 0xDC, 0x22, 0x2A, 0x90, 0x88, 0x46, 0xEE, 0xB8, 0x14, 0xDE, 0x5E, 0x0B, 0xDB,
   0xE0, 0x32, 0x3A, 0x0A, 0x49, 0x06, 0x24, 0x5C, 0xC2, 0xD3, 0xAC, 0x62, 0x91, 0x95, 0xE4, 0x79,
   0xE7, 0xC8, 0x37, 0x6D, 0x8D, 0xD5, 0x4E, 0xA9, 0x6C, 0x56, 0xF4, 0xEA, 0x65, 0x7A, 0xAE, 0x08]

/-- `SBOX_TABLE` (43_sbox.md R178), entries 0xC0 to 0xFF. -/
def sboxRows3 : List (BitVec 8) :=
  [0xBA, 0x78, 0x25, 0x2E, 0x1C, 0xA6, 0xB4, 0xC6, 0xE8, 0xDD, 0x74, 0x1F, 0x4B, 0xBD, 0x8B, 0x8A,
   0x70, 0x3E, 0xB5, 0x66, 0x48, 0x03, 0xF6, 0x0E, 0x61, 0x35, 0x57, 0xB9, 0x86, 0xC1, 0x1D, 0x9E,
   0xE1, 0xF8, 0x98, 0x11, 0x69, 0xD9, 0x8E, 0x94, 0x9B, 0x1E, 0x87, 0xE9, 0xCE, 0x55, 0x28, 0xDF,
   0x8C, 0xA1, 0x89, 0x0D, 0xBF, 0xE6, 0x42, 0x68, 0x41, 0x99, 0x2D, 0x0F, 0xB0, 0x54, 0xBB, 0x16]

/-- `SBOX_TABLE[v]`, the FIPS-197 S-box (43_sbox.md R178). -/
def sboxTable (v : BitVec 8) : BitVec 8 := (sboxRows0 ++ sboxRows1 ++ sboxRows2 ++ sboxRows3).getD v.toNat 0

/-- `INV_SBOX_TABLE` (43_sbox.md R179), entries 0x00 to 0x3F. -/
def invSboxRows0 : List (BitVec 8) :=
  [0x52, 0x09, 0x6A, 0xD5, 0x30, 0x36, 0xA5, 0x38, 0xBF, 0x40, 0xA3, 0x9E, 0x81, 0xF3, 0xD7, 0xFB,
   0x7C, 0xE3, 0x39, 0x82, 0x9B, 0x2F, 0xFF, 0x87, 0x34, 0x8E, 0x43, 0x44, 0xC4, 0xDE, 0xE9, 0xCB,
   0x54, 0x7B, 0x94, 0x32, 0xA6, 0xC2, 0x23, 0x3D, 0xEE, 0x4C, 0x95, 0x0B, 0x42, 0xFA, 0xC3, 0x4E,
   0x08, 0x2E, 0xA1, 0x66, 0x28, 0xD9, 0x24, 0xB2, 0x76, 0x5B, 0xA2, 0x49, 0x6D, 0x8B, 0xD1, 0x25]

/-- `INV_SBOX_TABLE` (43_sbox.md R179), entries 0x40 to 0x7F. -/
def invSboxRows1 : List (BitVec 8) :=
  [0x72, 0xF8, 0xF6, 0x64, 0x86, 0x68, 0x98, 0x16, 0xD4, 0xA4, 0x5C, 0xCC, 0x5D, 0x65, 0xB6, 0x92,
   0x6C, 0x70, 0x48, 0x50, 0xFD, 0xED, 0xB9, 0xDA, 0x5E, 0x15, 0x46, 0x57, 0xA7, 0x8D, 0x9D, 0x84,
   0x90, 0xD8, 0xAB, 0x00, 0x8C, 0xBC, 0xD3, 0x0A, 0xF7, 0xE4, 0x58, 0x05, 0xB8, 0xB3, 0x45, 0x06,
   0xD0, 0x2C, 0x1E, 0x8F, 0xCA, 0x3F, 0x0F, 0x02, 0xC1, 0xAF, 0xBD, 0x03, 0x01, 0x13, 0x8A, 0x6B]

/-- `INV_SBOX_TABLE` (43_sbox.md R179), entries 0x80 to 0xBF. -/
def invSboxRows2 : List (BitVec 8) :=
  [0x3A, 0x91, 0x11, 0x41, 0x4F, 0x67, 0xDC, 0xEA, 0x97, 0xF2, 0xCF, 0xCE, 0xF0, 0xB4, 0xE6, 0x73,
   0x96, 0xAC, 0x74, 0x22, 0xE7, 0xAD, 0x35, 0x85, 0xE2, 0xF9, 0x37, 0xE8, 0x1C, 0x75, 0xDF, 0x6E,
   0x47, 0xF1, 0x1A, 0x71, 0x1D, 0x29, 0xC5, 0x89, 0x6F, 0xB7, 0x62, 0x0E, 0xAA, 0x18, 0xBE, 0x1B,
   0xFC, 0x56, 0x3E, 0x4B, 0xC6, 0xD2, 0x79, 0x20, 0x9A, 0xDB, 0xC0, 0xFE, 0x78, 0xCD, 0x5A, 0xF4]

/-- `INV_SBOX_TABLE` (43_sbox.md R179), entries 0xC0 to 0xFF. -/
def invSboxRows3 : List (BitVec 8) :=
  [0x1F, 0xDD, 0xA8, 0x33, 0x88, 0x07, 0xC7, 0x31, 0xB1, 0x12, 0x10, 0x59, 0x27, 0x80, 0xEC, 0x5F,
   0x60, 0x51, 0x7F, 0xA9, 0x19, 0xB5, 0x4A, 0x0D, 0x2D, 0xE5, 0x7A, 0x9F, 0x93, 0xC9, 0x9C, 0xEF,
   0xA0, 0xE0, 0x3B, 0x4D, 0xAE, 0x2A, 0xF5, 0xB0, 0xC8, 0xEB, 0xBB, 0x3C, 0x83, 0x53, 0x99, 0x61,
   0x17, 0x2B, 0x04, 0x7E, 0xBA, 0x77, 0xD6, 0x26, 0xE1, 0x69, 0x14, 0x63, 0x55, 0x21, 0x0C, 0x7D]

/-- `INV_SBOX_TABLE[v]` (43_sbox.md R179). -/
def invSboxTable (v : BitVec 8) : BitVec 8 := (invSboxRows0 ++ invSboxRows1 ++ invSboxRows2 ++ invSboxRows3).getD v.toNat 0

/-- `xtime`, multiplication by 2 in GF(2^8) (44_mixcolumns.md R193). -/
def xtime (u : BitVec 8) : BitVec 8 := (u <<< 1) ^^^ (if u.getLsbD 7 then 0x1B else 0)

/-- Multiplication by the matrix entries 1, 2 and 3 (44_mixcolumns.md R190, R193). -/
def gfMul (m : Nat) (u : BitVec 8) : BitVec 8 :=
  match m with
  | 1 => u
  | 2 => xtime u
  | 3 => xtime u ^^^ u
  | _ => 0

/-- The rows of the MDS matrix `M` (44_mixcolumns.md R190). -/
def mdsRows : List (List Nat) := [[2, 3, 1, 1], [1, 2, 3, 1], [1, 1, 2, 3], [3, 1, 1, 2]]

/-- Row `r` of the product: the sum over `c` of `M[r][c] · a_c`, sums being XOR (44_mixcolumns.md R190). -/
def mdsRow (row : List Nat) (a : List (BitVec 8)) : BitVec 8 := ((row.zip a).map (fun p => gfMul p.1 p.2)).foldl (· ^^^ ·) 0

/-- The AES MixColumns transform of one column (44_mixcolumns.md R190). -/
def mixColumn (a : List (BitVec 8)) : List (BitVec 8) := mdsRows.map (fun row => mdsRow row a)

/-- The program has `width` inputs and outputs and passes the construction check (41_executor.md R141). -/
def programOk (img : List Word) (width : Nat) : Bool :=
  decide (check img = none) && decide (imageNIn img = width) && decide (imageNOut img = width)

/-- The contract of a program on one byte: on the bits of every byte it computes the bits of its entry in `table`
(43_sbox.md R173, R176). -/
def computesTable (img : List Word) (table : BitVec 8 → BitVec 8) : Prop :=
  ∀ v : BitVec 8, refOutputs plainGates img (byteBits v) = byteBits (table v)

/-- The contract of a program on a column: on the bits of every column it computes those of its MixColumns transform
(44_mixcolumns.md R190). -/
def computesColumn (img : List Word) : Prop :=
  ∀ a0 a1 a2 a3 : BitVec 8, refOutputs plainGates img ([a0, a1, a2, a3].flatMap byteBits) =
    (mixColumn [a0, a1, a2, a3]).flatMap byteBits

/-- `PROGRAM_ROM` (00_scope.md R7): any programs that pass the construction check and meet the contracts R173, R176 and R190 may
stand in the ROM (43_sbox.md R177, 44_mixcolumns.md R195, 92_eei_decisions.md D23). -/
structure Rom.Legal (r : Rom) : Prop where
  sboxFwd : programOk r.sboxFwd 8 = true
  sboxInv : programOk r.sboxInv 8 = true
  mixcol : programOk r.mixcol 32 = true
  /-- R173 -/
  forward : computesTable r.sboxFwd sboxTable
  /-- R176 -/
  inverse : computesTable r.sboxInv invSboxTable
  /-- R190 -/
  column : computesColumn r.mixcol

end Sys2Proof.Machine
end

