-- ==== Sys2Proof/Laws/Ref.lean ====
section
/-! SUPPORT. The sequential reference semantics (41_executor.md R132): earlier values stay, and each gate's value is the gate of
the values before it. -/

namespace Sys2Proof.Machine

variable {α β : Type} [Inhabited α] [Inhabited β]

theorem refRun_length (G : Gates α) (ws : List Word) (v : List α) : (refRun G ws v).length = v.length + ws.length := by
  induction ws generalizing v with
  | nil => rfl
  | cons w rest ih => simp only [refRun, ih, List.length_append, List.length_cons, List.length_nil]; omega

/-- Earlier values stay as they are. -/
theorem refRun_prefix_get (G : Gates α) (ws : List Word) (v : List α) (i : Nat) (hi : i < v.length) :
    (refRun G ws v)[i]? = v[i]? := by
  induction ws generalizing v with
  | nil => rfl
  | cons w rest ih =>
    rw [refRun, ih _ (by simp; omega), List.getElem?_append_left hi]

omit [Inhabited α] in
/-- A gate whose operands are below `v.length` has the same value on any longer list of wires. -/
theorem refGate_congr (G : Gates α) (w : Word) (v v' : List α) (h1 : v[gateS1 w]? = v'[gateS1 w]?)
    (h2 : gateOp w ≠ 2 → v[gateS2 w]? = v'[gateS2 w]?) : refGate G w v = refGate G w v' := by
  unfold refGate
  rw [h1]
  by_cases hop : gateOp w = 2
  · rw [hop]
    cases v'[gateS1 w]? <;> rfl
  · rw [h2 hop]

/-- The value of gate `k` is the gate of the reference values before it. -/
theorem refRun_gate (G : Gates α) (ws : List Word) (v : List α) (k : Nat) (hk : k < ws.length)
    (h1 : gateS1 ws[k] < v.length + k) (h2 : gateOp ws[k] ≠ 2 → gateS2 ws[k] < v.length + k) :
    (refRun G ws v)[v.length + k]? = some ((refGate G ws[k] (refRun G ws v)).getD default) := by
  induction ws generalizing v k with
  | nil => simp at hk
  | cons w rest ih =>
    have hlen : (v ++ [(refGate G w v).getD default]).length = v.length + 1 := by simp
    cases k with
    | zero =>
      simp only [List.getElem_cons_zero, Nat.add_zero] at h1 h2 ⊢
      have hv : ∀ i, i < v.length → (refRun G (w :: rest) v)[i]? = v[i]? := refRun_prefix_get G (w :: rest) v
      rw [refGate_congr G w (refRun G (w :: rest) v) v (hv _ h1) (fun h => hv _ (h2 h)), refRun,
        refRun_prefix_get G rest _ _ (by rw [hlen]; omega)]
      simp
    | succ j =>
      simp only [List.getElem_cons_succ] at h1 h2 ⊢
      have := ih (v ++ [(refGate G w v).getD default]) j (by simpa using hk) (by rw [hlen]; omega)
        (fun h => by rw [hlen]; have := h2 h; omega)
      rw [hlen] at this
      rw [refRun, show v.length + (j + 1) = v.length + 1 + j by omega]
      exact this

omit [Inhabited α] in
/-- An operand below `v.length` has a value, so a gate with legal operands has one. -/
theorem refGate_isSome (G : Gates α) (w : Word) (v : List α) (hop : gateOp w ≠ 3) (h1 : gateS1 w < v.length)
    (h2 : gateOp w ≠ 2 → gateS2 w < v.length) : (refGate G w v).isSome = true := by
  have hlt : gateOp w < 4 := (BitVec.extractLsb' 30 2 w).isLt
  unfold refGate
  generalize gateOp w = op at *
  rw [List.getElem?_eq_getElem h1]
  match op with
  | 0 => rw [List.getElem?_eq_getElem (h2 (by omega))]; rfl
  | 1 => rw [List.getElem?_eq_getElem (h2 (by omega))]; rfl
  | 2 => rfl
  | n + 3 => omega

theorem imageGates_length (img : List Word) : (imageGates img).length = imageN img := by simp [imageGates]

theorem imageGates_get (img : List Word) (k : Nat) (hk : k < (imageGates img).length) :
    (imageGates img)[k] = imageGate img k := by simp [imageGates]

theorem refWires_length (G : Gates α) (img : List Word) (ins : List α) :
    (refWires G img ins).length = ins.length + imageN img := by
  rw [refWires, refRun_length, imageGates_length]

/-- The inputs are the first values (R132). -/
theorem refWires_input (G : Gates α) (img : List Word) (ins : List α) (i : Nat) (hi : i < ins.length) :
    (refWires G img ins)[i]? = ins[i]? := refRun_prefix_get G _ ins i hi

/-- In a checked image, gate `k`'s value is its gate of the reference values (R132). -/
theorem refWires_gate (G : Gates α) {img : List Word} (h : ImageFacts img) (ins : List α)
    (hin : ins.length = imageNIn img) {k : Nat} (hk : k < imageN img) :
    (refWires G img ins)[imageNIn img + k]? = refGate G (imageGate img k) (refWires G img ins) := by
  obtain ⟨h3, -, h1, h2⟩ := h.gate k hk
  have hk' : k < (imageGates img).length := by rw [imageGates_length]; exact hk
  have := refRun_gate G (imageGates img) ins k hk' (by rw [imageGates_get]; omega)
    (fun h => by rw [imageGates_get] at h ⊢; have := h2 h; omega)
  rw [imageGates_get] at this
  rw [← hin]
  refine this.trans ?_
  have hl : (refRun G (imageGates img) ins).length = ins.length + imageN img := refWires_length G img ins
  have hs := refGate_isSome G (imageGate img k) (refRun G (imageGates img) ins) h3 (by omega)
    (fun h => by have := h2 h; omega)
  obtain ⟨x, hx⟩ := Option.isSome_iff_exists.mp hs
  simp only [refWires, hx, Option.getD_some]

/-- Two sets of gates that keep a relation between their values. -/
structure GateRel (G : Gates α) (H : Gates β) (R : α → β → Prop) : Prop where
  xor : ∀ a b c d, R a c → R b d → R (G.xor a b) (H.xor c d)
  and : ∀ a b c d, R a c → R b d → R (G.and a b) (H.and c d)
  not : ∀ a c, R a c → R (G.not a) (H.not c)

/-- Related gates keep related wires related, in a checked image. -/
theorem refWires_rel {G : Gates α} {H : Gates β} {R : α → β → Prop} (rel : GateRel G H R) {img : List Word}
    (h : ImageFacts img) {xs : List α} {ys : List β} (hxy : List.Forall₂ R xs ys) (hin : xs.length = imageNIn img)
    (i : Nat) (hi : i < imageNIn img + imageN img) :
    ∃ x y, (refWires G img xs)[i]? = some x ∧ (refWires H img ys)[i]? = some y ∧ R x y := by
  have hys : ys.length = imageNIn img := hxy.length_eq ▸ hin
  induction i using Nat.strong_induction_on with
  | _ i ih =>
    by_cases hlt : i < imageNIn img
    · rw [refWires_input _ _ _ _ (by omega), refWires_input _ _ _ _ (by omega)]
      exact ⟨xs[i], ys[i], List.getElem?_eq_getElem (by omega), List.getElem?_eq_getElem (by omega), hxy.get _ _⟩
    · obtain ⟨k, rfl⟩ : ∃ k, i = imageNIn img + k := ⟨i - imageNIn img, by omega⟩
      have hk : k < imageN img := by omega
      rw [refWires_gate G h xs hin hk, refWires_gate H h ys hys hk]
      obtain ⟨h3, -, h1, h2⟩ := h.gate k hk
      have hop : gateOp (imageGate img k) < 4 := (BitVec.extractLsb' 30 2 (imageGate img k)).isLt
      obtain ⟨a, c, ha, hc, hac⟩ := ih _ h1 (by omega)
      simp only [refGate, ha, hc]
      generalize gateOp (imageGate img k) = op at *
      match op with
      | 0 =>
        obtain ⟨b, d, hb, hd, hbd⟩ := ih _ (h2 (by omega)) (by have := h2 (by omega); omega)
        rw [hb, hd]
        exact ⟨_, _, rfl, rfl, rel.xor _ _ _ _ hac hbd⟩
      | 1 =>
        obtain ⟨b, d, hb, hd, hbd⟩ := ih _ (h2 (by omega)) (by have := h2 (by omega); omega)
        rw [hb, hd]
        exact ⟨_, _, rfl, rfl, rel.and _ _ _ _ hac hbd⟩
      | 2 => exact ⟨_, _, rfl, rfl, rel.not _ _ hac⟩
      | n + 3 => omega

/-- Related gates keep the outputs of a checked image related. -/
theorem refOutputs_rel {G : Gates α} {H : Gates β} {R : α → β → Prop} (rel : GateRel G H R) {img : List Word}
    (h : ImageFacts img) {xs : List α} {ys : List β} (hxy : List.Forall₂ R xs ys) (hin : xs.length = imageNIn img) :
    List.Forall₂ R (refOutputs G img xs) (refOutputs H img ys) := by
  unfold refOutputs
  rw [List.forall₂_map_left_iff, List.forall₂_map_right_iff, List.forall₂_same]
  intro j hj
  obtain ⟨x, y, hx, hy, hr⟩ := refWires_rel rel h hxy hin _ (h.selector j (List.mem_range.mp hj))
  rw [hx, hy]
  exact hr

omit [Inhabited α] [Inhabited β] in
theorem forall₂_eq_map {f : α → β} {xs : List α} {ys : List β} : List.Forall₂ (fun x y => f x = y) xs ys ↔ xs.map f = ys := by
  rw [← List.forall₂_map_left_iff (R := Eq), List.forall₂_eq_eq_eq]

/-- A map that respects the gates respects the outputs of a checked image. -/
theorem refOutputs_map {G : Gates α} {H : Gates β} {f : α → β} (rel : GateRel G H fun x y => f x = y) {img : List Word}
    (h : ImageFacts img) {xs : List α} (hin : xs.length = imageNIn img) :
    (refOutputs G img xs).map f = refOutputs H img (xs.map f) :=
  forall₂_eq_map.mp (refOutputs_rel rel h (forall₂_eq_map.mpr rfl) hin)

end Sys2Proof.Machine
end

