-- ==== Sys2Proof/Laws/Rom.lean ====
section
/-! SUPPORT. The reference programs may stand in the ROM: they pass the construction check and meet the contracts. The S-box
programs are run once on the truth tables of their inputs, the MixColumns program once on sums of its inputs. -/

namespace Sys2Proof.Machine

/-- The gates on truth tables, one bit for each value of a byte. -/
def tableGates : Gates (BitVec 256) where
  xor a b := a ^^^ b
  and a b := a &&& b
  not a := ~~~ a

theorem tableGates_rel (i : Nat) (hi : i < 256) : GateRel tableGates plainGates fun t v => t.getLsbD i = v where
  xor := by rintro a b _ _ rfl rfl; simp [tableGates, plainGates]
  and := by rintro a b _ _ rfl rfl; simp [tableGates, plainGates]
  not := by rintro a _ rfl; simp [tableGates, plainGates, hi]

/-- The truth tables of the bits of `f v`, bit 0 first. -/
def truthTables (f : BitVec 8 → BitVec 8) : List (BitVec 256) :=
  (List.range 8).map fun k => BitVec.ofNat 256
    ((List.range 256).foldl (fun acc v => if (f (BitVec.ofNat 8 v)).getLsbD k then acc + 2 ^ v else acc) 0)

theorem truthTables_id : ∀ v : BitVec 8, (truthTables id).map (fun t => t.getLsbD v.toNat) = byteBits v := by decide +kernel

theorem truthTables_sbox :
    ∀ v : BitVec 8, (truthTables sboxTable).map (fun t => t.getLsbD v.toNat) = byteBits (sboxTable v) := by decide +kernel

theorem truthTables_invSbox :
    ∀ v : BitVec 8, (truthTables invSboxTable).map (fun t => t.getLsbD v.toNat) = byteBits (invSboxTable v) := by
  decide +kernel

theorem programOk_facts {img : List Word} {n : Nat} (h : programOk img n = true) :
    check img = none ∧ ImageFacts img ∧ imageNIn img = n ∧ imageNOut img = n := by
  simp only [programOk, Bool.and_eq_true, decide_eq_true_eq] at h
  exact ⟨h.1.1, check_facts h.1.1, h.1.2, h.2⟩

/-- A program that maps truth tables to truth tables computes the table. -/
theorem computesTable_of_truthTables {img : List Word} {f : BitVec 8 → BitVec 8} (hk : programOk img 8 = true)
    (hf : ∀ v : BitVec 8, (truthTables f).map (fun t => t.getLsbD v.toNat) = byteBits (f v))
    (h : refOutputs tableGates img (truthTables id) = truthTables f) : computesTable img f := by
  intro v
  obtain ⟨-, facts, hn, -⟩ := programOk_facts hk
  rw [← truthTables_id v, ← hf v, ← h]
  exact (refOutputs_map (tableGates_rel v.toNat v.isLt) facts (by rw [hn]; rfl)).symm

theorem sboxFwd_ok : programOk sboxFwdImage 8 = true := by decide +kernel

theorem sboxInv_ok : programOk sboxInvImage 8 = true := by decide +kernel

theorem mixcol_ok : programOk mixcolImage 32 = true := by decide +kernel

theorem sboxFwd_computes : computesTable sboxFwdImage sboxTable :=
  computesTable_of_truthTables sboxFwd_ok truthTables_sbox (by decide +kernel)

theorem sboxInv_computes : computesTable sboxInvImage invSboxTable :=
  computesTable_of_truthTables sboxInv_ok truthTables_invSbox (by decide +kernel)

/-- XOR on sums of inputs, each a mask with a bit for every input in it; AND and NOT have no such sum. -/
def sumGates : Gates (Option (BitVec 32)) where
  xor a b := a.bind fun x => b.map fun y => x ^^^ y
  and _ _ := none
  not _ := none

/-- The sum of the inputs listed. -/
def xorAt (l : List Nat) (x : List Bool) : Bool := (l.map fun i => x.getD i false).foldr (· ^^ ·) false

/-- The inputs in a sum. -/
def ones (m : BitVec 32) : List Nat := (List.range 32).filter fun i => m.getLsbD i

theorem xorAt_filter (l : List Nat) (a b : BitVec 32) (x : List Bool) :
    xorAt (l.filter fun i => (a ^^^ b).getLsbD i) x =
      (xorAt (l.filter fun i => a.getLsbD i) x ^^ xorAt (l.filter fun i => b.getLsbD i) x) := by
  induction l with
  | nil => rfl
  | cons i l ih =>
    simp only [List.filter_cons, BitVec.getLsbD_xor] at ih ⊢
    cases ha : a.getLsbD i <;> cases hb : b.getLsbD i <;>
      simp only [Bool.xor_self, Bool.false_xor, Bool.true_xor, Bool.not_false, if_true, Bool.false_eq_true, if_false, xorAt,
        List.map_cons, List.foldr_cons] at ih ⊢ <;> rw [ih] <;> cases x.getD i false <;> simp

theorem sumGates_rel (x : List Bool) : GateRel sumGates plainGates fun m v => ∀ a, m = some a → xorAt (ones a) x = v where
  xor := by
    intro a b c d hac hbd m hm
    simp only [sumGates, Option.bind_eq_some_iff, Option.map_eq_some_iff] at hm
    obtain ⟨p, rfl, q, rfl, rfl⟩ := hm
    rw [ones, xorAt_filter]
    exact congrArg₂ _ (hac p rfl) (hbd q rfl)
  and := by intro a b c d _ _ m hm; cases hm
  not := by intro a c _ m hm; cases hm

/-- Each input alone. -/
def singleInputs : List (Option (BitVec 32)) := (List.range 32).map fun i => some (BitVec.ofNat 32 (2 ^ i))

/-- What each output of MIXCOL is the sum of. -/
def mixcolSums : List (List Nat) :=
  [[7, 8, 15, 16, 24], [0, 7, 8, 9, 15, 17, 25], [1, 9, 10, 18, 26], [2, 7, 10, 11, 15, 19, 27], [3, 7, 11, 12, 15, 20, 28],
   [4, 12, 13, 21, 29], [5, 13, 14, 22, 30], [6, 14, 15, 23, 31],
   [0, 15, 16, 23, 24], [1, 8, 15, 16, 17, 23, 25], [2, 9, 17, 18, 26], [3, 10, 15, 18, 19, 23, 27],
   [4, 11, 15, 19, 20, 23, 28], [5, 12, 20, 21, 29], [6, 13, 21, 22, 30], [7, 14, 22, 23, 31],
   [0, 8, 23, 24, 31], [1, 9, 16, 23, 24, 25, 31], [2, 10, 17, 25, 26], [3, 11, 18, 23, 26, 27, 31],
   [4, 12, 19, 23, 27, 28, 31], [5, 13, 20, 28, 29], [6, 14, 21, 29, 30], [7, 15, 22, 30, 31],
   [0, 7, 8, 16, 31], [0, 1, 7, 9, 17, 24, 31], [1, 2, 10, 18, 25], [2, 3, 7, 11, 19, 26, 31],
   [3, 4, 7, 12, 20, 27, 31], [4, 5, 13, 21, 28], [5, 6, 14, 22, 29], [6, 7, 15, 23, 30]]

theorem mixcol_sums : (refOutputs sumGates mixcolImage singleInputs).map (Option.map ones) = mixcolSums.map some := by
  decide +kernel

/-- Every output of MIXCOL is the sum of its inputs. -/
theorem mixcol_xorAt (x : List Bool) (h : x.length = 32) :
    refOutputs plainGates mixcolImage x = mixcolSums.map fun l => xorAt l x := by
  obtain ⟨-, facts, hn, -⟩ := programOk_facts mixcol_ok
  have hx : List.Forall₂ (fun m v => ∀ a, m = some a → xorAt (ones a) x = v) singleInputs x := by
    rw [List.forall₂_iff_get]
    refine ⟨by simp [singleInputs, h], fun i h1 h2 a ha => ?_⟩
    have : ∀ i : Fin 32, ones (BitVec.ofNat 32 (2 ^ i.val)) = [i.val] := by decide +kernel
    simp only [singleInputs, List.get_eq_getElem, List.getElem_map, List.getElem_range, Option.some.injEq] at ha
    rw [← ha, this ⟨i, by omega⟩]
    simp [xorAt, List.getElem?_eq_getElem h2]
  have hr := refOutputs_rel (sumGates_rel x) facts hx (by rw [hn]; rfl)
  have hs := mixcol_sums
  generalize refOutputs sumGates mixcolImage singleInputs = ms at hr hs
  generalize refOutputs plainGates mixcolImage x = vs at hr
  generalize mixcolSums = ls at hs
  induction hr generalizing ls with
  | nil => cases ls <;> simp_all
  | cons hh _ ih =>
    cases ls with
    | nil => simp at hs
    | cons l ls =>
      simp only [List.map_cons, List.cons.injEq, Option.map_eq_some_iff] at hs ⊢
      obtain ⟨⟨m, rfl, rfl⟩, hs⟩ := hs
      exact ⟨(hh m rfl).symm, ih ls hs⟩

/-- The bits of `xtime u` (44_mixcolumns.md R193). -/
theorem getLsbD_xtime (u : BitVec 8) :
    (xtime u).getLsbD 0 = u.getLsbD 7 ∧ (xtime u).getLsbD 1 = (u.getLsbD 0 ^^ u.getLsbD 7) ∧
    (xtime u).getLsbD 2 = u.getLsbD 1 ∧ (xtime u).getLsbD 3 = (u.getLsbD 2 ^^ u.getLsbD 7) ∧
    (xtime u).getLsbD 4 = (u.getLsbD 3 ^^ u.getLsbD 7) ∧ (xtime u).getLsbD 5 = u.getLsbD 4 ∧
    (xtime u).getLsbD 6 = u.getLsbD 5 ∧ (xtime u).getLsbD 7 = u.getLsbD 6 := by revert u; decide +kernel

theorem mixcol_computes : computesColumn mixcolImage := by
  intro a0 a1 a2 a3
  rw [mixcol_xorAt _ (by simp [byteBits])]
  obtain ⟨p0, p1, p2, p3, p4, p5, p6, p7⟩ := getLsbD_xtime a0
  obtain ⟨q0, q1, q2, q3, q4, q5, q6, q7⟩ := getLsbD_xtime a1
  obtain ⟨r0, r1, r2, r3, r4, r5, r6, r7⟩ := getLsbD_xtime a2
  obtain ⟨s0, s1, s2, s3, s4, s5, s6, s7⟩ := getLsbD_xtime a3
  have z : ∀ k, (0 : BitVec 8).getLsbD k = false := fun k => by simp
  simp only [mixcolSums, List.map_cons, List.map_nil, mixColumn, mdsRows, mdsRow, List.zip_cons_cons, List.zip_nil_right,
    gfMul, List.foldl_cons, List.foldl_nil, List.flatMap_cons, List.flatMap_nil, byteBits, BitVec.getLsbD_xor, p0, p1, p2, p3,
    p4, p5, p6, p7, q0, q1, q2, q3, q4, q5, q6, q7, r0, r1, r2, r3, r4, r5, r6, r7, s0, s1, s2, s3, s4, s5, s6, s7,
    Bool.false_xor, xorAt, List.cons_append, List.nil_append, List.append_nil, List.foldr_cons, List.foldr_nil,
    List.getD_cons_zero, List.getD_cons_succ, Bool.xor_false, z, List.cons.injEq, and_true]
  and_intros <;> simp only [Bool.xor_assoc, Bool.xor_comm, Bool.xor_left_comm]

/-- The reference programs may stand in the ROM. -/
theorem Rom.reference_legal : Rom.reference.Legal :=
  ⟨sboxFwd_ok, sboxInv_ok, mixcol_ok, sboxFwd_computes, sboxInv_computes, mixcol_computes⟩

end Sys2Proof.Machine
end

