-- ==== Sys2Proof/Config.lean ====
section
/-! DEFINITION. What an implementation fixes and the free values (00_scope.md R7): the parameters `W_MAX`, `W`, `N_USER`,
`N_INST`, `ENGINE_DETERMINISTIC` and `PROGRAM_ROM`; the evaluation engine with the laws of 10_state.md R39 to R46; and the free
choice of the next move (41_executor.md R127). Nothing in Lean can evaluate the three opaque constants. -/

namespace Sys2Proof

/-- The open parameters of one implementation (00_scope.md R7). -/
structure Params where
  /-- `W_MAX`, the cap on the worker count. -/
  wMax : Nat
  /-- `W`, the worker count of one executor. -/
  w : Nat
  /-- `N_USER`, the number of user program slots. -/
  nUser : Nat
  /-- `N_INST`, the number of executors. -/
  nInst : Nat
  /-- `ENGINE_DETERMINISTIC`: equal engine arguments give equal ciphertexts (10_state.md R46). -/
  deterministic : Bool
  /-- `PROGRAM_ROM`, the contents of slots 0, 1 and 2 (10_state.md R49). -/
  rom : Machine.Rom
  deriving DecidableEq, Repr

/-- The bounds 00_scope.md R7 puts on the numbers. -/
def Params.bounds (p : Params) : Bool :=
  decide (8 ≤ p.wMax) && decide (p.wMax ≤ 255) && decide (1 ≤ p.w) && decide (p.w ≤ p.wMax) &&
    decide (p.nUser ≤ 29) && decide (1 ≤ p.nInst) && decide (p.nInst ≤ 255)

/-- The parameters an implementation may have: the numbers within their bounds, either setting of `ENGINE_DETERMINISTIC`, and any
ROM programs that pass the construction check and meet the contracts (00_scope.md R7). -/
structure Params.Legal (p : Params) : Prop where
  bounds : p.bounds = true
  rom : p.rom.Legal

/-- The default configuration of 95_test_vectors.md, with the spec's defaults of the other two; here to show that legal parameters
exist. -/
def Params.vectorsDefault : Params :=
  { wMax := 8, w := 2, nUser := 1, nInst := 1, deterministic := true, rom := Machine.Rom.reference }

theorem Params.vectorsDefault_legal : Params.vectorsDefault.Legal := ⟨by decide, Machine.Rom.reference_legal⟩

/-- FREE VALUE (notes/assumptions/4.md): some legal parameters. It has no body; the bracketed argument only says that legal
parameters exist, and nothing follows from it about which ones these are. -/
opaque Config.anyParams [Inhabited { p : Params // p.Legal }] : { p : Params // p.Legal }

/-- The parameters of the implementation that `State.reset` describes: legal, and otherwise unknown. -/
def Config.params : Params := (@Config.anyParams ⟨⟨Params.vectorsDefault, Params.vectorsDefault_legal⟩⟩).val

theorem Config.params_legal : Config.params.Legal :=
  (@Config.anyParams ⟨⟨Params.vectorsDefault, Params.vectorsDefault_legal⟩⟩).property

/-- The evaluation engine's seven calls (10_state.md R38), the decryption maps `decb` and `decB` that laws and claims use
and the block never computes (00_scope.md R13), and the session owner's encryption `encb`, `encB` (10_state.md R47), which
the block never calls either. -/
structure Engine where
  bitAnd : EncBit → EncBit → EncBit
  bitXor : EncBit → EncBit → EncBit
  bitNot : EncBit → EncBit
  byteAnd : EncByte → EncByte → EncByte
  byteOr : EncByte → EncByte → EncByte
  byteEqual : EncByte → EncByte → EncBit
  select : EncBit → EncByte → EncByte → EncByte
  decb : EncBit → Bool
  decB : EncByte → BitVec 8
  encb : Bool → EncBit
  encB : BitVec 8 → EncByte

/-- The laws of the engine, 10_state.md R39 to R45, and that decryption undoes the session owner's encryption. That every call
returns a valid ciphertext (R46) is that the calls are functions. -/
structure Engine.Laws (E : Engine) : Prop where
  /-- R39 -/
  bitAnd : ∀ a b, E.decb (E.bitAnd a b) = (E.decb a && E.decb b)
  /-- R40 -/
  bitXor : ∀ a b, E.decb (E.bitXor a b) = (E.decb a ^^ E.decb b)
  /-- R41 -/
  bitNot : ∀ a, E.decb (E.bitNot a) = !E.decb a
  /-- R42 -/
  byteAnd : ∀ a b, E.decB (E.byteAnd a b) = E.decB a &&& E.decB b
  /-- R43 -/
  byteEqual : ∀ a b, E.decb (E.byteEqual a b) = decide (E.decB a = E.decB b)
  /-- R44 -/
  byteOr : ∀ a b, E.decB (E.byteOr a b) = E.decB a ||| E.decB b
  /-- R45 -/
  select : ∀ c a b, E.decB (E.select c a b) = if E.decb c then E.decB a else E.decB b
  /-- R47: the session owner's encryption. -/
  encb : ∀ v, E.decb (E.encb v) = v
  /-- R47: the session owner's encryption. -/
  encB : ∀ v, E.decB (E.encB v) = v

/-- The plaintext test engine of 95_test_vectors.md: `EncBit` is 0 or 1, `EncByte` is 0 to 255, decryption is the identity.
Used to show that an engine meeting the laws exists, and in tests. -/
def Engine.plaintext : Engine where
  bitAnd a b := ⟨(a.code % 2) * (b.code % 2)⟩
  bitXor a b := ⟨(a.code + b.code) % 2⟩
  bitNot a := ⟨(a.code + 1) % 2⟩
  byteAnd a b := ⟨(BitVec.ofNat 8 a.code &&& BitVec.ofNat 8 b.code).toNat⟩
  byteOr a b := ⟨(BitVec.ofNat 8 a.code ||| BitVec.ofNat 8 b.code).toNat⟩
  byteEqual a b := ⟨if BitVec.ofNat 8 a.code = BitVec.ofNat 8 b.code then 1 else 0⟩
  select c a b := if c.code % 2 = 1 then a else b
  decb a := decide (a.code % 2 = 1)
  decB a := BitVec.ofNat 8 a.code
  encb v := ⟨if v then 1 else 0⟩
  encB v := ⟨v.toNat⟩

theorem Engine.plaintext_laws : Engine.plaintext.Laws where
  bitAnd a b := by
    simp only [Engine.plaintext]
    rcases Nat.mod_two_eq_zero_or_one a.code with h | h <;>
      rcases Nat.mod_two_eq_zero_or_one b.code with k | k <;> simp [h, k]
  bitXor a b := by
    simp only [Engine.plaintext]
    rcases Nat.mod_two_eq_zero_or_one a.code with h | h <;>
      rcases Nat.mod_two_eq_zero_or_one b.code with k | k <;> simp [h, k, Nat.add_mod]
  bitNot a := by
    simp only [Engine.plaintext]
    rcases Nat.mod_two_eq_zero_or_one a.code with h | h <;> simp [h, Nat.add_mod]
  byteAnd a b := by simp only [Engine.plaintext, BitVec.ofNat_toNat, BitVec.setWidth_eq]
  byteEqual a b := by
    simp only [Engine.plaintext]
    split <;> simp_all
  byteOr a b := by simp only [Engine.plaintext, BitVec.ofNat_toNat, BitVec.setWidth_eq]
  select c a b := by
    simp only [Engine.plaintext]
    split <;> simp_all
  encb v := by cases v <;> simp [Engine.plaintext]
  encB v := by simp [Engine.plaintext]

/-- The gates on ciphertexts, as the calls of one engine (40_gates.md R100 to R102). -/
def Engine.gates (E : Engine) : Machine.Gates EncBit where
  xor := E.bitXor
  and := E.bitAnd
  not := E.bitNot

/-- An attached engine under both settings of `ENGINE_DETERMINISTIC` (10_state.md R46): `fixed` answers every call when it is
true; when it is false, `drawn t j` answers call `j` of step `t`, so that no two calls need answer alike. -/
structure Engines where
  fixed : Engine
  drawn : Nat → Nat → Engine

/-- Every call obeys the laws, and all ciphertexts are decrypted alike, under the one session key. -/
structure Engines.Laws (F : Engines) : Prop where
  fixed : F.fixed.Laws
  drawn : ∀ t j, (F.drawn t j).Laws
  decb : ∀ t j, (F.drawn t j).decb = F.fixed.decb
  decB : ∀ t j, (F.drawn t j).decB = F.fixed.decB

theorem Engines.plaintext_laws : ({ fixed := Engine.plaintext, drawn := fun _ _ => Engine.plaintext } : Engines).Laws :=
  ⟨Engine.plaintext_laws, fun _ _ => Engine.plaintext_laws, fun _ _ => rfl, fun _ _ => rfl⟩

/-- FREE VALUE (notes/assumptions/2.md, notes/assumptions/3.md): some engine that meets the laws. It has no body; the bracketed
argument only says that such engines exist, and nothing follows from it about which one this is. -/
opaque Config.anyEngines [Inhabited { F : Engines // F.Laws }] : { F : Engines // F.Laws }

/-- `ENGINE` (00_scope.md R7), as it answers when it is deterministic; `decb` and `decB` are its decryptions in either setting. -/
def Config.engine : Engine := (@Config.anyEngines ⟨⟨_, Engines.plaintext_laws⟩⟩).val.fixed

/-- `ENGINE` as it answers call `j` of step `t` when it is not deterministic: any ciphertext of the law's plaintext
(93_implementation_defined.md I6). -/
def Config.drawnEngine (t j : Nat) : Engine := (@Config.anyEngines ⟨⟨_, Engines.plaintext_laws⟩⟩).val.drawn t j

/-- The premise `EngineLaws` of 70_reset_and_hazards.md R235, which the model's engine meets. -/
theorem Config.engine_laws : Config.engine.Laws := (@Config.anyEngines ⟨⟨_, Engines.plaintext_laws⟩⟩).property.fixed

theorem Config.drawnEngine_laws (t j : Nat) : (Config.drawnEngine t j).Laws :=
  (@Config.anyEngines ⟨⟨_, Engines.plaintext_laws⟩⟩).property.drawn t j

theorem Config.drawnEngine_decb (t j : Nat) : (Config.drawnEngine t j).decb = Config.engine.decb :=
  (@Config.anyEngines ⟨⟨_, Engines.plaintext_laws⟩⟩).property.decb t j

theorem Config.drawnEngine_decB (t j : Nat) : (Config.drawnEngine t j).decB = Config.engine.decB :=
  (@Config.anyEngines ⟨⟨_, Engines.plaintext_laws⟩⟩).property.decB t j

/-- A command as the host issues it: the command word and its payload (30_encoding.md R84). -/
structure Command where
  word : Word
  payload : Payload
  deriving DecidableEq, Repr

/-- What the host can do next (70_reset_and_hazards.md R242). -/
inductive HostMove where
  /-- Issue a command to executor `q`. -/
  | issue (q : Nat) (c : Command)
  /-- Reset the block. -/
  | reset
  /-- Do nothing to the block. -/
  | quiet
  deriving DecidableEq, Repr, Inhabited

/-- Which agent takes the next step (00_scope.md R18). -/
inductive Move where
  | host (h : HostMove)
  /-- The command sequencer of executor `q`. -/
  | seq (q : Nat)
  /-- Worker `w` of executor `q`. -/
  | worker (q w : Nat)
  deriving DecidableEq, Repr, Inhabited

/-- FREE VALUE (notes/assumptions/5.md): the move taken at a tick for which `State.plan` names none. The choice of the next
agent "is free and not a parameter of the observation" (41_executor.md R127), and the host acts as it likes. -/
opaque Config.nextMove : Nat → Move

end Sys2Proof
end

