-- ==== Sys2Proof/Machine/State.lean ====
section
/-! DEFINITION. The state of the block (10_state.md R20 to R36), as plain data, its value at reset (R48), and the reasons a
step can stop. The word "executor" stands here for what the spec calls an instance (R20). -/

namespace Sys2Proof.Machine

/-- A worker's state (10_state.md R27). -/
inductive Worker where
  /-- It holds no gate and will claim next. -/
  | idle
  /-- It has claimed gate `k` and has not yet written wire `N_IN + k`. -/
  | claimed (k : Nat)
  /-- It claimed an index `≥ N` and does nothing more in this EXEC. -/
  | exited
  deriving DecidableEq, Repr

/-- Which step the sequencer of a busy executor takes next: the phases of EXEC (41_executor.md R120), and the inner DECOMPOSE
and RECOMPOSE of SBOX, INVSBOX and MIXCOL (43_sbox.md R172, 44_mixcolumns.md R192). -/
inductive Phase where
  /-- The inner DECOMPOSE of a composite command. -/
  | decompose
  /-- The start phase (R122). -/
  | start
  /-- Worker steps until the join, then the output copy (R123 to R129). -/
  | run
  /-- The inner RECOMPOSE of a composite command. -/
  | recompose
  /-- `STATUS.CAUSE <- 0x00` (R120 phase 5). -/
  | status
  /-- `BUSY <- 0`, and the result is returned (R120 phase 6). -/
  | release
  deriving DecidableEq, Repr

/-- The position-value table: `PV[0] .. PV[7]` and `PVZ` (10_state.md R34). -/
structure PvTable where
  pv0 : EncByte
  pv1 : EncByte
  pv2 : EncByte
  pv3 : EncByte
  pv4 : EncByte
  pv5 : EncByte
  pv6 : EncByte
  pv7 : EncByte
  pvz : EncByte
  deriving DecidableEq, Repr

/-- One entry of the fault history (60_exceptions.md R207): the executor, the command word, the cause and the detail. -/
structure FaultRecord where
  executor : Nat
  word : Word
  cause : Cause
  detail : Nat
  deriving DecidableEq, Repr

/-- A result returned to the host: the executor, the command word and the result (70_reset_and_hazards.md R244). -/
structure Reply where
  executor : Nat
  word : Word
  result : Payload
  deriving DecidableEq, Repr

/-- The state held once by each executor (10_state.md R20). -/
structure Inst where
  /-- The wire file (R21): the present wires and their values, wire numbers strictly rising. -/
  wires : List (Nat × EncBit)
  /-- `NEXT`, the claim counter (R26). -/
  next : BitVec 32
  /-- The worker states (R27). -/
  workers : List Worker
  /-- `BUSY` (R36). -/
  busy : Bool
  /-- `CMD`: the running command's word (R36). -/
  cmd : Word
  /-- `SLOT` (R36). -/
  slot : Nat
  /-- `N_IN` (R36). -/
  nIn : Nat
  /-- `N` (R36). -/
  n : Nat
  /-- `N_OUT` (R36). -/
  nOut : Nat
  /-- `STATUS`: CAUSE 7:0, DETAIL 31:8 (R30). -/
  status : Word
  /-- The sequencer's next step while `BUSY = 1` (41_executor.md R120). -/
  phase : Phase
  /-- The running command's payload, copied at acceptance (70_reset_and_hazards.md R242). -/
  args : Payload
  /-- The encrypted bits one phase hands to the next: EXEC's inputs, then its outputs (43_sbox.md R172). -/
  bits : List EncBit
  /-- The result to be returned when `BUSY` goes to 0. -/
  result : Payload
  /-- The commands held at this executor's port, the earliest first (30_encoding.md R87, notes/assumptions/11.md). -/
  port : List Command
  deriving DecidableEq, Repr

/-- The state of the block. -/
structure State where
  /-- `CONFIG` (10_state.md R32) with the other parameters of 00_scope.md R7, the ROM among them (R49): hardwired, no step changes it
  (notes/assumptions/4.md). -/
  config : Params
  /-- `PV_VALID` (R31). -/
  pvValid : Bool
  /-- The position-value table (R34). -/
  pv : PvTable
  /-- The images in the user slots of the program store (R35), slot numbers strictly rising. -/
  slots : List (Nat × List Word)
  /-- `SLOT_VALID` (R33); its hardwired bits are forced where it is read. -/
  slotValid : Word
  /-- The executors `0 .. N_INST-1` (R20). -/
  insts : List Inst
  /-- The fault history, the earliest first (60_exceptions.md R207). -/
  faults : List FaultRecord
  /-- The MODEL's own: the results returned to the host so far, the earliest first (notes/assumptions/12.md). -/
  replies : List Reply
  /-- The MODEL's own: the moves that come next; when it is empty, `Config.nextMove` says (notes/assumptions/5.md). -/
  plan : List Move
  /-- The MODEL's own: one more at every step, the argument of the free values `Config.nextMove` and `Config.drawnEngine`
  (notes/assumptions/5.md, notes/assumptions/3.md). -/
  tick : Nat
  deriving DecidableEq, Repr

/-- Why a step stops. Each is a stuck state that no run from reset meets (notes/assumptions/17.md). -/
inductive Fault where
  /-- Raised by every meaning when the agent whose move it is does not hold the instruction: a gate without a worker that has
  claimed it in a running EXEC, a command without a sequencer that has it at its port or is running it. Safe: `step` never
  hands an instruction to an agent that does not hold it. -/
  | notHeld
  /-- Raised by the gates when the destination `N_IN + k` is no wire of the wire file (10_state.md R21). Safe: the
  construction check keeps `N_IN + N` at most 32768 (30_encoding.md R74). -/
  | wireOutOfRange (wire : Nat)
  /-- Raised by EXEC, SBOX, INVSBOX and MIXCOL when an output selector names a wire that is absent at the join: "The hardware
  never performs a read of an absent wire" (00_scope.md R11). Safe: at the join every wire below `N_IN + N` is present (R128). -/
  | wireAbsent (wire : Nat)
  /-- Raised by a worker's step when the image word it fetched is no gate word: "`OP = 11` cannot occur, because the
  construction check refused it" (41_executor.md R126). Safe. -/
  | illegalGateWord (word : Word)
  deriving DecidableEq, Repr

/-- Why an instruction has no outcome in the model. -/
inductive Refusal where
  /-- Raised by an arm of `exec` whose instruction has no meaning yet; no arm does. Safe. -/
  | notModelled (mnemonic : String)
  deriving DecidableEq, Repr

/-- The outcome of a step of this machine. -/
abbrev Outcome := Host.Outcome State Fault Refusal

/-- The table before LOAD_PV: the spec gives "no value" (10_state.md R48). DESIGN CHOICE: code 0 (notes/assumptions/6.md);
no command reads it while `PV_VALID = 0`. -/
def PvTable.unloaded : PvTable := ⟨⟨0⟩, ⟨0⟩, ⟨0⟩, ⟨0⟩, ⟨0⟩, ⟨0⟩, ⟨0⟩, ⟨0⟩, ⟨0⟩⟩

/-- An executor with `w` workers after reset (10_state.md R48). `CMD`, `SLOT`, `N_IN`, `N`, `N_OUT` and the phase registers
are unspecified there. DESIGN CHOICE: 0, `start` and empty (notes/assumptions/7.md). -/
def Inst.reset (w : Nat) : Inst where
  wires := []
  next := 0
  workers := List.replicate w .idle
  busy := false
  cmd := 0
  slot := 0
  nIn := 0
  n := 0
  nOut := 0
  status := 0
  phase := .start
  args := []
  bits := []
  result := []
  port := []

/-- The block after reset, for the parameters `p` (10_state.md R48). The first executor is written apart: `N_INST` is at
least 1 (00_scope.md R7). -/
def State.resetWith (p : Params) : State where
  config := p
  pvValid := false
  pv := PvTable.unloaded
  slots := []
  slotValid := 7
  insts := Inst.reset p.w :: List.replicate (p.nInst - 1) (Inst.reset p.w)
  faults := []
  replies := []
  plan := []
  tick := 0

/-- The block after reset, for the parameters of the implementation, of which only their bounds are known. -/
def State.reset : State := State.resetWith Config.params

end Sys2Proof.Machine
end

