-- ==== Sys2Proof/Machine/Flags.lean ====
section
/-! DEFINITION. The status words: cause codes (60_exceptions.md R201), `STATUS` (10_state.md R30), `PV_STATE` (R31), `CONFIG`
(R32) and `SLOT_VALID` with its hardwired bits (R33). The block has no condition codes (R28). -/

namespace Sys2Proof.Machine

/-- The code of a cause (60_exceptions.md R201). -/
def Cause.code : Cause → BitVec 8
  | .ok => 0x00
  | .ceUnknownOperator => 0x01
  | .ceDanglingOperand => 0x02
  | .ceMissingOutput => 0x03
  | .ceReservedNonzero => 0x04
  | .ceDuplicateName => 0x05
  | .ceSize => 0x06
  | .ceRomSlot => 0x07
  | .pvInputCount => 0x10
  | .pvNoTable => 0x11
  | .pvNoProgram => 0x12
  | .pvTableLocked => 0x13
  | .pvBadSlot => 0x14
  | .pvUnknownCommand => 0x15
  | .engineFailure => 0x20

/-- The kind "construction" (60_exceptions.md R200, R201). -/
def Cause.isConstruction : Cause → Bool
  | .ceUnknownOperator | .ceDanglingOperand | .ceMissingOutput | .ceReservedNonzero | .ceDuplicateName | .ceSize
  | .ceRomSlot => true
  | .ok | .pvInputCount | .pvNoTable | .pvNoProgram | .pvTableLocked | .pvBadSlot | .pvUnknownCommand
  | .engineFailure => false

/-- A DETAIL value, saturated at 0xFFFFFF (60_exceptions.md R201, PV_INPUT_COUNT). -/
def saturateDetail (d : Nat) : Nat := if d ≤ 0xFFFFFF then d else 0xFFFFFF

/-- The `STATUS` word: CAUSE in bits 7:0, DETAIL in bits 31:8 (10_state.md R30). -/
def statusWord (c : Cause) (detail : Nat) : Word :=
  (BitVec.ofNat 24 (saturateDetail detail)) ++ c.code

/-- `STATUS.CAUSE` (10_state.md R30). -/
def statusCause (w : Word) : BitVec 8 := w.extractLsb' 0 8

/-- `STATUS.DETAIL` (10_state.md R30). -/
def statusDetail (w : Word) : BitVec 24 := w.extractLsb' 8 24

/-- `PV_STATE`: `PV_VALID` in bit 0, the other bits 0 (10_state.md R31). -/
def State.pvStateWord (s : State) : Word := if s.pvValid then 1 else 0

/-- `CONFIG`: `W` in bits 7:0, `N_USER` in 15:8, `N_INST` in 23:16, the other bits 0 (10_state.md R32). -/
def configWord (p : Params) : Word :=
  (0 : BitVec 8) ++ BitVec.ofNat 8 p.nInst ++ BitVec.ofNat 8 p.nUser ++ BitVec.ofNat 8 p.w

/-- The slots that exist, `0 .. 2 + N_USER`, as bits (10_state.md R35). -/
def slotMask (p : Params) : Word := BitVec.ofNat 32 (2 ^ (p.nUser + 3) - 1)

/-- `SLOT_VALID` as it reads: bits 0, 1 and 2 hardwired to 1, bits `≥ 3 + N_USER` hardwired to 0 (10_state.md R33). -/
def State.slotValidWord (s : State) : Word := (s.slotValid ||| 7) &&& slotMask s.config

/-- `SLOT_VALID[sel] = 1`: bit `sel` of `State.slotValidWord` (10_state.md R33). -/
def State.slotOk (s : State) (sel : Nat) : Bool :=
  decide (sel ≤ 2) || (s.slotValid.getLsbD sel && decide (sel < s.config.nUser + 3))

/-- `SLOT_VALID[sel] <- 1` (41_executor.md R140). -/
def setSlotBit (w : Word) (sel : Nat) : Word := w ||| BitVec.ofNat 32 (2 ^ sel)

/-- `SLOT_VALID[sel] <- 0` (60_exceptions.md R205). -/
def clearSlotBit (w : Word) (sel : Nat) : Word := w &&& ~~~ BitVec.ofNat 32 (2 ^ sel)

end Sys2Proof.Machine
end

