-- ==== Sys2Proof/Machine/Ops.lean ====
section
/-! DEFINITION. The named operations every meaning is built from: the numbered stores (wire file and program store), the image of
a slot, the acting agent (00_scope.md R18), an engine call (R13), raising a cause (60_exceptions.md R205), completing a
command (30_encoding.md R87), and reset (70_reset_and_hazards.md R230). -/

namespace Sys2Proof.Machine

/-- The content of number `i`, if it is listed. -/
def cellGet {α : Type} : List (Nat × α) → Nat → Option α
  | [], _ => none
  | (j, v) :: rest, i => if j = i then some v else cellGet rest i

/-- The store with `v` at number `i`, numbers kept rising. -/
def cellPut {α : Type} : List (Nat × α) → Nat → α → List (Nat × α)
  | [], i, v => [(i, v)]
  | (j, u) :: rest, i, v =>
    if i < j then (i, v) :: (j, u) :: rest
    else if i = j then (i, v) :: rest
    else (j, u) :: cellPut rest i v

/-- Numbers strictly rise: the one canonical form of a store. -/
def cellsRising {α : Type} : List (Nat × α) → Bool
  | [] => true
  | (j, _) :: rest => rest.all (fun c => decide (j < c.1)) && cellsRising rest

/-- Every store of the block is in canonical form, and every listed wire is one of the wire file (10_state.md R21). -/
def Memory.wf (s : State) : Bool :=
  cellsRising s.slots &&
    s.insts.all (fun u => cellsRising u.wires && u.wires.all (fun c => decide (c.1 < maxWires)))

/-- `present[i]` (10_state.md R21). -/
def Inst.present (u : Inst) (i : Nat) : Bool := (cellGet u.wires i).isSome

/-- Wires `i, i+1, ...` holding the listed bits. -/
def wiresFrom (i : Nat) : List EncBit → List (Nat × EncBit)
  | [] => []
  | b :: rest => (i, b) :: wiresFrom (i + 1) rest

/-- The image of a slot: the ROM programs in slots 0 to 2 (10_state.md R49), else what LOAD_PROG wrote (R35); a slot that nothing
has loaded is empty (notes/assumptions/8.md). -/
def State.image (s : State) (slot : Nat) : List Word :=
  match slot with
  | 0 => s.config.rom.sboxFwd
  | 1 => s.config.rom.sboxInv
  | 2 => s.config.rom.mixcol
  | k + 3 => (cellGet s.slots (k + 3)).getD []

/-- The agent that takes this step, with what the host does if it is the host (41_executor.md R127). -/
def State.acting (s : State) : Move :=
  match s.plan with
  | m :: _ => m
  | [] => Config.nextMove s.tick

/-- The engine as it answers call `j` of the step at hand: always alike when it is deterministic, and else as it is drawn for that
call (10_state.md R46, notes/assumptions/3.md). -/
def State.call (s : State) (j : Nat) : Engine :=
  if s.config.deterministic then Config.engine else Config.drawnEngine s.tick j

/-- The state with executor `q` replaced. -/
def State.setInst (s : State) (q : Nat) (u : Inst) : State := { s with insts := s.insts.set q u }

/-- One step has been taken: the next move is the next one of the plan. -/
def State.advance (s : State) : State := { s with plan := s.plan.tail, tick := s.tick + 1 }

/-- `SLOT_VALID` after cause `c` is raised: a construction cause other than CE_ROM_SLOT of a LOAD_PROG to `sel` clears bit
`sel` (60_exceptions.md R205). `loading` is `SEL` for LOAD_PROG, and none for every other command. -/
def slotValidAfter (slotValid : Word) (c : Cause) (loading : Option Nat) : Word :=
  match loading with
  | some sel => if c.isConstruction && c != .ceRomSlot then clearSlotBit slotValid sel else slotValid
  | none => slotValid

/-- RAISING A CAUSE, the analogue of trap entry (60_exceptions.md R205): `STATUS` is written, `BUSY <- 0`, no result is
returned, and the history records the fault (R207). `u` is executor `q`'s record with the command taken from its port. -/
def raise (s : State) (q : Nat) (u : Inst) (word : Word) (c : Cause) (detail : Nat) (loading : Option Nat := none) : State :=
  { s with
    insts := s.insts.set q { u with status := statusWord c detail, busy := false }
    slotValid := slotValidAfter s.slotValid c loading
    faults := s.faults ++ [⟨q, word, c, saturateDetail detail⟩] }

/-- Return a result and leave the executor idle, `STATUS` as it is (60_exceptions.md R215; 41_executor.md R120 phase 6). -/
def giveBack (s : State) (q : Nat) (u : Inst) (word : Word) (result : Payload) : State :=
  { s with
    insts := s.insts.set q { u with busy := false }
    replies := s.replies ++ [⟨q, word, result⟩] }

/-- Complete a command that runs in one step: `STATUS.CAUSE <- 0x00`, `STATUS.DETAIL <- 0` (60_exceptions.md R204), `BUSY <- 0`,
and the result is returned (30_encoding.md R87). -/
def complete (s : State) (q : Nat) (u : Inst) (word : Word) (result : Payload) : State :=
  giveBack s q { u with status := statusWord .ok 0 } word result

/-- A step of the sequencer that has the move; a fault if no sequencer has it. -/
def onSequencer (s : State) (f : Nat → Inst → Outcome) : Outcome :=
  match s.acting with
  | .seq q =>
    match s.insts[q]? with
    | some u => f q u
    | none => .fault .notHeld
  | _ => .fault .notHeld

/-- Accept the first command at the port of the idle executor that has the move (30_encoding.md R87). The record handed on is
the executor's with the command taken from its port. -/
def onPort (s : State) (f : Nat → Inst → Command → State) : Outcome :=
  onSequencer s fun q u =>
    match u.busy, u.port with
    | false, c :: rest => .next (f q { u with port := rest } c)
    | _, _ => .fault .notHeld

/-- Reset (70_reset_and_hazards.md R230, 10_state.md R48). The history stays (60_exceptions.md R207), and so do the model's
own fields; commands waiting at a port are dropped (DESIGN CHOICE, notes/assumptions/11.md). -/
def State.restart (s : State) : State :=
  { State.resetWith s.config with faults := s.faults, replies := s.replies, plan := s.plan, tick := s.tick }

end Sys2Proof.Machine
end

