-- ==== Sys2Proof/Machine/Operands.lean ====
section
/-! DEFINITION. Operand forms: payloads of bits, bytes or words (30_encoding.md R84, R85), the nine constants (10_state.md R34), and the codec's two operations (42_codec.md R152, R155) with the bundle layout
(20_memory.md R52). -/

namespace Sys2Proof.Machine

/-- The payload as encrypted bits, if every element is one (30_encoding.md R85). -/
def bitsOf : Payload → Option (List EncBit)
  | [] => some []
  | .bit b :: rest => (bitsOf rest).map (b :: ·)
  | .byte _ :: _ => none
  | .word _ :: _ => none

/-- The payload as encrypted bytes, if every element is one. -/
def bytesOf : Payload → Option (List EncByte)
  | [] => some []
  | .byte b :: rest => (bytesOf rest).map (b :: ·)
  | .bit _ :: _ => none
  | .word _ :: _ => none

/-- The payload as 32-bit words, if every element is one. -/
def wordsOf : Payload → Option (List Word)
  | [] => some []
  | .word w :: rest => (wordsOf rest).map (w :: ·)
  | .bit _ :: _ => none
  | .byte _ :: _ => none

/-- `PV[0] .. PV[7]` in order (10_state.md R34). -/
def PvTable.powers (t : PvTable) : List EncByte := [t.pv0, t.pv1, t.pv2, t.pv3, t.pv4, t.pv5, t.pv6, t.pv7]

/-- The table of nine ciphertexts in the order `PV[0..7]`, `PVZ` (42_codec.md R150). -/
def tableOf : List EncByte → Option PvTable
  | [c0, c1, c2, c3, c4, c5, c6, c7, c8] => some ⟨c0, c1, c2, c3, c4, c5, c6, c7, c8⟩
  | _ => none

/-- DECOMPOSE's bit for the constant `p`: `E.byte_equal(E.byte_and(p, b), p)` (42_codec.md R152); the first engine answers the
`byte_and`, the second the `byte_equal`. -/
def maskBit (E F : Engine) (p b : EncByte) : EncBit := F.byteEqual (E.byteAnd p b) p

/-- `DECOMPOSE(b)`: bit `i` tests the constant `PV[i]` (42_codec.md R152, 20_memory.md R51). Its 16 calls (R154) are answered by
`E 0` to `E 15`. DESIGN CHOICE: on a table that breaks the position-value duty the result is the same calls on that table, where
93_implementation_defined.md I20 allows any value (notes/assumptions/22.md). -/
def decomposeByte (E : Nat → Engine) (t : PvTable) (b : EncByte) : List EncBit :=
  t.powers.mapIdx (fun i p => maskBit (E (2 * i)) (E (2 * i + 1)) p b)

/-- `DECOMPOSE(a[0]) ++ DECOMPOSE(a[1]) ++ ...`: byte `j`'s bit `k` at place `8j + k` (20_memory.md R52). -/
def decomposeAll (E : Nat → Engine) (t : PvTable) (bytes : List EncByte) : List EncBit :=
  (bytes.mapIdx (fun j b => decomposeByte (fun i => E (16 * j + i)) t b)).flatten

/-- RECOMPOSE's select for the constant `p`: `E.select(bit, p, PVZ)` (42_codec.md R155). -/
def selectPower (E : Engine) (t : PvTable) (b : EncBit) (p : EncByte) : EncByte := E.select b p t.pvz

/-- `RECOMPOSE(bit[0..7])`: eight selects and the fixed balanced tree of seven ORs (42_codec.md R155, R156), answered by `E 0` to
`E 14`. DESIGN CHOICE: on a table that breaks the position-value duty the result is the same calls on that table, where
93_implementation_defined.md I20 allows any value (notes/assumptions/22.md). -/
def recomposeBits (E : Nat → Engine) (t : PvTable) (b0 b1 b2 b3 b4 b5 b6 b7 : EncBit) : EncByte :=
  let r01 := (E 8).byteOr (selectPower (E 0) t b0 t.pv0) (selectPower (E 1) t b1 t.pv1)
  let r23 := (E 9).byteOr (selectPower (E 2) t b2 t.pv2) (selectPower (E 3) t b3 t.pv3)
  let r45 := (E 10).byteOr (selectPower (E 4) t b4 t.pv4) (selectPower (E 5) t b5 t.pv5)
  let r67 := (E 11).byteOr (selectPower (E 6) t b6 t.pv6) (selectPower (E 7) t b7 t.pv7)
  let r03 := (E 12).byteOr r01 r23
  let r47 := (E 13).byteOr r45 r67
  (E 14).byteOr r03 r47

/-- RECOMPOSE of each whole group of eight bits, in order, 15 calls each (20_memory.md R52, 44_mixcolumns.md R192). -/
def recomposeAll (E : Nat → Engine) (t : PvTable) : List EncBit → List EncByte
  | b0 :: b1 :: b2 :: b3 :: b4 :: b5 :: b6 :: b7 :: rest =>
    recomposeBits E t b0 b1 b2 b3 b4 b5 b6 b7 :: recomposeAll (fun i => E (i + 15)) t rest
  | _ => []

end Sys2Proof.Machine
end

