-- ==== Sys2Proof/Machine/Gates.lean ====
section
/-! DEFINITION. The gates XOR, AND and NOT (40_gates.md R100 to R102), as the evaluate step of the worker that has claimed
them (41_executor.md R125, R126). -/

namespace Sys2Proof.Machine

/-- The executor runs the worker phase of an EXEC (41_executor.md R120 phase 3). -/
def Inst.running (u : Inst) : Bool := u.busy && u.phase == .run

/-- The evaluate step of worker `w`, which has claimed gate `k` and found the value `v`: `x[N_IN + k] <- v` and the worker is
idle, in one atomic step (41_executor.md R126). -/
def Inst.evaluate (u : Inst) (w k : Nat) (v : EncBit) : Inst :=
  { u with wires := cellPut u.wires (u.nIn + k) v, workers := u.workers.set w .idle }

/-- One step of the worker that has the move and holds a gate whose value, once its operands are present, is `value`. While
an operand is absent the worker holds: it polls and nothing changes (41_executor.md R125, notes/assumptions/19.md). -/
def onWorker (s : State) (value : Inst → Option EncBit) : Outcome :=
  match s.acting with
  | .worker q w =>
    match s.insts[q]? with
    | some u =>
      match u.running, u.workers[w]? with
      | true, some (.claimed k) =>
        match value u with
        | none => .next s
        | some v =>
          if u.nIn + k < maxWires then .next (s.setInst q (u.evaluate w k v)) else .fault (.wireOutOfRange (u.nIn + k))
      | _, _ => .fault .notHeld
    | none => .fault .notHeld
  | _ => .fault .notHeld

/-- The result of a two-operand gate: none while either operand is absent (41_executor.md R125). -/
def binaryGate (f : EncBit → EncBit → EncBit) (s1 s2 : Nat) (u : Inst) : Option EncBit :=
  match cellGet u.wires s1, cellGet u.wires s2 with
  | some a, some b => some (f a b)
  | _, _ => none

/-- The result of a one-operand gate: none while its operand is absent (40_gates.md R102). -/
def unaryGate (f : EncBit → EncBit) (s1 : Nat) (u : Inst) : Option EncBit :=
  match cellGet u.wires s1 with
  | some a => some (f a)
  | none => none

/-- XOR (40_gates.md R100): `x[d] <- E.bit_xor(x[a], x[b])`. -/
def execXor (s1 s2 : Nat) (s : State) : Outcome := onWorker s (binaryGate (s.call 0).bitXor s1 s2)

/-- AND (40_gates.md R101): `x[d] <- E.bit_and(x[a], x[b])`. -/
def execAnd (s1 s2 : Nat) (s : State) : Outcome := onWorker s (binaryGate (s.call 0).bitAnd s1 s2)

/-- NOT (40_gates.md R102): `x[d] <- E.bit_not(x[a])`. -/
def execNot (s1 : Nat) (s : State) : Outcome := onWorker s (unaryGate (s.call 0).bitNot s1)

end Sys2Proof.Machine
end

