-- ==== Sys2Proof/Machine/Executor.lean ====
section
/-! DEFINITION. The circuit executor: the phases of EXEC (41_executor.md R120 to R129), the claim step (R123) and LOAD_PROG
(R140). -/

namespace Sys2Proof.Machine

/-- Phase 2, the start phase: the wire file is cleared and holds the inputs, `NEXT` is 0 and every worker is idle (R122). -/
def Inst.startRun (u : Inst) (workers : Nat) : Inst :=
  { u with
    wires := wiresFrom 0 u.bits
    next := 0
    workers := List.replicate workers .idle
    phase := .run }

/-- The claim step of idle worker `w`: fetch and increment `NEXT`, then hold that gate, or exit past the last (R123). -/
def Inst.claim (u : Inst) (w : Nat) : Inst :=
  { u with
    next := u.next + 1
    workers := u.workers.set w (if u.n ≤ u.next.toNat then .exited else .claimed u.next.toNat) }

/-- The join: every worker has exited (R128). -/
def Inst.joined (u : Inst) : Bool := u.workers.all (fun w => w == .exited)

/-- The values of the wires the listed selectors name, or the first absent one (R129). -/
def selectOutputs (wires : List (Nat × EncBit)) : List Nat → Except Nat (List EncBit)
  | [] => .ok []
  | o :: rest =>
    match cellGet wires o with
    | none => .error o
    | some b =>
      match selectOutputs wires rest with
      | .ok bs => .ok (b :: bs)
      | .error e => .error e

/-- Phase 4, the output copy: `out[j] <- x[OSEL[j]]` (R129). -/
def Inst.outputs (u : Inst) (img : List Word) : Except Nat (List EncBit) :=
  selectOutputs u.wires ((List.range u.nOut).map (imageSelector img u.n))

/-- Copy `N_IN`, `N` and `N_OUT` from the slot's image (R121, 10_state.md R36). -/
def Inst.copyHeader (u : Inst) (img : List Word) : Inst :=
  { u with nIn := imageNIn img, n := imageN img, nOut := imageNOut img }

/-- The phases that EXEC, SBOX, INVSBOX and MIXCOL have in common, of an executor that is busy with one of them. `afterCopy`
says where the output bits go: EXEC returns them, a composite command recomposes them (R120, 43_sbox.md R172). -/
def runPhase (s : State) (q : Nat) (u : Inst) (afterCopy : Inst → Inst) : Outcome :=
  match u.phase with
  | .decompose =>
    .next (s.setInst q
      { u.copyHeader (s.image u.slot) with
        bits := decomposeAll s.call s.pv ((bytesOf u.args).getD [])
        phase := .start })
  | .start => .next (s.setInst q (u.startRun s.config.w))
  | .run =>
    if u.joined then
      match u.outputs (s.image u.slot) with
      | .ok outs => .next (s.setInst q (afterCopy { u with bits := outs }))
      | .error i => .fault (.wireAbsent i)
    else .next s
  | .recompose =>
    .next (s.setInst q { u with result := (recomposeAll s.call s.pv u.bits).map .byte, phase := .status })
  | .status => .next (s.setInst q { u with status := statusWord .ok 0, phase := .release })
  | .release => .next (giveBack s q u u.cmd u.result)

/-- Where EXEC's outputs go: they are its result (R121). -/
def Inst.bitsAreResult (u : Inst) : Inst := { u with result := u.bits.map .bit, phase := .status }

/-- Admission of EXEC (R121): PV_BAD_SLOT, PV_NO_PROGRAM, PV_INPUT_COUNT in that order, else the command is accepted and the
start phase comes next. -/
def admitExec (sel : Nat) (s : State) (q : Nat) (u : Inst) (c : Command) : State :=
  if s.config.nUser + 3 ≤ sel then raise s q u c.word .pvBadSlot sel
  else if s.slotOk sel then
    match bitsOf c.payload with
    | some bits =>
      if bits.length = imageNIn (s.image sel) then
        s.setInst q
          { u.copyHeader (s.image sel) with
            busy := true, cmd := c.word, slot := sel, args := c.payload, bits := bits, phase := .start }
      else raise s q u c.word .pvInputCount c.payload.length
    | none => raise s q u c.word .pvInputCount c.payload.length
  else raise s q u c.word .pvNoProgram sel

/-- A step of the sequencer for a command that takes several: admission while the executor is idle, then its phases. -/
def onPhases (s : State) (admission : State → Nat → Inst → Command → State) (afterCopy : Inst → Inst) : Outcome :=
  onSequencer s fun q u =>
    match u.busy, u.port with
    | true, _ => runPhase s q u afterCopy
    | false, c :: rest => .next (admission s q { u with port := rest } c)
    | false, [] => .fault .notHeld

/-- EXEC (R120, R121): the sequencer's next step for it. -/
def execExec (sel : Nat) (s : State) : Outcome := onPhases s (admitExec sel) Inst.bitsAreResult

/-- Some executor has `BUSY = 1` and `SLOT = sel` (20_memory.md R57). -/
def State.slotRunning (s : State) (sel : Nat) : Bool := s.insts.any (fun u => u.busy && u.slot == sel)

/-- `MemWrite` of a whole image into user slot `sel`, and `SLOT_VALID[sel] <- 1` (R140). -/
def State.storeImage (s : State) (sel : Nat) (img : List Word) : State :=
  { s with slots := cellPut s.slots sel img, slotValid := setSlotBit s.slotValid sel }

/-- LOAD_PROG (R140). While some executor runs the slot, the command stays at the port and nothing changes (20_memory.md R57,
notes/assumptions/10.md). -/
def execLoadProg (sel : Nat) (s : State) : Outcome :=
  onPort s fun q u c =>
    if s.config.nUser + 3 ≤ sel then raise s q u c.word .pvBadSlot sel
    else if sel ≤ 2 then raise s q u c.word .ceRomSlot sel (some sel)
    else if s.slotRunning sel then s
    else
      match wordsOf c.payload with
      | none => raise s q u c.word .pvInputCount c.payload.length (some sel)
      | some img =>
        match check img with
        | some (cause, detail) => raise s q u c.word cause detail (some sel)
        | none => complete (s.storeImage sel img) q u c.word []

end Sys2Proof.Machine
end

