-- ==== Sys2Proof/Machine/Circuits.lean ====
section
/-! DEFINITION. The composite commands SBOX, INVSBOX (43_sbox.md R172, R175) and MIXCOL (44_mixcolumns.md R192): DECOMPOSE, EXEC
of ROM slot 0, 1 or 2, RECOMPOSE (30_encoding.md R91), with `STATUS` written once, at the end. -/

namespace Sys2Proof.Machine

/-- Admission of a composite command on `count` encrypted bytes that runs ROM slot `slot`: PV_NO_TABLE, then PV_INPUT_COUNT,
else the command is accepted and its DECOMPOSE comes next (43_sbox.md R172). -/
def admitComposite (slot count : Nat) (s : State) (q : Nat) (u : Inst) (c : Command) : State :=
  if s.pvValid then
    match bytesOf c.payload with
    | some bytes =>
      if bytes.length = count then
        s.setInst q { u with busy := true, cmd := c.word, slot := slot, args := c.payload, phase := .decompose }
      else raise s q u c.word .pvInputCount c.payload.length
    | none => raise s q u c.word .pvInputCount c.payload.length
  else raise s q u c.word .pvNoTable 0

/-- Where the outputs of the inner EXEC go: to RECOMPOSE (43_sbox.md R172). -/
def Inst.bitsAreRecomposed (u : Inst) : Inst := { u with phase := .recompose }

/-- SBOX (43_sbox.md R172): the sequencer's next step for it. -/
def execSbox (s : State) : Outcome := onPhases s (admitComposite 0 1) Inst.bitsAreRecomposed

/-- INVSBOX (43_sbox.md R175): the sequencer's next step for it. -/
def execInvsbox (s : State) : Outcome := onPhases s (admitComposite 1 1) Inst.bitsAreRecomposed

/-- MIXCOL (44_mixcolumns.md R192): the sequencer's next step for it. -/
def execMixcol (s : State) : Outcome := onPhases s (admitComposite 2 4) Inst.bitsAreRecomposed

end Sys2Proof.Machine
end

