-- ==== Sys2Proof/Machine/Codec.lean ====
section
/-! DEFINITION. The bit codec's commands LOAD_PV, DECOMPOSE and RECOMPOSE (42_codec.md R150, R152, R155), each one step of the
sequencer that accepts it (notes/assumptions/9.md). -/

namespace Sys2Proof.Machine

/-- LOAD_PV (42_codec.md R150). It takes any nine ciphertexts: the block cannot check the position-value duty. What the codec answers
on a table that breaks it is said at `decomposeByte` and `recomposeBits` (notes/assumptions/22.md). -/
def execLoadPv (s : State) : Outcome :=
  onPort s fun q u c =>
    if s.pvValid then raise s q u c.word .pvTableLocked 0
    else
      match (bytesOf c.payload).bind tableOf with
      | some t => complete { s with pv := t, pvValid := true } q u c.word []
      | none => raise s q u c.word .pvInputCount c.payload.length

/-- DECOMPOSE (42_codec.md R152). -/
def execDecompose (s : State) : Outcome :=
  onPort s fun q u c =>
    if s.pvValid then
      match bytesOf c.payload with
      | some [b] => complete s q u c.word ((decomposeByte s.call s.pv b).map .bit)
      | _ => raise s q u c.word .pvInputCount c.payload.length
    else raise s q u c.word .pvNoTable 0

/-- RECOMPOSE (42_codec.md R155). -/
def execRecompose (s : State) : Outcome :=
  onPort s fun q u c =>
    if s.pvValid then
      match bitsOf c.payload with
      | some [b0, b1, b2, b3, b4, b5, b6, b7] =>
        complete s q u c.word [.byte (recomposeBits s.call s.pv b0 b1 b2 b3 b4 b5 b6 b7)]
      | _ => raise s q u c.word .pvInputCount c.payload.length
    else raise s q u c.word .pvNoTable 0

end Sys2Proof.Machine
end

