-- ==== Sys2Proof/Machine/Registers.lean ====
section
/-! DEFINITION. READ_REG (60_exceptions.md R215) and the register map (10_state.md R29). -/

namespace Sys2Proof.Machine

/-- What register `r` reads on the executor `u`: STATUS, PV_STATE, CONFIG, SLOT_VALID, and 0 for every other number
(10_state.md R29, 60_exceptions.md R215). -/
def State.register (s : State) (u : Inst) (r : Nat) : Word :=
  match r with
  | 0 => u.status
  | 1 => s.pvStateWord
  | 2 => configWord s.config
  | 3 => s.slotValidWord
  | _ => 0

/-- READ_REG (60_exceptions.md R215): `STATUS` is not written, except by the fault of a payload that is not empty. -/
def execReadReg (sel : Nat) (s : State) : Outcome :=
  onPort s fun q u c =>
    match c.payload with
    | [] => giveBack s q u c.word [.word (s.register u sel)]
    | _ :: _ => raise s q u c.word .pvInputCount c.payload.length

end Sys2Proof.Machine
end

