-- ==== Sys2Proof/Machine/Control.lean ====
section
/-! DEFINITION. What the agent that has the move does (00_scope.md R18): the instruction it holds, fetched and decoded
(41_executor.md R124, 30_encoding.md R84), or a step that runs no instruction: a claim (R123), the refusal of an illegal command
word (30_encoding.md R86), a move of the host (70_reset_and_hazards.md R242). -/

namespace Sys2Proof.Machine

/-- The next step of the agent that has the move. -/
inductive Fetched where
  /-- It holds the instruction `i`: `exec i` is its step. -/
  | instr (i : Instr)
  /-- It takes a step that runs no instruction, to the state `t`. -/
  | control (t : State)
  /-- It is a worker whose image word is no gate word. -/
  | illegal (w : Word)
  deriving DecidableEq, Repr

/-- The command word a sequencer works on: the running command's, or that of the first command at its port (30_encoding.md
R87); none when it is idle and its port is empty. -/
def Inst.commandWord? (u : Inst) : Option Word :=
  match u.busy, u.port with
  | true, _ => some u.cmd
  | false, c :: _ => some c.word
  | false, [] => none

/-- PV_UNKNOWN_COMMAND for the command at the port: DETAIL is the `OPC` field (30_encoding.md R86, 60_exceptions.md R201). -/
def refuseCommand (s : State) (q : Nat) (u : Inst) (w : Word) : State :=
  raise s q { u with port := u.port.tail } w .pvUnknownCommand (commandOpc w)

/-- The host's move (70_reset_and_hazards.md R242): a command goes to the port of the executor it is issued to; a reset is
taken only while every executor is idle (R230); a move the block has no place for changes nothing (R243). -/
def hostStep (s : State) (h : HostMove) : State :=
  match h with
  | .issue q c =>
    match s.insts[q]? with
    | some u => s.setInst q { u with port := u.port ++ [c] }
    | none => s
  | .reset => if s.insts.all (fun u => !u.busy) then s.restart else s
  | .quiet => s

/-- The sequencer of executor `q`: the command it works on, decoded (30_encoding.md R84 to R87). -/
def fetchSequencer (s : State) (q : Nat) : Fetched :=
  match s.insts[q]? with
  | none => .control s
  | some u =>
    match u.commandWord? with
    | none => .control s
    | some w =>
      match decodeCommand w with
      | .instr i => .instr i
      | .refused _ => .control (refuseCommand s q u w)

/-- Worker `w` of executor `q`: outside the worker phase it takes no step, idle it claims (41_executor.md R123), with a claimed
gate it works on the image word (R124), and exited it does nothing more. -/
def fetchWorker (s : State) (q w : Nat) : Fetched :=
  match s.insts[q]? with
  | none => .control s
  | some u =>
    match u.running, u.workers[w]? with
    | true, some .idle => .control (s.setInst q (u.claim w))
    | true, some (.claimed k) =>
      match decodeGate (imageGate (s.image u.slot) k) with
      | .instr i => .instr i
      | .refused _ => .illegal (imageGate (s.image u.slot) k)
    | _, _ => .control s

/-- What the agent that has the move does next. An agent with nothing to do leaves the state unchanged. -/
def fetch (s : State) : Fetched :=
  match s.acting with
  | .host h => .control (hostStep s h)
  | .seq q => fetchSequencer s q
  | .worker q w => fetchWorker s q w

/-- A payload of the length and element type a command takes, every ciphertext code and word 0, and for LOAD_PROG the
smallest legal image (30_encoding.md R85, R73); used to place a command. -/
def placedPayload (s : State) (i : Instr) : Payload :=
  match i with
  | .loadPv => List.replicate 9 (.byte ⟨0⟩)
  | .decompose => [.byte ⟨0⟩]
  | .recompose => List.replicate 8 (.bit ⟨0⟩)
  | .loadProg _ => [.word 1, .word 0, .word 1, .word 0]
  | .exec sel => List.replicate (imageNIn (s.image sel)) (.bit ⟨0⟩)
  | .sbox => [.byte ⟨0⟩]
  | .invsbox => [.byte ⟨0⟩]
  | .mixcol => List.replicate 4 (.byte ⟨0⟩)
  | .readReg _ => []
  | .xor _ _ => []
  | .and _ _ => []
  | .not _ => []

/-- The command word `w` with a payload, first at the port of executor 0, which is idle and whose sequencer has the move
(notes/assumptions/15.md). -/
def placeCommand (s : State) (w : Word) (payload : Payload) : State :=
  match s.insts with
  | [] => s
  | u :: rest =>
    { s with
      insts := { u with busy := false, port := ⟨w, payload⟩ :: u.port } :: rest
      plan := .seq 0 :: s.plan }

/-- A wire that a gate reading `s1` and `s2` can write: the first above both, or below them if none is. -/
def placedWire (s1 s2 : Nat) : Nat :=
  if max s1 s2 + 1 < maxWires then max s1 s2 + 1
  else if s1 ≠ 0 ∧ s2 ≠ 0 then 0
  else if s1 ≠ 1 ∧ s2 ≠ 1 then 1
  else 2

/-- Put a bit on a wire unless the wire is present. -/
def withWire (wires : List (Nat × EncBit)) (i : Nat) : List (Nat × EncBit) :=
  match cellGet wires i with
  | some _ => wires
  | none => cellPut wires i ⟨0⟩

/-- The gate word `w`, which reads `s1` and `s2`, as gate 0 of a program in user slot 3 that executor 0 is running and that
its worker 0, which has the move, has claimed, both operands present and the destination absent
(notes/assumptions/15.md). -/
def placeGate (s : State) (w : Word) (s1 s2 : Nat) : State :=
  match s.insts with
  | [] => s
  | u :: rest =>
    let d := placedWire s1 s2
    let kept := u.wires.filter (fun c => c.1 != d)
    { s with
      slots := cellPut s.slots 3 [BitVec.ofNat 32 d, 1, 1, w, BitVec.ofNat 32 d]
      slotValid := setSlotBit s.slotValid 3
      insts :=
        { u with
          wires := withWire (withWire kept s1) s2
          next := 1
          workers := .claimed 0 :: u.workers.tail
          busy := true
          cmd := commandWord 5 3
          slot := 3
          nIn := d
          n := 1
          nOut := 1
          phase := .run } :: rest
      plan := .worker 0 0 :: s.plan }

/-- The instruction whose bits are `w`, placed so that the next step runs it; a word that is no instruction is placed as a
command word, which the next step refuses. -/
def placeWord (s : State) (nbits w : Nat) : State :=
  let word : Word := BitVec.ofNat 32 (w % 2 ^ nbits)
  match decodeTableWord nbits w with
  | some (.xor s1 s2) => placeGate s word s1 s2
  | some (.and s1 s2) => placeGate s word s1 s2
  | some (.not s1) => placeGate s word s1 s1
  | some i => placeCommand s word (placedPayload s i)
  | none => placeCommand s word []

end Sys2Proof.Machine
end

