-- ==== Sys2Proof/Machine/Dispatch.lean ====
section
/-! DEFINITION. One arm for each instruction: exec hands it to its meaning. -/

namespace Sys2Proof.Machine

def exec (i : Instr) (s : State) : Host.Outcome State Fault Refusal :=
  match i with
  | .xor s1 s2 => Sys2Proof.Machine.execXor s1 s2 s
  | .and s1 s2 => Sys2Proof.Machine.execAnd s1 s2 s
  | .not s1 => Sys2Proof.Machine.execNot s1 s
  | .loadPv => Sys2Proof.Machine.execLoadPv s
  | .decompose => Sys2Proof.Machine.execDecompose s
  | .recompose => Sys2Proof.Machine.execRecompose s
  | .loadProg sel => Sys2Proof.Machine.execLoadProg sel s
  | .exec sel => Sys2Proof.Machine.execExec sel s
  | .sbox => Sys2Proof.Machine.execSbox s
  | .invsbox => Sys2Proof.Machine.execInvsbox s
  | .mixcol => Sys2Proof.Machine.execMixcol s
  | .readReg sel => Sys2Proof.Machine.execReadReg sel s

end Sys2Proof.Machine
end

