-- ==== Sys2Proof/Machine/Step.lean ====
section
/-! DEFINITION. One step of the block: the agent that has the move runs the instruction it holds, or takes its step that runs
none, and the move passes on (00_scope.md R18, 41_executor.md R127). -/

namespace Sys2Proof.Machine

/-- A step that ends in a next state passes the move on. -/
def passMove (o : Outcome) : Outcome :=
  match o with
  | .next t => .next t.advance
  | .fault r => .fault r
  | .refused r => .refused r

/-- One step. -/
def step (s : State) : Host.Outcome State Fault Refusal :=
  match fetch s with
  | .instr i => passMove (exec i s)
  | .control t => passMove (.next t)
  | .illegal w => .fault (.illegalGateWord w)

/-- `s` with the instruction of those bits placed where the next step runs it (`placeWord`, notes/assumptions/15.md). -/
def State.withFetchWord (s : State) (nbits w : Nat) : State := placeWord s nbits w

end Sys2Proof.Machine
end

