-- ==== Sys2Proof/Machine/TextForm.lean ====
section
/-! DEFINITION. The text form of a program and its translation to an image (30_encoding.md R82, R83), and the
pseudo-instructions (R90). "Translation from the text form ... is done by the host's tools before LOAD_PROG" (41_executor.md
R142): no step of the block calls this file. -/

namespace Sys2Proof.Machine

/-- A name of the text form (30_encoding.md R82). -/
abbrev Name := List Char

/-- A gate in text, by names. -/
inductive TextGate where
  | xor (d a b : Name)
  | and (d a b : Name)
  | not (d a : Name)
  deriving DecidableEq, Repr

/-- A program in text: the declared inputs and outputs, and the lines of the body (R82). -/
structure TextProgram where
  inputs : List Name
  outputs : List Name
  body : List (List Char)
  deriving DecidableEq, Repr

/-- What a line is cut into. -/
inductive Token where
  | name (n : Name)
  | equals
  | bang
  /-- A character no line of the grammar holds. -/
  | other
  deriving DecidableEq, Repr

/-- `[A-Za-z]`, `_`. -/
def isNameStart (c : Char) : Bool :=
  (decide (65 ≤ c.toNat) && decide (c.toNat ≤ 90)) || (decide (97 ≤ c.toNat) && decide (c.toNat ≤ 122)) ||
    decide (c.toNat = 95)

/-- `[A-Za-z0-9_]`. -/
def isNameChar (c : Char) : Bool := isNameStart c || (decide (48 ≤ c.toNat) && decide (c.toNat ≤ 57))

/-- `ws`, which the grammar uses and does not define. DESIGN CHOICE: a space or a tab (notes/assumptions/18.md). -/
def isBlankChar (c : Char) : Bool := decide (c.toNat = 32) || decide (c.toNat = 9)

/-- The token of the name characters read so far, last first. -/
def flushName (acc : List Char) (rest : List Token) : List Token :=
  match acc with
  | [] => rest
  | c :: cs => .name (c :: cs).reverse :: rest

/-- Cut a line into tokens; `#` begins a comment. `acc` holds the name being read, last character first. -/
def cutLine (acc : List Char) : List Char → List Token
  | [] => flushName acc []
  | c :: rest =>
    if isNameChar c then cutLine (c :: acc) rest
    else
      flushName acc
        (if c = '#' then []
        else if isBlankChar c then cutLine [] rest
        else if c = '=' then .equals :: cutLine [] rest
        else if c = '!' then .bang :: cutLine [] rest
        else .other :: cutLine [] rest)

def xorToken : Name := ['X', 'O', 'R']

def andToken : Name := ['A', 'N', 'D']

/-- `[A-Za-z_][A-Za-z0-9_]*`, not `XOR` or `AND` (R82). -/
def nameOk (n : Name) : Bool :=
  match n with
  | [] => false
  | c :: cs => isNameStart c && cs.all isNameChar && n != xorToken && n != andToken

/-- What a line says (R82). -/
inductive TextLine where
  | blank
  | gate (g : TextGate)
  /-- It does not match `instr`. -/
  | bad
  deriving DecidableEq, Repr

/-- Read the tokens of one line (R82). -/
def parseTokens (ts : List Token) : TextLine :=
  match ts with
  | [] => .blank
  | [.name d, .equals, .name a, .name op, .name b] =>
    if nameOk d && nameOk a && nameOk b then
      if op = xorToken then .gate (.xor d a b) else if op = andToken then .gate (.and d a b) else .bad
    else .bad
  | [.name d, .equals, .name a, .bang] => if nameOk d && nameOk a then .gate (.not d a) else .bad
  | _ => .bad

/-- Read one line (R82). -/
def parseLine (line : List Char) : TextLine := parseTokens (cutLine [] line)

/-- The wire number of a name: its place among the inputs and the left-hand names so far (R83). -/
def wireOfName : List Name → Name → Option Nat
  | [], _ => none
  | m :: rest, n => if m = n then some 0 else (wireOfName rest n).map (· + 1)

/-- The left-hand name of a gate. -/
def textDestination : TextGate → Name
  | .xor d _ _ => d
  | .and d _ _ => d
  | .not d _ => d

/-- The gate's word, once its operands have wires (R83). -/
def textWord (names : List Name) : TextGate → Option Word
  | .xor _ a b => (wireOfName names a).bind fun s1 => (wireOfName names b).map fun s2 => gateWord 0 s1 s2
  | .and _ a b => (wireOfName names a).bind fun s1 => (wireOfName names b).map fun s2 => gateWord 1 s1 s2
  | .not _ a => (wireOfName names a).map fun s1 => gateWord 2 s1 0

/-- A cause and its DETAIL, or a result. -/
inductive Assembled (α : Type) where
  | ok (a : α)
  | error (c : Cause) (detail : Nat)
  deriving DecidableEq, Repr

/-- Translate the lines, the first of which has number `line` and is preceded by `k` gates; `names` are the wires so far (R83).
DETAIL is the image word index of the gate at fault, and for a duplicate name the line (60_exceptions.md R201, R204). The order of
the two errors of one line is a DESIGN CHOICE (notes/assumptions/18.md). -/
def assembleLines (line k : Nat) (names : List Name) : List (List Char) → Assembled (List Name × List Word)
  | [] => .ok (names, [])
  | l :: rest =>
    match parseLine l with
    | .blank => assembleLines (line + 1) k names rest
    | .bad => .error .ceUnknownOperator (3 + k)
    | .gate g =>
      match textWord names g with
      | none => .error .ceDanglingOperand (3 + k)
      | some w =>
        if textDestination g ∈ names then .error .ceDuplicateName line
        else
          match assembleLines (line + 1) (k + 1) (names ++ [textDestination g]) rest with
          | .ok (all, ws) => .ok (all, w :: ws)
          | .error c d => .error c d

/-- The selector words of the declared outputs, the first of which is image word `a` (R83). -/
def assembleOutputs (a : Nat) (names : List Name) : List Name → Assembled (List Word)
  | [] => .ok []
  | o :: rest =>
    match wireOfName names o with
    | none => .error .ceMissingOutput a
    | some i =>
      match assembleOutputs (a + 1) names rest with
      | .ok ws => .ok (BitVec.ofNat 32 i :: ws)
      | .error c d => .error c d

/-- No name occurs twice. -/
def namesDistinct : List Name → Bool
  | [] => true
  | n :: rest => decide (n ∉ rest) && namesDistinct rest

/-- Text to image (R83). DESIGN CHOICES (notes/assumptions/18.md), where the spec names no order and no error: the inputs are looked
at first, then the lines in order, then the outputs; a declared input that is no name is refused as a line that is no instruction
is, with DETAIL 0; a program the header cannot describe is refused with CE_SIZE. A declared output that is no name is defined
nowhere, as every wire's name is a name. -/
def assemble (p : TextProgram) : Assembled (List Word) :=
  if p.inputs.all nameOk then
    if namesDistinct p.inputs then
      match assembleLines 1 0 p.inputs p.body with
      | .error c d => .error c d
      | .ok (names, gates) =>
        match assembleOutputs (3 + gates.length) names p.outputs with
        | .error c d => .error c d
        | .ok sels =>
          if maxWires < p.inputs.length + gates.length ∨ 65535 < sels.length then .error .ceSize 0
          else
            .ok ([BitVec.ofNat 32 p.inputs.length, BitVec.ofNat 32 gates.length, BitVec.ofNat 32 sels.length] ++ gates ++ sels)
    else .error .ceDuplicateName 0
  else .error .ceUnknownOperator 0

/-- The pseudo-instructions of the text form (R90). -/
inductive PseudoGate where
  | xnor (d a b : Name)
  | nand (d a b : Name)
  | or (d a b : Name)
  | andn (d a b : Name)
  | zero (d a : Name)
  | one (d a : Name)
  | copy (d a : Name)
  deriving DecidableEq, Repr

/-- The expansion of a pseudo-instruction, with the fresh names `t`, `u` and `v` (R90). -/
def expandPseudo (t u v : Name) : PseudoGate → List TextGate
  | .xnor d a b => [.xor t a b, .not d t]
  | .nand d a b => [.and t a b, .not d t]
  | .or d a b => [.not t a, .not u b, .and v t u, .not d v]
  | .andn d a b => [.not t b, .and d a t]
  | .zero d a => [.xor d a a]
  | .one d a => [.xor t a a, .not d t]
  | .copy d a => [.not t a, .not d t]

end Sys2Proof.Machine
end

