-- ==== Sys2Proof/Safety.lean ====
section
/-! DEFINITION. The terms claims are stated in: the named premises of 70_reset_and_hazards.md R235, when two results are the same,
and the invariant of every state the block can be in.

Of the premises of R235, `EngineLaws` is `Config.engine_laws` and `Config.drawnEngine_laws`, which hold of the model's engine, and
`SessionInputs` is built into the types: every `EncBit` and `EncByte` decrypts, under the one pair of maps `decb` and `decB`, and
every engine call on them obeys its law, so a ciphertext of another key or one that the engine gives no valid result for is not in
the model (notes/assumptions/2.md). -/

namespace Sys2Proof.Machine

/-- The position-value duty `PVDuty`: `decB(PV[i]) = 2^i` for `i = 0..7` and `decB(PVZ) = 0` (70_reset_and_hazards.md R233). -/
def PvTable.Duty (t : PvTable) : Prop :=
  t.powers.map Config.engine.decB = [1, 2, 4, 8, 16, 32, 64, 128] ∧ Config.engine.decB t.pvz = 0

/-- The premise `PVDuty` of 70_reset_and_hazards.md R235: the duty of R233 with `PV_VALID = 1`. -/
def State.PvDuty (s : State) : Prop := s.pvValid = true ∧ s.pv.Duty

/-- The premise `NoFault` of R235: no fault recorded in the history. -/
def State.NoFault (s : State) : Prop := s.faults = []

/-- The premise `Idle(q)` of R235: executor `q` exists and has `BUSY = 0`, and none of its workers is in flight. -/
def State.IdleAt (s : State) (q : Nat) (u : Inst) : Prop :=
  s.insts[q]? = some u ∧ u.busy = false ∧ ∀ k, Worker.claimed k ∉ u.workers

/-- The premise `SlotValid(s)` of R235: the valid bit is 1 and the image passed the construction check. -/
def State.SlotValid (s : State) (sel : Nat) : Prop := s.slotOk sel = true ∧ check (s.image sel) = none

/-- The sequencer of the idle executor `q` has the move and accepts the command `c`; `u` is the record without it. -/
def State.Accepts (s : State) (q : Nat) (u : Inst) (c : Command) : Prop :=
  s.acting = .seq q ∧ s.insts[q]? = some { u with port := c :: u.port } ∧ u.busy = false

/-- The sequencer of the busy executor `q` has the move. -/
def State.Runs (s : State) (q : Nat) (u : Inst) : Prop := s.acting = .seq q ∧ s.insts[q]? = some u ∧ u.busy = true

/-- Worker `w` of executor `q` has the move and has claimed gate `k` in a running EXEC. -/
def State.Evaluates (s : State) (q w k : Nat) (u : Inst) : Prop :=
  s.acting = .worker q w ∧ s.insts[q]? = some u ∧ u.running = true ∧ u.workers[w]? = some (.claimed k)

/-- The state after executor `q` ended the command `word` with cause `c` and detail `d` (60_exceptions.md R205): `STATUS` is
`c` in bits 7:0 and `d` in bits 31:8 (10_state.md R30), `BUSY` is 0, no result is returned, the fault is recorded (R207). -/
def State.faulted (s : State) (q : Nat) (u : Inst) (word : Word) (c : Cause) (d : Nat) : State :=
  { s with
    insts := s.insts.set q { u with status := BitVec.ofNat 24 d ++ c.code, busy := false }
    faults := s.faults ++ [⟨q, word, c, d⟩] }

/-- The state after executor `q` completed the command `word`: `STATUS` is 0, `BUSY` is 0, the result is returned
(70_reset_and_hazards.md R244). -/
def State.returned (s : State) (q : Nat) (u : Inst) (word : Word) (result : Payload) : State :=
  { s with
    insts := s.insts.set q { u with status := 0, busy := false }
    replies := s.replies ++ [⟨q, word, result⟩] }

/-- DETAIL of PV_INPUT_COUNT: the supplied length, saturated at 0xFFFFFF (60_exceptions.md R201). -/
def suppliedLength (c : Command) : Nat := min c.payload.length 0xFFFFFF

/-- How many workers have exited. -/
def Inst.exitedCount (u : Inst) : Nat := u.workers.countP (fun w => w == .exited)

/-- Gate `k` has been claimed by no worker that still works on it. -/
def Inst.free (u : Inst) (k : Nat) : Prop := ∀ w : Nat, u.workers[w]? ≠ some (.claimed k)

/-- A running command is EXEC of the slot, or the composite command whose ROM slot it is (10_state.md R36). -/
def Inst.cmdOk (u : Inst) : Prop :=
  decodeCommand u.cmd = .instr (.exec u.slot) ∨
    (decodeCommand u.cmd = .instr .sbox ∧ u.slot = 0) ∨
    (decodeCommand u.cmd = .instr .invsbox ∧ u.slot = 1) ∨
    (decodeCommand u.cmd = .instr .mixcol ∧ u.slot = 2)

/-- The header registers are those of the image (10_state.md R36). -/
def Inst.headerOk (u : Inst) (img : List Word) : Prop :=
  u.nIn = imageNIn img ∧ u.n = imageN img ∧ u.nOut = imageNOut img

/-- The worker phase (41_executor.md R122 to R128): each claimed gate was claimed once and is below `N` and `NEXT`; the workers
that have exited are those that claimed past the last gate; the present wires are the inputs and the gates evaluated. -/
structure Inst.RunOk (u : Inst) (workers : Nat) : Prop where
  count : u.workers.length = workers
  claimed : ∀ w k : Nat, u.workers[w]? = some (.claimed k) → k < u.n ∧ k < u.next.toNat
  once : ∀ w w' k : Nat, u.workers[w]? = some (.claimed k) → u.workers[w']? = some (.claimed k) → w = w'
  exited : u.exitedCount = u.next.toNat - u.n
  present : ∀ i, u.present i = true ↔ i < u.nIn ∨ ∃ k, i = u.nIn + k ∧ k < u.n ∧ k < u.next.toNat ∧ u.free k

/-- Two encrypted bits are the same result: they decrypt alike, and with a deterministic engine they are one ciphertext (10_state.md
R46). -/
def sameBit (deterministic : Bool) (x y : EncBit) : Prop :=
  Config.engine.decb x = Config.engine.decb y ∧ (deterministic = true → x = y)

/-- Two lists of encrypted bits are the same result (10_state.md R46). -/
def sameBits (deterministic : Bool) (xs ys : List EncBit) : Prop :=
  xs.map Config.engine.decb = ys.map Config.engine.decb ∧ (deterministic = true → xs = ys)

/-- Two lists of encrypted bytes are the same result (10_state.md R46). -/
def sameBytes (deterministic : Bool) (xs ys : List EncByte) : Prop :=
  xs.map Config.engine.decB = ys.map Config.engine.decB ∧ (deterministic = true → xs = ys)

/-- `Ref(prog, in)[OSEL[j]]` for every output `j`, with the engine's gates (41_executor.md R131). -/
def refBits (img : List Word) (ins : List EncBit) : List EncBit := refOutputs Config.engine.gates img ins

/-- The values of the worker phase: every present wire holds its value in `Ref(prog, in)` (41_executor.md R131). -/
def Inst.ValuesOk (u : Inst) (img : List Word) (deterministic : Bool) : Prop :=
  ∀ i v, cellGet u.wires i = some v →
    ∃ r, (refWires Config.engine.gates img u.bits)[i]? = some r ∧ sameBit deterministic v r

/-- What holds of a busy executor of the state `s`, phase by phase (41_executor.md R120, 43_sbox.md R172). -/
structure Inst.BusyOk (u : Inst) (s : State) : Prop where
  cmd : u.cmdOk
  slot : s.slotOk u.slot = true
  decompose : u.phase = .decompose → ∃ bytes, bytesOf u.args = some bytes ∧ 8 * bytes.length = imageNIn (s.image u.slot)
  start : u.phase = .start → u.headerOk (s.image u.slot) ∧ u.bits.length = u.nIn
  run : u.phase = .run → u.headerOk (s.image u.slot) ∧ u.bits.length = u.nIn ∧ u.RunOk s.config.w

/-- THE INVARIANT: what holds of every state the block can be in. The parameters are legal (00_scope.md R7), every executor
exists (10_state.md R20), the stores are canonical, a valid slot holds a checked image (R33), a busy executor is in order, and
outside the worker phase no worker is in flight (60_exceptions.md R214). -/
structure State.Inv (s : State) : Prop where
  config : s.config.Legal
  executors : s.insts.length = s.config.nInst
  memory : Memory.wf s = true
  checked : ∀ sel, s.slotOk sel = true → check (s.image sel) = none
  busy : ∀ (q : Nat) (u : Inst), s.insts[q]? = some u → u.busy = true → u.BusyOk s
  atRest : ∀ (q : Nat) (u : Inst), s.insts[q]? = some u → u.running = false → ∀ k, Worker.claimed k ∉ u.workers

/-- Gate `k` of a program with `nIn` inputs is the first of these causes, or legal (30_encoding.md R81). -/
def gateFailure (nIn k : Nat) (w : Word) : Option Cause :=
  if gateOp w = 3 then some .ceUnknownOperator
  else if gateOp w = 2 ∧ gateS2 w ≠ 0 then some .ceReservedNonzero
  else if nIn + k ≤ gateS1 w ∨ (gateOp w ≠ 2 ∧ nIn + k ≤ gateS2 w) then some .ceDanglingOperand
  else none

/-- Output-selector word `o` of a program with `wires` wires is the first of these causes, or legal (30_encoding.md R81). -/
def selectorFailure (wires : Nat) (o : Word) : Option Cause :=
  if selectorReserved o ≠ 0 then some .ceReservedNonzero
  else if wires ≤ selectorWire o then some .ceMissingOutput
  else none

/-- The limits and the length of an image (30_encoding.md R73, R74). -/
def sizeLegal (img : List Word) : Prop :=
  1 ≤ imageNIn img ∧ 1 ≤ imageNOut img ∧ imageNIn img + imageN img ≤ maxWires ∧
    img.length = 3 + imageN img + imageNOut img

/-- An image the construction check accepts, said of the image and not of a scan of it (30_encoding.md R73, R74, R76, R77, R79,
R80): the limits, the length, every gate legal, every selector in range, every reserved bit 0. -/
def ImageLegal (img : List Word) : Prop :=
  sizeLegal img ∧ (∀ a, a < 3 → headerReserved (memRead img a) = 0) ∧
    (∀ k, k < imageN img → gateFailure (imageNIn img) k (imageGate img k) = none) ∧
    ∀ j, j < imageNOut img → selectorFailure (imageNIn img + imageN img) (memRead img (3 + imageN img + j)) = none

/-- In every running executor the present wires hold their reference values (41_executor.md R131). -/
def State.Values (s : State) : Prop :=
  ∀ (q : Nat) (u : Inst), s.insts[q]? = some u → u.running = true →
    u.ValuesOk (s.image u.slot) s.config.deterministic

/-- The first result returned for executor `q` after the first `sofar` results. -/
def State.firstReply (s : State) (sofar q : Nat) : Option Reply := (s.replies.drop sofar).find? (fun r => r.executor == q)

/-- The state after the moves of a schedule, however it was chosen: `step` run once for each of them. -/
def State.after (s : State) (moves : List Move) : Outcome :=
  match moves with
  | [] => .next s
  | m :: rest =>
    match step { s with plan := [m] } with
    | .next t => t.after rest
    | .fault r => .fault r
    | .refused r => .refused r

/-- Executor `q` is running EXEC of slot `sel` on the input bits `ins`, and has come as far as its phase says: before the
output copy it holds the inputs, after it the outputs of `Ref(prog, in)` (41_executor.md R120, R131). -/
def State.ExecUnderWay (s : State) (q sel : Nat) (ins : List EncBit) : Prop :=
  ∃ u, s.insts[q]? = some u ∧ u.busy = true ∧ decodeCommand u.cmd = .instr (.exec sel) ∧ u.slot = sel ∧
    match u.phase with
    | .start | .run => u.bits = ins
    | .status | .release => ∃ outs, u.result = outs.map .bit ∧ sameBits s.config.deterministic outs (refBits (s.image sel) ins)
    | .decompose | .recompose => False

/-- The bits of DECOMPOSE of each byte by a deterministic engine (42_codec.md R152). -/
def refDecompose (t : PvTable) (bytes : List EncByte) : List EncBit := decomposeAll (fun _ => Config.engine) t bytes

/-- The bytes of RECOMPOSE of each group of eight bits by a deterministic engine (42_codec.md R155). -/
def refRecompose (t : PvTable) (bits : List EncBit) : List EncByte := recomposeAll (fun _ => Config.engine) t bits

/-- Executor `q` is running the composite command `i`, which runs ROM slot `slot`, on the encrypted bytes `bytes`, and has come
as far as its phase says (43_sbox.md R172, 44_mixcolumns.md R192). -/
def State.CompositeUnderWay (s : State) (q : Nat) (i : Instr) (slot : Nat) (bytes : List EncByte) : Prop :=
  ∃ u, s.insts[q]? = some u ∧ u.busy = true ∧ decodeCommand u.cmd = .instr i ∧ u.slot = slot ∧
    match u.phase with
    | .decompose => bytesOf u.args = some bytes
    | .start | .run => sameBits s.config.deterministic u.bits (refDecompose s.pv bytes)
    | .recompose => sameBits s.config.deterministic u.bits (refBits (s.image slot) (refDecompose s.pv bytes))
    | .status | .release =>
      ∃ outs, u.result = outs.map .byte ∧
        sameBytes s.config.deterministic outs (refRecompose s.pv (refBits (s.image slot) (refDecompose s.pv bytes)))

/-- The hold of the gate word `w` has lifted: its first operand wire is present, and for XOR and AND its second too
(41_executor.md R125). -/
def Inst.holdLifted (u : Inst) (w : Word) : Bool := u.present (gateS1 w) && (gateOp w == 2 || u.present (gateS2 w))

/-- Worker `w` of executor `q` has an enabled step: in the worker phase of an EXEC it is idle and can claim, or it has claimed a
gate whose hold has lifted (41_executor.md R123, R125). -/
def State.workerEnabled (s : State) (q w : Nat) : Bool :=
  match s.insts[q]? with
  | none => false
  | some u =>
    match u.running, u.workers[w]? with
    | true, some .idle => true
    | true, some (.claimed k) => u.holdLifted (imageGate (s.image u.slot) k)
    | _, _ => false

/-- The state after the first `n` moves of an endless schedule. -/
def State.upTo (s : State) (schedule : Nat → Move) (n : Nat) : Outcome := s.after ((List.range n).map schedule)

/-- WEAK FAIRNESS of a schedule from `s` to the workers of executor `q`: "a worker whose step stays enabled eventually takes it"
(41_executor.md R127). From every point on, each worker at some time either takes its step or has none enabled. Nothing is asked of
a worker that is held or has exited, nor of any other agent. -/
def State.WeaklyFair (s : State) (q : Nat) (schedule : Nat → Move) : Prop :=
  ∀ w n : Nat, w < s.config.w → ∃ m, n ≤ m ∧
    (schedule m = .worker q w ∨ ∃ t, s.upTo schedule m = .next t ∧ t.workerEnabled q w = false)

/-- A round of a schedule that gives every worker of executor `q` a move and its sequencer none: more than weak fairness
(41_executor.md R127) asks for, and used only to bound how soon the join comes. -/
def fairRound (q workers : Nat) (moves : List Move) : Prop :=
  (∀ w, w < workers → Move.worker q w ∈ moves) ∧ Move.seq q ∉ moves

end Sys2Proof.Machine
end

