-- ==== Sys2Proof/Certificates/Slice0/Obligations.lean ====
section
/-! DEFINITION. What is claimed of the model: each statement formalises rules of spec/, named in its docstring. Statements
about every state and every plan of moves hold for every configuration, schedule, host and engine, since these are data of the
state or constants of which only the laws are known. -/

open Sys2Proof Sys2Proof.Machine

/-! ## Encoding -/

/-- Decoding the word of a well-formed instruction, where instructions of its kind stand, gives it back (30_encoding.md R71,
R72, R84, R85). -/
def Obligations.DecodeUndoesEncode : Prop :=
  ∀ i : Instr, i.wf = true → decodeAt i.isGate (encode i) = .instr i

/-- A word that decodes is the word of the instruction it decodes to, which is well-formed and of the kind asked for: no two
words of an image, and no two command words, are the same instruction (30_encoding.md R71, R77, R84, R86; 92 D5 "it keeps every
encoding unique"). -/
def Obligations.EncodeUndoesDecode : Prop :=
  ∀ (gate : Bool) (w : Word) (i : Instr), decodeAt gate w = .instr i → i.wf = true ∧ i.isGate = gate ∧ encode i = w

/-- A gate word is refused exactly when its bits 31:30 are 11, by the name of the unknown operator, or when they are 10 and
bits 14:0 are not 0, by the name of the reserved field (30_encoding.md R72, R77). -/
def Obligations.GateWordsRefusedByName : Prop :=
  ∀ w : Word,
    (decodeGate w = .refused .unknownOperator ↔ w.extractLsb' 30 2 = 3) ∧
      (decodeGate w = .refused .reservedNonzero ↔ w.extractLsb' 30 2 = 2 ∧ w.extractLsb' 0 15 ≠ 0) ∧
      decodeGate w ≠ .refused .unknownCommand

/-- A command word is refused exactly when a reserved bit is set, `OPC` is not 0x01 to 0x09, or `SEL` is not 0 on a command other
than LOAD_PROG, EXEC and READ_REG, and then as an unknown command (30_encoding.md R84, R85, R86). -/
def Obligations.CommandWordsRefusedByName : Prop :=
  ∀ w : Word,
    ((∃ r, decodeCommand w = .refused r) ↔
      w.extractLsb' 13 19 ≠ 0 ∨ w.extractLsb' 0 8 = 0 ∨ 9 < (w.extractLsb' 0 8).toNat ∨
        (w.extractLsb' 8 5 ≠ 0 ∧ w.extractLsb' 0 8 ≠ 4 ∧ w.extractLsb' 0 8 ≠ 5 ∧ w.extractLsb' 0 8 ≠ 9)) ∧
      ∀ r, decodeCommand w = .refused r → r = .unknownCommand

/-- The worked encodings of 30_encoding.md R92 and words of the command trace of 95_test_vectors.md section 2.7 decode to the
instructions they stand for. -/
def Obligations.WorkedEncodingsDecode : Prop :=
  decodeGate 0x00000001 = .instr (.xor 0 1) ∧ decodeGate 0x00018002 = .instr (.xor 3 2) ∧
    decodeGate 0x40000001 = .instr (.and 0 1) ∧ decodeGate 0x80000000 = .instr (.not 0) ∧
    decodeGate 0x80000001 = .refused .reservedNonzero ∧ decodeGate 0xC0000001 = .refused .unknownOperator ∧
    decodeCommand 0x00000304 = .instr (.loadProg 3) ∧ decodeCommand 0x00000305 = .instr (.exec 3) ∧
    decodeCommand 0x00000309 = .instr (.readReg 3) ∧ decodeCommand 0x00000106 = .refused .unknownCommand

/-! ## The step -/

/-- When the word the acting agent holds decodes to an instruction `i`, the step is `exec i`, after which the move passes on:
`plan` loses its first move and `tick` is one more. A sequencer holds its running command's word, or that of the first command
at its port (30_encoding.md R87); a worker in `Claimed(k)` holds word `3 + k` of the running slot's image (41_executor.md R124). That the
choice of the agent is kept in `plan` and `tick` is the model's (notes/assumptions/5.md). -/
def Obligations.StepRunsTheDecodedInstruction : Prop :=
  ∀ (s : State) (q : Nat) (u : Inst) (i : Instr), s.insts[q]? = some u →
    ((s.acting = .seq q ∧ ((u.busy = true ∧ decodeCommand u.cmd = .instr i) ∨
        (u.busy = false ∧ ∃ c rest, u.port = c :: rest ∧ decodeCommand c.word = .instr i))) ∨
      (∃ w k, s.Evaluates q w k u ∧ decodeGate ((s.image u.slot).getD (3 + k) 0) = .instr i)) →
    step s =
      match exec i s with
      | .next t => .next { t with plan := t.plan.tail, tick := t.tick + 1 }
      | .fault r => .fault r
      | .refused r => .refused r

/-- A command word that is no command raises PV_UNKNOWN_COMMAND with the `OPC` field as DETAIL, and does nothing else;
the model's own `plan` and `tick` move on (30_encoding.md R86, 60_exceptions.md R201, notes/assumptions/5.md). -/
def Obligations.UnknownCommandIsRaised : Prop :=
  ∀ (s : State) (q : Nat) (u : Inst) (c : Command) (r : DecodeRefusal), s.Accepts q u c →
    decodeCommand c.word = .refused r →
    step s = .next (s.faulted q u c.word .pvUnknownCommand (c.word.extractLsb' 0 8).toNat).advance

/-! ## Gates -/

/-- The evaluate step, one atomic step for each operator: once its operands are present, the gate's value, as the engine answers the
step's one call, is written to wire `N_IN + k` and the worker is idle; and no gate of a checked image has `OP = 11` (41_executor.md R126). -/
def Obligations.EvaluateStepWritesItsWire : Prop :=
  (∀ (s : State) (q w k s1 s2 : Nat) (u : Inst) (a b : EncBit), s.Evaluates q w k u → u.nIn + k < maxWires →
      cellGet u.wires s1 = some a → cellGet u.wires s2 = some b →
      exec (.xor s1 s2) s = .next { s with insts := s.insts.set q { u with
        wires := cellPut u.wires (u.nIn + k) ((s.call 0).bitXor a b), workers := u.workers.set w .idle } } ∧
      exec (.and s1 s2) s = .next { s with insts := s.insts.set q { u with
        wires := cellPut u.wires (u.nIn + k) ((s.call 0).bitAnd a b), workers := u.workers.set w .idle } }) ∧
    (∀ (s : State) (q w k s1 : Nat) (u : Inst) (a : EncBit), s.Evaluates q w k u → u.nIn + k < maxWires →
      cellGet u.wires s1 = some a →
      exec (.not s1) s = .next { s with insts := s.insts.set q { u with
        wires := cellPut u.wires (u.nIn + k) ((s.call 0).bitNot a), workers := u.workers.set w .idle } }) ∧
    ∀ (img : List Word) (k : Nat), check img = none → k < imageN img →
      (memRead img (3 + k)).extractLsb' 30 2 ≠ 3

/-- The plaintext truth table of the gates: the wire written decrypts to the XOR, the AND or the complement of what the operand
wires decrypt to (40_gates.md R107). -/
def Obligations.GatesMeetTheTruthTable : Prop :=
  ∀ (s : State) (q w k s1 s2 : Nat) (u : Inst) (a b : EncBit), s.Evaluates q w k u → u.nIn + k < maxWires →
    cellGet u.wires s1 = some a → cellGet u.wires s2 = some b →
    ∀ (i : Instr) (v : Bool),
      (i = .xor s1 s2 ∧ v = (Config.engine.decb a ^^ Config.engine.decb b)) ∨
        (i = .and s1 s2 ∧ v = (Config.engine.decb a && Config.engine.decb b)) ∨
        (i = .not s1 ∧ v = !Config.engine.decb a) →
      ∃ t u' x, exec i s = .next t ∧ t.insts[q]? = some u' ∧ cellGet u'.wires (u.nIn + k) = some x ∧
        Config.engine.decb x = v

/-- One wire as both operands: XOR writes a wire that decrypts to 0, AND one that decrypts as the operand does (40_gates.md
R103). -/
def Obligations.SameWireAsBothOperands : Prop :=
  ∀ (s : State) (q w k a : Nat) (u : Inst) (x : EncBit), s.Evaluates q w k u → u.nIn + k < maxWires →
    cellGet u.wires a = some x →
    (∃ t u' y, exec (.xor a a) s = .next t ∧ t.insts[q]? = some u' ∧ cellGet u'.wires (u.nIn + k) = some y ∧
      Config.engine.decb y = false) ∧
    (∃ t u' y, exec (.and a a) s = .next t ∧ t.insts[q]? = some u' ∧ cellGet u'.wires (u.nIn + k) = some y ∧
      Config.engine.decb y = Config.engine.decb x)

/-- While an operand of its gate is absent, a worker holds. NOT waits on its one operand only (41_executor.md R125, 40_gates.md
R102). R125 says that a held worker has no enabled step; that its move, if it is given one, leaves the block as it is, is the
model's choice (notes/assumptions/19.md). -/
def Obligations.HeldWorkerWaits : Prop :=
  ∀ (s : State) (q w k s1 s2 : Nat) (u : Inst), s.Evaluates q w k u →
    (cellGet u.wires s1 = none ∨ cellGet u.wires s2 = none →
      exec (.xor s1 s2) s = .next s ∧ exec (.and s1 s2) s = .next s) ∧
    (cellGet u.wires s1 = none → exec (.not s1) s = .next s)

/-- Gates write only their destination wire: no flag, no status and no counter. When a gate answers a next state, nothing
changes but, on the acting worker's executor, wire `N_IN + k` and that worker's state; in particular `NEXT`, `STATUS`, every
other wire, every other worker, every other executor, the table, the program store and the history stay (40_gates.md R105). -/
def Obligations.GatesWriteOnlyTheirWire : Prop :=
  ∀ (i : Instr) (s t : State), i.isGate = true → exec i s = .next t →
    ∃ q w k u u', s.Evaluates q w k u ∧ t.insts[q]? = some u' ∧
      t = { s with insts := s.insts.set q u' } ∧
      u' = { u with wires := u'.wires, workers := u'.workers } ∧
      (∀ x, x ≠ u.nIn + k → cellGet u'.wires x = cellGet u.wires x) ∧
      (∀ x, x ≠ w → u'.workers[x]? = u.workers[x]?)

/-- The claim step of an idle worker: it takes the value of `NEXT`, `NEXT` is one more, and the worker has claimed that gate or,
at or past `N`, has exited. Nothing else changes, the model's own `plan` and `tick` apart (41_executor.md R123, 20_memory.md R64,
notes/assumptions/5.md). -/
def Obligations.ClaimTakesTheNextIndex : Prop :=
  ∀ (s : State) (q w : Nat) (u : Inst), s.acting = .worker q w → s.insts[q]? = some u → u.busy = true → u.phase = .run →
    u.workers[w]? = some .idle →
    step s = .next { s with
      plan := s.plan.tail, tick := s.tick + 1
      insts := s.insts.set q { u with
        next := u.next + 1
        workers := u.workers.set w (if u.next.toNat < u.n then .claimed u.next.toNat else .exited) } }

/-! ## EXEC and the composite commands -/

/-- Admission of EXEC: PV_BAD_SLOT, then PV_NO_PROGRAM, then PV_INPUT_COUNT, and otherwise `BUSY <- 1`, the header registers are
copied from the image, the payload is copied, and no worker has started (41_executor.md R121, 60_exceptions.md R201, R203). -/
def Obligations.ExecAdmission : Prop :=
  ∀ (s : State) (q sel : Nat) (u : Inst) (c : Command), s.Accepts q u c →
    (3 + s.config.nUser ≤ sel → exec (.exec sel) s = .next (s.faulted q u c.word .pvBadSlot (min sel 0xFFFFFF))) ∧
    (sel < 3 + s.config.nUser → s.slotValidWord.getLsbD sel = false → sel < 32 →
      exec (.exec sel) s = .next (s.faulted q u c.word .pvNoProgram sel)) ∧
    (sel < 3 + s.config.nUser → s.slotOk sel = true →
      (∀ bits : List EncBit, c.payload = bits.map .bit → bits.length ≠ imageNIn (s.image sel)) →
      exec (.exec sel) s = .next (s.faulted q u c.word .pvInputCount (suppliedLength c))) ∧
    (∀ bits : List EncBit, sel < 3 + s.config.nUser → s.slotOk sel = true → c.payload = bits.map .bit →
      bits.length = imageNIn (s.image sel) →
      exec (.exec sel) s = .next { s with insts := s.insts.set q { u with
        busy := true, cmd := c.word, slot := sel, args := c.payload, bits := bits, phase := .start
        nIn := imageNIn (s.image sel), n := imageN (s.image sel), nOut := imageNOut (s.image sel) } })

/-- The start phase of EXEC, and of the inner EXEC of SBOX, INVSBOX and MIXCOL, is one atomic step: the present wires are exactly
the inputs, in order, `NEXT` is 0, and each of the `W` workers is idle (41_executor.md R122, 43_sbox.md R172, R175,
44_mixcolumns.md R192). Before it no worker takes a step; that a worker's move then changes only the model's own `plan` and `tick`
is the model's choice (notes/assumptions/5.md). -/
def Obligations.StartPhaseLoadsTheInputs : Prop :=
  (∀ (s : State) (q : Nat) (u : Inst) (i : Instr), s.Runs q u → u.phase = .start →
    (i = .exec u.slot ∨ i = .sbox ∨ i = .invsbox ∨ i = .mixcol) →
    ∃ u', exec i s = .next { s with insts := s.insts.set q u' } ∧
      u' = { u with wires := u'.wires, next := 0, workers := u'.workers, phase := .run } ∧
      (∀ x, cellGet u'.wires x = u.bits[x]?) ∧ u'.workers = List.replicate s.config.w .idle) ∧
    ∀ (s : State) (q w : Nat) (u : Inst), s.acting = .worker q w → s.insts[q]? = some u → u.phase = .start →
      step s = .next { s with plan := s.plan.tail, tick := s.tick + 1 }

/-- The join. While some worker of a running EXEC has not exited, its sequencer does not take the output copy; that its move, if it
is given one, leaves the block as it is, is the model's choice (notes/assumptions/19.md). When every worker has exited,
`NEXT = N + W`, and a wire is present exactly when it is below `N_IN + N` (41_executor.md R128, R122, 10_state.md R22). -/
def Obligations.JoinHasEveryWire : Prop :=
  ∀ (s : State) (q : Nat) (u : Inst), s.Inv → s.insts[q]? = some u → u.busy = true → u.phase = .run →
    ((∃ w, w ∈ u.workers ∧ w ≠ .exited) → ∀ i, s.acting = .seq q →
      (i = .exec u.slot ∨ i = .sbox ∨ i = .invsbox ∨ i = .mixcol) → exec i s = .next s) ∧
    ((∀ w ∈ u.workers, w = .exited) →
      u.next.toNat = u.n + s.config.w ∧ ∀ x, u.present x = true ↔ x < u.nIn + u.n)

/-- EXEC completes, in three steps of its sequencer at the join: the output copy takes the values of the selected wires, with
`STATUS` and `BUSY` as they were; then `STATUS` is 0, with `BUSY` as it was; then `BUSY` is 0 and the values are returned. Nothing
else changes (41_executor.md R120, R129). -/
def Obligations.ExecCompletes : Prop :=
  ∀ (s : State) (q : Nat) (u : Inst), s.Inv → s.Runs q u → u.phase = .run → (∀ w ∈ u.workers, w = .exited) →
    ∃ (t1 t2 : State) (outs : List EncBit),
      outs.length = u.nOut ∧
      (∀ j, j < u.nOut → cellGet u.wires (imageSelector (s.image u.slot) u.n j) = outs[j]?) ∧
      exec (.exec u.slot) s = .next t1 ∧ exec (.exec u.slot) t1 = .next t2 ∧
      t1 = { s with insts := s.insts.set q { u with bits := outs, result := outs.map .bit, phase := .status } } ∧
      t2 = { s with insts := s.insts.set q { u with
        bits := outs, result := outs.map .bit, phase := .release, status := 0 } } ∧
      exec (.exec u.slot) t2 = .next (s.returned q
        { u with bits := outs, result := outs.map .bit, phase := .release } u.cmd (outs.map .bit))

/-- SBOX, INVSBOX and MIXCOL begin: PV_NO_TABLE, then PV_INPUT_COUNT for a payload that is not 1 (for MIXCOL 4) encrypted
bytes; otherwise the command is accepted and the DECOMPOSE of each byte hands the bits to the EXEC of ROM slot 0, 1 or 2
(43_sbox.md R172, R175, 44_mixcolumns.md R192). That DECOMPOSE is one step after the acceptance, that `SLOT` is written at the
acceptance and `N_IN`, `N` and `N_OUT` in that step, is the model's choice (notes/assumptions/9.md). That DECOMPOSE's results
are the engine's calls also on a table that breaks the position-value duty, where 93_implementation_defined.md I20 allows any
value, is the model's choice (notes/assumptions/22.md). -/
def Obligations.CompositesBegin : Prop :=
  ∀ (s : State) (q : Nat) (u : Inst) (c : Command) (i : Instr) (slot count : Nat), s.Accepts q u c →
    ((i = .sbox ∧ slot = 0 ∧ count = 1) ∨ (i = .invsbox ∧ slot = 1 ∧ count = 1) ∨ (i = .mixcol ∧ slot = 2 ∧ count = 4)) →
    (s.pvValid = false → exec i s = .next (s.faulted q u c.word .pvNoTable 0)) ∧
    (s.pvValid = true → (∀ bytes : List EncByte, c.payload = bytes.map .byte → bytes.length ≠ count) →
      exec i s = .next (s.faulted q u c.word .pvInputCount (suppliedLength c))) ∧
    (∀ bytes : List EncByte, s.pvValid = true → c.payload = bytes.map .byte → bytes.length = count →
      ∃ t, exec i s = .next t ∧
        t = { s with insts := s.insts.set q { u with
          busy := true, cmd := c.word, slot := slot, args := c.payload, phase := .decompose } } ∧
        exec i t = .next { s with insts := s.insts.set q { u with
          busy := true, cmd := c.word, slot := slot, args := c.payload
          bits := (bytes.mapIdx (fun j b => s.pv.powers.mapIdx (fun i p =>
            (s.call (16 * j + (2 * i + 1))).byteEqual ((s.call (16 * j + 2 * i)).byteAnd p b) p))).flatten
          nIn := imageNIn (s.image slot), n := imageN (s.image slot), nOut := imageNOut (s.image slot)
          phase := .start } })

/-- SBOX, INVSBOX and MIXCOL complete: at the join of the inner EXEC the outputs are copied, then recomposed byte by byte, then
`STATUS` is written, once, and then `BUSY` is 0 and the bytes are returned (43_sbox.md R172, R175, 44_mixcolumns.md R192). That
these are four steps, RECOMPOSE one of them, is the model's choice (notes/assumptions/9.md). That RECOMPOSE's results are the
engine's calls also on a table that breaks the position-value duty, where 93_implementation_defined.md I20 allows any value, is
the model's choice (notes/assumptions/22.md). -/
def Obligations.CompositesComplete : Prop :=
  ∀ (s : State) (q : Nat) (u : Inst) (i : Instr), s.Inv → s.Runs q u → u.phase = .run →
    (∀ w ∈ u.workers, w = .exited) → (i = .sbox ∨ i = .invsbox ∨ i = .mixcol) →
    ∃ (t1 t2 t3 : State) (outs : List EncBit) (bytes : List EncByte),
      outs.length = u.nOut ∧
      (∀ j, j < u.nOut → cellGet u.wires (imageSelector (s.image u.slot) u.n j) = outs[j]?) ∧
      bytes = recomposeAll s.call s.pv outs ∧
      exec i s = .next t1 ∧ exec i t1 = .next t2 ∧ exec i t2 = .next t3 ∧
      t1 = { s with insts := s.insts.set q { u with bits := outs, phase := .recompose } } ∧
      t2 = { s with insts := s.insts.set q { u with bits := outs, result := bytes.map .byte, phase := .status } } ∧
      t3 = { s with insts := s.insts.set q { u with
        bits := outs, result := bytes.map .byte, phase := .release, status := 0 } } ∧
      exec i t3 = .next (s.returned q
        { u with bits := outs, result := bytes.map .byte, phase := .release } u.cmd (bytes.map .byte))

/-- What EXEC, SBOX, INVSBOX and MIXCOL leave unchanged in every step of their sequencer: the configuration, the table, the
program store, every other executor; and of their own executor the wire file, `NEXT` and the workers in every step but the start
phase (20_memory.md R56, R57, 10_state.md R20). -/
def Obligations.PhasesFrame : Prop :=
  ∀ (i : Instr) (s t : State), (i = .sbox ∨ i = .invsbox ∨ i = .mixcol ∨ ∃ sel, i = .exec sel) → exec i s = .next t →
    t.config = s.config ∧ t.pvValid = s.pvValid ∧ t.pv = s.pv ∧ t.slots = s.slots ∧ t.slotValid = s.slotValid ∧
    t.plan = s.plan ∧ t.tick = s.tick ∧
    ∃ q u u', s.acting = .seq q ∧ s.insts[q]? = some u ∧ t.insts[q]? = some u' ∧
      (∀ p, p ≠ q → t.insts[p]? = s.insts[p]?) ∧
      (u.busy = true ∧ u.phase = .start ∨
        (u'.wires = u.wires ∧ u'.next = u.next ∧ u'.workers = u.workers))

/-! ## LOAD_PROG -/

/-- LOAD_PROG refuses by cause: PV_BAD_SLOT for a slot that does not exist, CE_ROM_SLOT for a ROM slot, PV_INPUT_COUNT for a
payload that is not words, and the failing construction check, which also clears the slot's valid bit (41_executor.md R140,
60_exceptions.md R201, R205). -/
def Obligations.LoadProgRefusesByCause : Prop :=
  ∀ (s : State) (q sel : Nat) (u : Inst) (c : Command), s.Accepts q u c → sel < 32 →
    (3 + s.config.nUser ≤ sel → exec (.loadProg sel) s = .next (s.faulted q u c.word .pvBadSlot sel)) ∧
    (sel < 3 + s.config.nUser → sel ≤ 2 → exec (.loadProg sel) s = .next (s.faulted q u c.word .ceRomSlot sel)) ∧
    (sel < 3 + s.config.nUser → 3 ≤ sel → (∀ v ∈ s.insts, v.busy = true → v.slot ≠ sel) →
      (∀ img : List Word, c.payload ≠ img.map .word) →
      exec (.loadProg sel) s = .next (s.faulted q u c.word .pvInputCount (suppliedLength c))) ∧
    (∀ (img : List Word) (cause : Cause) (detail : Nat), sel < 3 + s.config.nUser → 3 ≤ sel →
      (∀ v ∈ s.insts, v.busy = true → v.slot ≠ sel) → c.payload = img.map .word → check img = some (cause, detail) →
      ∃ t, exec (.loadProg sel) s = .next t ∧ t = { s.faulted q u c.word cause detail with slotValid := t.slotValid } ∧
        ∀ b, t.slotValid.getLsbD b = (s.slotValid.getLsbD b && decide (b ≠ sel)))

/-- LOAD_PROG of a checked image to a user slot that no executor runs stores it and sets the slot's valid bit, and only these
(41_executor.md R140). -/
def Obligations.LoadProgStoresACheckedImage : Prop :=
  ∀ (s : State) (q sel : Nat) (u : Inst) (c : Command) (img : List Word), s.Accepts q u c → sel < 32 →
    sel < 3 + s.config.nUser → 3 ≤ sel → (∀ v ∈ s.insts, v.busy = true → v.slot ≠ sel) →
    c.payload = img.map .word → check img = none →
    ∃ t, exec (.loadProg sel) s = .next t ∧
      t = { s.returned q u c.word [] with slots := t.slots, slotValid := t.slotValid } ∧
      t.image sel = img ∧ (∀ k, k ≠ sel → t.image k = s.image k) ∧
      ∀ b, b < 32 → t.slotValid.getLsbD b = (s.slotValid.getLsbD b || decide (b = sel))

/-- A LOAD_PROG to a slot that some executor is running is held at the port (20_memory.md R57). That it is held before its payload is
looked at, keeping its place at the port, and that the move of its sequencer leaves the block as it is, are the model's choices
(notes/assumptions/10.md, notes/assumptions/19.md). -/
def Obligations.LoadProgIsHeldWhileTheSlotRuns : Prop :=
  ∀ (s : State) (q sel : Nat) (u v : Inst) (c : Command), s.Accepts q u c → sel < 3 + s.config.nUser → 3 ≤ sel →
    v ∈ s.insts → v.busy = true → v.slot = sel → exec (.loadProg sel) s = .next s

/-- The construction check accepts exactly the legal images (41_executor.md R141, 30_encoding.md R73, R74, R76, R77, R79, R80). -/
def Obligations.CheckAcceptsExactlyTheLegalImages : Prop :=
  ∀ img : List Word, check img = none ↔ ImageLegal img

/-- The construction check reports the first failure, in the order of 30_encoding.md R81, with the DETAIL of 60_exceptions.md R204: an
image of fewer than three words is CE_SIZE with 0; the first header word with a reserved bit is CE_RESERVED_NONZERO with its index;
then a broken limit or a wrong length is CE_SIZE with 0 (60_exceptions.md R201, 41_executor.md R141); then the first illegal gate is
its cause with `3 + k`; then the first illegal output selector is its cause with `3 + N + j`. -/
def Obligations.CheckReportsTheFirstFailure : Prop :=
  (∀ img : List Word, img.length < 3 → check img = some (.ceSize, 0)) ∧
    ∀ img : List Word, 3 ≤ img.length →
      (∀ a, a < 3 → headerReserved (memRead img a) ≠ 0 → (∀ b, b < a → headerReserved (memRead img b) = 0) →
        check img = some (.ceReservedNonzero, a)) ∧
      ((∀ a, a < 3 → headerReserved (memRead img a) = 0) →
        (¬ sizeLegal img → check img = some (.ceSize, 0)) ∧
        (sizeLegal img →
          (∀ k cause, k < imageN img → (∀ j, j < k → gateFailure (imageNIn img) j (imageGate img j) = none) →
            gateFailure (imageNIn img) k (imageGate img k) = some cause → check img = some (cause, 3 + k)) ∧
          ((∀ k, k < imageN img → gateFailure (imageNIn img) k (imageGate img k) = none) →
            ∀ j cause, j < imageNOut img →
              (∀ i, i < j →
                selectorFailure (imageNIn img + imageN img) (memRead img (3 + imageN img + i)) = none) →
              selectorFailure (imageNIn img + imageN img) (memRead img (3 + imageN img + j)) = some cause →
              check img = some (cause, 3 + imageN img + j))))

/-- Vectors of the construction check (95_test_vectors.md section 2.2, K1, K3, K9, K10, K12, K14, K15, K17, K19). -/
def Obligations.CheckMeetsTheVectors : Prop :=
  check [] = some (.ceSize, 0) ∧
    check [0x00010001, 0, 1, 0] = some (.ceReservedNonzero, 0) ∧
    check [3, 1, 1, 0xC0000001, 3] = some (.ceUnknownOperator, 3) ∧
    check [3, 1, 1, 0x80000001, 3] = some (.ceReservedNonzero, 3) ∧
    check [3, 1, 1, 3, 3] = some (.ceDanglingOperand, 3) ∧
    check [3, 1, 1, 1, 0x8003] = some (.ceReservedNonzero, 4) ∧
    check [3, 1, 1, 1, 4] = some (.ceMissingOutput, 4) ∧
    check [3, 1, 1, 1, 2] = none ∧ check [0x7FFF, 1, 1, 0, 0x7FFF] = none

/-! ## The codec -/

/-- LOAD_PV: PV_TABLE_LOCKED once a table is installed, PV_INPUT_COUNT unless the payload is nine encrypted bytes, and otherwise
`PV[i]` is byte `i`, `PVZ` is byte 8 and `PV_VALID` is 1 (42_codec.md R150). -/
def Obligations.LoadPvInstallsTheTable : Prop :=
  ∀ (s : State) (q : Nat) (u : Inst) (c : Command), s.Accepts q u c →
    (s.pvValid = true → exec .loadPv s = .next (s.faulted q u c.word .pvTableLocked 0)) ∧
    (s.pvValid = false → (∀ bytes : List EncByte, c.payload = bytes.map .byte → bytes.length ≠ 9) →
      exec .loadPv s = .next (s.faulted q u c.word .pvInputCount (suppliedLength c))) ∧
    (∀ bytes : List EncByte, s.pvValid = false → c.payload = bytes.map .byte → bytes.length = 9 →
      ∃ t, exec .loadPv s = .next { s.returned q u c.word [] with pv := t, pvValid := true } ∧ t.powers ++ [t.pvz] = bytes)

/-- DECOMPOSE: PV_NO_TABLE, then PV_INPUT_COUNT, and otherwise the eight bits `E.byte_equal(E.byte_and(PV[i], b), PV[i])`, as
the engine answers the step's 16 calls in order, with `STATUS` 0 (42_codec.md R152, R154). That the result is these calls also
on a table that breaks the position-value duty, where 93_implementation_defined.md I20 allows any value, is the model's choice
(notes/assumptions/22.md). -/
def Obligations.DecomposeReturnsEightBits : Prop :=
  ∀ (s : State) (q : Nat) (u : Inst) (c : Command), s.Accepts q u c →
    (s.pvValid = false → exec .decompose s = .next (s.faulted q u c.word .pvNoTable 0)) ∧
    (s.pvValid = true → (∀ b, c.payload ≠ [.byte b]) →
      exec .decompose s = .next (s.faulted q u c.word .pvInputCount (suppliedLength c))) ∧
    (∀ b, s.pvValid = true → c.payload = [.byte b] →
      exec .decompose s = .next (s.returned q u c.word
        (s.pv.powers.mapIdx (fun i p => .bit ((s.call (2 * i + 1)).byteEqual ((s.call (2 * i)).byteAnd p b) p)))))

/-- RECOMPOSE: PV_NO_TABLE, then PV_INPUT_COUNT, and otherwise the root of the fixed tree of ORs over the eight selects, as the
engine answers the step's 15 calls, with `STATUS` 0 (42_codec.md R155, R156). That the result is these calls also on a table
that breaks the position-value duty, where 93_implementation_defined.md I20 allows any value, is the model's choice
(notes/assumptions/22.md). -/
def Obligations.RecomposeReturnsTheTree : Prop :=
  ∀ (s : State) (q : Nat) (u : Inst) (c : Command), s.Accepts q u c →
    (s.pvValid = false → exec .recompose s = .next (s.faulted q u c.word .pvNoTable 0)) ∧
    (s.pvValid = true → (∀ bits : List EncBit, c.payload = bits.map .bit → bits.length ≠ 8) →
      exec .recompose s = .next (s.faulted q u c.word .pvInputCount (suppliedLength c))) ∧
    (∀ b0 b1 b2 b3 b4 b5 b6 b7 : EncBit, s.pvValid = true →
      c.payload = [.bit b0, .bit b1, .bit b2, .bit b3, .bit b4, .bit b5, .bit b6, .bit b7] →
      exec .recompose s = .next (s.returned q u c.word [.byte
        ((s.call 14).byteOr
          ((s.call 12).byteOr
            ((s.call 8).byteOr ((s.call 0).select b0 s.pv.pv0 s.pv.pvz) ((s.call 1).select b1 s.pv.pv1 s.pv.pvz))
            ((s.call 9).byteOr ((s.call 2).select b2 s.pv.pv2 s.pv.pvz) ((s.call 3).select b3 s.pv.pv3 s.pv.pvz)))
          ((s.call 13).byteOr
            ((s.call 10).byteOr ((s.call 4).select b4 s.pv.pv4 s.pv.pvz) ((s.call 5).select b5 s.pv.pv5 s.pv.pvz))
            ((s.call 11).byteOr ((s.call 6).select b6 s.pv.pv6 s.pv.pvz) ((s.call 7).select b7 s.pv.pv7 s.pv.pvz))))]))

/-- The decompose law: under the position-value duty, bit `i` of DECOMPOSE decrypts to bit `i` of the byte, however the engine answers
the calls (42_codec.md R153). -/
def Obligations.DecomposeLaw : Prop :=
  ∀ (s : State) (t : PvTable) (b : EncByte), t.Duty →
    (decomposeByte s.call t b).map Config.engine.decb = byteBits (Config.engine.decB b)

/-- The recompose law: under the position-value duty, RECOMPOSE decrypts to the sum of its bits at their weights, however the engine
answers the calls (42_codec.md R157). -/
def Obligations.RecomposeLaw : Prop :=
  ∀ (s : State) (t : PvTable) (b0 b1 b2 b3 b4 b5 b6 b7 : EncBit), t.Duty →
    (Config.engine.decB (recomposeBits s.call t b0 b1 b2 b3 b4 b5 b6 b7)).toNat =
      (Config.engine.decb b0).toNat * 1 + (Config.engine.decb b1).toNat * 2 + (Config.engine.decb b2).toNat * 4 +
        (Config.engine.decb b3).toNat * 8 + (Config.engine.decb b4).toNat * 16 + (Config.engine.decb b5).toNat * 32 +
        (Config.engine.decb b6).toNat * 64 + (Config.engine.decb b7).toNat * 128

/-- The round-trip laws: under the position-value duty, RECOMPOSE undoes DECOMPOSE and DECOMPOSE undoes RECOMPOSE, in plaintext, each
command run in a state of its own (42_codec.md R158). -/
def Obligations.CodecRoundTrip : Prop :=
  ∀ (s s' : State) (t : PvTable), t.Duty →
    (∀ b : EncByte, (recomposeAll s'.call t (decomposeByte s.call t b)).map Config.engine.decB = [Config.engine.decB b]) ∧
    (∀ b0 b1 b2 b3 b4 b5 b6 b7 : EncBit,
      (decomposeByte s'.call t (recomposeBits s.call t b0 b1 b2 b3 b4 b5 b6 b7)).map Config.engine.decb =
        [b0, b1, b2, b3, b4, b5, b6, b7].map Config.engine.decb)

/-- What the commands that run in one step leave unchanged when they answer a next state: the configuration, every other
executor, and of their own executor everything but `STATUS`, `BUSY` and the port; the table unless the command is LOAD_PV; every
slot's image and valid bit but the slot of a LOAD_PROG (42_codec.md R159, 10_state.md R25, R34, 41_executor.md R140). -/
def Obligations.OneStepCommandsFrame : Prop :=
  ∀ (i : Instr) (s t : State),
    (i = .loadPv ∨ i = .decompose ∨ i = .recompose ∨ (∃ r, i = .readReg r) ∨ ∃ sel, i = .loadProg sel ∧ sel < 32) →
    exec i s = .next t →
    t.config = s.config ∧ t.plan = s.plan ∧ t.tick = s.tick ∧
    (i ≠ .loadPv → t.pv = s.pv ∧ t.pvValid = s.pvValid) ∧
    (∀ k, i ≠ .loadProg k → t.image k = s.image k) ∧
    (∀ k, k < 32 → i ≠ .loadProg k → t.slotValid.getLsbD k = s.slotValid.getLsbD k) ∧
    ∃ q u u', s.acting = .seq q ∧ s.insts[q]? = some u ∧ t.insts = s.insts.set q u' ∧
      u' = { u with status := u'.status, busy := false, port := u'.port }

/-! ## Registers -/

/-- READ_REG returns the register numbered `SEL`: 0 is this executor's STATUS, 1 is PV_STATE, 2 is CONFIG, 3 is SLOT_VALID, every
other number reads 0; `STATUS` stays. A payload that is not empty raises PV_INPUT_COUNT (60_exceptions.md R215, 10_state.md
R29). -/
def Obligations.ReadRegReturnsTheRegister : Prop :=
  ∀ (s : State) (q sel : Nat) (u : Inst) (c : Command), s.Accepts q u c →
    (c.payload = [] →
      exec (.readReg sel) s = .next { s with
        insts := s.insts.set q u
        replies := s.replies ++ [⟨q, c.word, [.word
          (if sel = 0 then u.status
          else if sel = 1 then (if s.pvValid then 1 else 0)
          else if sel = 2 then BitVec.ofNat 32 (s.config.w % 256 + s.config.nUser % 256 * 2 ^ 8 + s.config.nInst % 256 * 2 ^ 16)
          else if sel = 3 then s.slotValidWord
          else 0)]⟩] }) ∧
    (c.payload ≠ [] → exec (.readReg sel) s = .next (s.faulted q u c.word .pvInputCount (suppliedLength c)))

/-- SLOT_VALID reads 1 in bits 0, 1 and 2, 0 in the bits from `3 + N_USER` on, and the slot's valid bit in between, which is the
bit EXEC tests (10_state.md R33, 41_executor.md R121). -/
def Obligations.SlotValidHardwiredBits : Prop :=
  ∀ (s : State) (b : Nat), s.config.nUser ≤ 29 → b < 32 →
    (b ≤ 2 → s.slotValidWord.getLsbD b = true) ∧
    (3 + s.config.nUser ≤ b → s.slotValidWord.getLsbD b = false) ∧
    (3 ≤ b → b < 3 + s.config.nUser → s.slotValidWord.getLsbD b = s.slotValid.getLsbD b) ∧
    s.slotOk b = s.slotValidWord.getLsbD b

/-! ## Reset and the host -/

/-- Reset leaves the values the spec gives: no wire present, `NEXT` 0, `W` idle workers, `BUSY` 0, `STATUS` 0, on every one of the
`N_INST` executors; `PV_VALID` 0, `SLOT_VALID` 7, and the ROM programs in slots 0 to 2 (10_state.md R48, R49). -/
def Obligations.ResetLeavesTheSpecsValues : Prop :=
  ∀ p : Params, p.Legal →
    (State.resetWith p).config = p ∧ (State.resetWith p).pvValid = false ∧ (State.resetWith p).slotValidWord = 7 ∧
    (State.resetWith p).image 0 = p.rom.sboxFwd ∧ (State.resetWith p).image 1 = p.rom.sboxInv ∧
    (State.resetWith p).image 2 = p.rom.mixcol ∧ (State.resetWith p).insts.length = p.nInst ∧
    ∀ u ∈ (State.resetWith p).insts, (∀ i, u.present i = false) ∧ u.next = 0 ∧
      u.workers = List.replicate p.w .idle ∧ u.busy = false ∧ u.status = 0

/-- The host's reset is taken only while every executor is idle, and puts the block to its reset values, keeping the fault
history (70_reset_and_hazards.md R230, 60_exceptions.md R207). While an executor is busy a reset has no move (70_reset_and_hazards.md
R243); that the model, asked for one, changes nothing but its own `plan` and `tick`, is its choice (notes/assumptions/20.md,
notes/assumptions/5.md). What a reset does with commands waiting at a port is the model's choice too (notes/assumptions/11.md) and
is not stated. -/
def Obligations.ResetOnlyWhileIdle : Prop :=
  ∀ (s : State) (rest : List Move), s.plan = .host .reset :: rest →
    ((∃ u ∈ s.insts, u.busy = true) → step s = .next s.advance) ∧
    ((∀ u ∈ s.insts, u.busy = false) →
      ∃ t, step s = .next t ∧ t.config = s.config ∧ t.pvValid = false ∧ t.slotValid = 7 ∧ t.faults = s.faults ∧
        (s.config.Legal → t.insts.length = s.config.nInst) ∧
        ∀ u ∈ t.insts, (∀ i, u.present i = false) ∧ u.next = 0 ∧ u.workers = List.replicate s.config.w .idle ∧
          u.busy = false ∧ u.status = 0)

/-- A command issued to an executor goes to its port, and no step takes a command from the port of a busy executor: it is held
there until `BUSY = 0` (30_encoding.md R87, 10_state.md R36). That the port is a queue is the model's choice
(notes/assumptions/11.md). -/
def Obligations.CommandsAreHeldWhileBusy : Prop :=
  (∀ (s : State) (q : Nat) (u : Inst) (c : Command) (rest : List Move), s.plan = .host (.issue q c) :: rest →
      s.insts[q]? = some u →
      step s = .next (s.setInst q { u with port := u.port ++ [c] }).advance) ∧
    ∀ (s t : State) (q : Nat) (u : Inst), s.Inv → step s = .next t → s.insts[q]? = some u → u.busy = true →
      ∃ u' more, t.insts[q]? = some u' ∧ u'.port = u.port ++ more

/-! ## Whole-machine rules -/

/-- `CONFIG` is hardwired, and once `PV_VALID = 1` no step but a reset by the host writes the position-value table (10_state.md
R32, R34, 42_codec.md R151). -/
def Obligations.TableIsReadOnlyWithinASession : Prop :=
  ∀ s t : State, step s = .next t →
    t.config = s.config ∧
      (s.pvValid = true → s.acting ≠ .host .reset → t.pvValid = true ∧ t.pv = s.pv)

/-- The fault history is never cleared: every step keeps it and may add to it (60_exceptions.md R207). -/
def Obligations.HistoryIsNeverCleared : Prop :=
  ∀ s t : State, step s = .next t → ∃ more, t.faults = s.faults ++ more

/-- Faults are precise: a command that records a fault changes nothing but its executor's `STATUS`, `BUSY` and port and the
history, except that a LOAD_PROG that fails the construction check clears its slot's valid bit; and it records one fault, with the
cause and detail it writes to `STATUS` (60_exceptions.md R205, R207). -/
def Obligations.FaultsArePrecise : Prop :=
  ∀ (i : Instr) (s t : State), exec i s = .next t → t.faults ≠ s.faults →
    ∃ q u c cause detail, s.Accepts q u c ∧
      t = { s.faulted q u c.word cause detail with slotValid := t.slotValid } ∧
      ((∃ sel, i = .loadProg sel ∧ cause.isConstruction = true ∧ cause ≠ .ceRomSlot ∧
          t.slotValid = s.slotValid &&& ~~~ BitVec.ofNat 32 (2 ^ sel)) ∨
        t.slotValid = s.slotValid)

/-- No step of one executor's sequencer or workers changes another executor (60_exceptions.md R206, 41_executor.md R143,
20_memory.md R62). -/
def Obligations.ExecutorsDoNotInteract : Prop :=
  ∀ (s t : State) (q p : Nat), (s.acting = .seq q ∨ ∃ w, s.acting = .worker q w) → step s = .next t → p ≠ q →
    t.insts[p]? = s.insts[p]?

/-- While an executor is busy, no step changes the image of the slot it runs (20_memory.md R57, R65). -/
def Obligations.RunningImageIsStable : Prop :=
  ∀ (s t : State) (q : Nat) (u : Inst), step s = .next t → s.insts[q]? = some u → u.busy = true →
    t.image u.slot = s.image u.slot

/-- Single assignment: while an EXEC runs, no step overwrites a present wire, and `NEXT` never decreases and never passes `N + W`
(10_state.md R23, R26). -/
def Obligations.WiresAreSingleAssignment : Prop :=
  ∀ (s t : State) (q : Nat) (u u' : Inst), s.Inv → step s = .next t → s.insts[q]? = some u → u.running = true →
    t.insts[q]? = some u' → u'.running = true →
    (∀ i v, cellGet u.wires i = some v → cellGet u'.wires i = some v) ∧
      u.next.toNat ≤ u'.next.toNat ∧ u'.next.toNat ≤ u'.n + s.config.w

/-- The invariant and the reference values hold at reset, for every legal configuration. -/
def Obligations.ResetMeetsTheInvariant : Prop :=
  State.reset.Inv ∧ State.reset.Values ∧
    ∀ p : Params, p.Legal → (State.resetWith p).Inv ∧ (State.resetWith p).Values

/-- Every step keeps the invariant: the parameters stay legal, the stores stay canonical, a valid slot holds a checked image, a
busy executor is in order, and outside the worker phase no worker is in flight (10_state.md R21, R23, R33, R36, 41_executor.md R122
to R128, 60_exceptions.md R214). -/
def Obligations.StepKeepsTheInvariant : Prop :=
  ∀ s t : State, s.Inv → step s = .next t → t.Inv

/-- From every state that meets the invariant the step answers a next state: no agent ever gets stuck, so no gate, claim, hold,
join or output copy can fault (60_exceptions.md R202, 41_executor.md R126, R129). -/
def Obligations.StepNeverStops : Prop :=
  ∀ s : State, s.Inv → ∃ t, step s = .next t

/-- Every step keeps the reference values: whatever agent moves, each present wire of each running EXEC holds its value in
`Ref(prog, in)`: one that decrypts alike, and with a deterministic engine the same ciphertext (41_executor.md R131, R132,
10_state.md R46). -/
def Obligations.StepKeepsReferenceValues : Prop :=
  ∀ s t : State, s.Inv → s.Values → step s = .next t → t.Values

/-- Determinism, said of any two executors at their joins, whatever their worker counts and however they came there: the outputs of
each are those of `Ref(prog, in)`, so for one image and inputs that decrypt alike they decrypt alike, and for equal inputs they are
equal ciphertexts where both engines are deterministic (41_executor.md R131, 10_state.md R46). That steps keep the premises is
StepKeepsTheInvariant and StepKeepsReferenceValues. -/
def Obligations.OutputsDoNotDependOnTheSchedule : Prop :=
  ∀ (s1 s2 : State) (q1 q2 : Nat) (u1 u2 : Inst) (img : List Word), s1.Inv → s2.Inv → s1.Values → s2.Values →
    s1.insts[q1]? = some u1 → s2.insts[q2]? = some u2 → u1.running = true → u2.running = true →
    u1.joined = true → u2.joined = true → s1.image u1.slot = img → s2.image u2.slot = img →
    ∃ outs1 outs2, u1.outputs img = .ok outs1 ∧ u2.outputs img = .ok outs2 ∧
      sameBits s1.config.deterministic outs1 (refBits img u1.bits) ∧
      sameBits s2.config.deterministic outs2 (refBits img u2.bits) ∧
      (u1.bits.map Config.engine.decb = u2.bits.map Config.engine.decb →
        outs1.map Config.engine.decb = outs2.map Config.engine.decb) ∧
      (u1.bits = u2.bits → s1.config.deterministic = true → s2.config.deterministic = true → outs1 = outs2)

/-- No deadlock: while an EXEC runs and has not joined, some worker has an enabled step (41_executor.md R130). A worker's move
changes its executor exactly when its step is enabled (R123, R125, R126); that the move of a worker without an enabled step, if it
is given one, changes only the model's own `plan` and `tick`, is the model's choice (notes/assumptions/19.md,
notes/assumptions/5.md). -/
def Obligations.SomeWorkerCanMove : Prop :=
  ∀ (s : State) (q : Nat) (u : Inst), s.Inv → s.insts[q]? = some u → u.running = true →
    (u.joined = false → ∃ w, w < s.config.w ∧ s.workerEnabled q w = true) ∧
    ∀ w, (s.workerEnabled q w = true →
        ∃ t u', step { s with plan := [.worker q w] } = .next t ∧ t.insts[q]? = some u' ∧ u' ≠ u) ∧
      (s.workerEnabled q w = false →
        step { s with plan := [.worker q w] } = .next { s with plan := [], tick := s.tick + 1 })

/-- Progress: under every schedule that is weakly fair to the workers of its executor, whatever other agents move in between and
however often its own sequencer is given the move, EXEC comes to its join, and runs its worker phase until then (41_executor.md
R130, R127). -/
def Obligations.WeaklyFairSchedulesReachTheJoin : Prop :=
  ∀ (s : State) (q : Nat) (u : Inst) (schedule : Nat → Move), s.Inv → s.insts[q]? = some u → u.running = true →
    s.WeaklyFair q schedule →
    ∃ n t u', s.upTo schedule n = .next t ∧ t.insts[q]? = some u' ∧ u'.running = true ∧ u'.joined = true ∧
      ∀ m, m < n → ∃ t' v, s.upTo schedule m = .next t' ∧ t'.insts[q]? = some v ∧ v.running = true

/-- How soon the join comes: whatever other agents move in between, while its own sequencer waits, after `2 · N + W` rounds that
each give every worker a move, EXEC has reached its join (41_executor.md R130, R127). -/
def Obligations.FairRoundsReachTheJoin : Prop :=
  ∀ (s : State) (q : Nat) (u : Inst) (rounds : List (List Move)), s.Inv → s.insts[q]? = some u → u.running = true →
    (∀ r ∈ rounds, fairRound q s.config.w r) → 2 * u.n + s.config.w ≤ rounds.length →
    ∃ t u', s.after rounds.flatten = .next t ∧ t.insts[q]? = some u' ∧ u'.running = true ∧ u'.joined = true

/-- EXEC answers the reference: from acceptance on, after any moves of any agents, either it is still under way or the first result
returned for its executor is the outputs of `Ref(prog, in)`: bits that decrypt alike, and with a deterministic engine the same
ciphertexts (41_executor.md R121, R131, R137, 10_state.md R46). -/
def Obligations.ExecAnswersTheReference : Prop :=
  ∀ (s t : State) (q sel : Nat) (ins : List EncBit) (moves : List Move), s.Inv → s.Values →
    s.ExecUnderWay q sel ins → s.after moves = .next t →
    (t.firstReply s.replies.length q = none ∧ t.ExecUnderWay q sel ins ∧ t.image sel = s.image sel) ∨
    (∃ r outs, t.firstReply s.replies.length q = some r ∧ r.result = outs.map .bit ∧
      sameBits s.config.deterministic outs (refBits (s.image sel) ins))

/-! ## The circuits -/

/-- The reference program SBOX_FWD computes the FIPS-197 S-box, bit by bit, under every engine that meets the laws (43_sbox.md R171,
R173, R178); and so does every program that may stand in its place in the ROM (R177). -/
def Obligations.SboxProgramComputesTheTable : Prop :=
  ∀ (E : Engine) (v : BitVec 8) (ins : List EncBit), E.Laws → ins.map E.decb = byteBits v →
    (refOutputs E.gates sboxFwdImage ins).map E.decb = byteBits (sboxTable v) ∧
      ∀ r : Rom, r.Legal → (refOutputs E.gates r.sboxFwd ins).map E.decb = byteBits (sboxTable v)

/-- The reference program SBOX_INV computes the inverse S-box under every engine that meets the laws (43_sbox.md R174, R176, R179);
and so does every program that may stand in its place in the ROM (R177). -/
def Obligations.InvsboxProgramComputesTheTable : Prop :=
  ∀ (E : Engine) (v : BitVec 8) (ins : List EncBit), E.Laws → ins.map E.decb = byteBits v →
    (refOutputs E.gates sboxInvImage ins).map E.decb = byteBits (invSboxTable v) ∧
      ∀ r : Rom, r.Legal → (refOutputs E.gates r.sboxInv ins).map E.decb = byteBits (invSboxTable v)

/-- The reference program MIXCOL computes the AES MixColumns transform of a column under every engine that meets the laws
(44_mixcolumns.md R190, R191); and so does every program that may stand in its place in the ROM (R195). -/
def Obligations.MixcolProgramComputesTheMatrix : Prop :=
  ∀ (E : Engine) (a : List (BitVec 8)) (ins : List EncBit), E.Laws → a.length = 4 → ins.map E.decb = a.flatMap byteBits →
    (refOutputs E.gates mixcolImage ins).map E.decb = (mixColumn a).flatMap byteBits ∧
      ∀ r : Rom, r.Legal → (refOutputs E.gates r.mixcol ins).map E.decb = (mixColumn a).flatMap byteBits

/-- The forward contract: under the position-value duty, from acceptance on, after any moves of any agents, either SBOX is still
under way or the first result returned for its executor is one byte that decrypts to `SBOX_TABLE[decB(b)]` (43_sbox.md R173). -/
def Obligations.SboxAnswersTheTable : Prop :=
  ∀ (s t : State) (q : Nat) (b : EncByte) (moves : List Move), s.Inv → s.Values → s.PvDuty →
    s.CompositeUnderWay q .sbox 0 [b] → s.after moves = .next t →
    (t.firstReply s.replies.length q = none ∧ t.CompositeUnderWay q .sbox 0 [b] ∧ t.PvDuty) ∨
    (∃ (r : Reply) (c : EncByte), t.firstReply s.replies.length q = some r ∧ r.result = [.byte c] ∧
      Config.engine.decB c = sboxTable (Config.engine.decB b))

/-- The inverse contract: likewise INVSBOX answers a byte that decrypts to `INV_SBOX_TABLE[decB(b)]` (43_sbox.md R176). -/
def Obligations.InvsboxAnswersTheTable : Prop :=
  ∀ (s t : State) (q : Nat) (b : EncByte) (moves : List Move), s.Inv → s.Values → s.PvDuty →
    s.CompositeUnderWay q .invsbox 1 [b] → s.after moves = .next t →
    (t.firstReply s.replies.length q = none ∧ t.CompositeUnderWay q .invsbox 1 [b] ∧ t.PvDuty) ∨
    (∃ (r : Reply) (c : EncByte), t.firstReply s.replies.length q = some r ∧ r.result = [.byte c] ∧
      Config.engine.decB c = invSboxTable (Config.engine.decB b))

/-- The MixColumns contract: likewise MIXCOL answers four bytes that decrypt to the product of the matrix and the column
(44_mixcolumns.md R190). -/
def Obligations.MixcolAnswersTheMatrix : Prop :=
  ∀ (s t : State) (q : Nat) (a0 a1 a2 a3 : EncByte) (moves : List Move), s.Inv → s.Values → s.PvDuty →
    s.CompositeUnderWay q .mixcol 2 [a0, a1, a2, a3] → s.after moves = .next t →
    (t.firstReply s.replies.length q = none ∧ t.CompositeUnderWay q .mixcol 2 [a0, a1, a2, a3] ∧ t.PvDuty) ∨
    (∃ (r : Reply) (b : List EncByte), t.firstReply s.replies.length q = some r ∧ r.result = b.map .byte ∧
      b.map Config.engine.decB = mixColumn ([a0, a1, a2, a3].map Config.engine.decB))

/-! ## The text form -/

/-- A program in text with an input and an output that the host's tools translate passes the construction check
(30_encoding.md R83, 41_executor.md R141, R142). R83 lists no error for a program that is too large for a header: that the
translation refuses it with CE_SIZE, on which this rests, is the model's choice (notes/assumptions/18.md). -/
def Obligations.TranslatedTextPassesTheCheck : Prop :=
  ∀ (p : TextProgram) (img : List Word), p.inputs ≠ [] → p.outputs ≠ [] → assemble p = .ok img → check img = none
end

