-- ==== Sys2Proof/Laws/State.lean ====
section
/-! SUPPORT. The fields of State and Inst after each update, one lemma a field, true by rfl. -/

namespace Sys2Proof.Machine

@[simp] theorem setInst_config (s : State) (q : Nat) (u : Inst) : (s.setInst q u).config = s.config := rfl
@[simp] theorem setInst_pvValid (s : State) (q : Nat) (u : Inst) : (s.setInst q u).pvValid = s.pvValid := rfl
@[simp] theorem setInst_pv (s : State) (q : Nat) (u : Inst) : (s.setInst q u).pv = s.pv := rfl
@[simp] theorem setInst_slots (s : State) (q : Nat) (u : Inst) : (s.setInst q u).slots = s.slots := rfl
@[simp] theorem setInst_slotValid (s : State) (q : Nat) (u : Inst) : (s.setInst q u).slotValid = s.slotValid := rfl
@[simp] theorem setInst_insts (s : State) (q : Nat) (u : Inst) : (s.setInst q u).insts = s.insts.set q u := rfl
@[simp] theorem setInst_faults (s : State) (q : Nat) (u : Inst) : (s.setInst q u).faults = s.faults := rfl
@[simp] theorem setInst_replies (s : State) (q : Nat) (u : Inst) : (s.setInst q u).replies = s.replies := rfl
@[simp] theorem setInst_plan (s : State) (q : Nat) (u : Inst) : (s.setInst q u).plan = s.plan := rfl
@[simp] theorem setInst_tick (s : State) (q : Nat) (u : Inst) : (s.setInst q u).tick = s.tick := rfl

@[simp] theorem advance_config (s : State) : (s.advance).config = s.config := rfl
@[simp] theorem advance_pvValid (s : State) : (s.advance).pvValid = s.pvValid := rfl
@[simp] theorem advance_pv (s : State) : (s.advance).pv = s.pv := rfl
@[simp] theorem advance_slots (s : State) : (s.advance).slots = s.slots := rfl
@[simp] theorem advance_slotValid (s : State) : (s.advance).slotValid = s.slotValid := rfl
@[simp] theorem advance_insts (s : State) : (s.advance).insts = s.insts := rfl
@[simp] theorem advance_faults (s : State) : (s.advance).faults = s.faults := rfl
@[simp] theorem advance_replies (s : State) : (s.advance).replies = s.replies := rfl
@[simp] theorem advance_plan (s : State) : (s.advance).plan = s.plan.tail := rfl
@[simp] theorem advance_tick (s : State) : (s.advance).tick = s.tick + 1 := rfl

@[simp] theorem raise_config (s : State) (q : Nat) (u : Inst) (w : Word) (c : Cause) (d : Nat) (l : Option Nat)
    : (raise s q u w c d l).config = s.config := rfl
@[simp] theorem raise_pvValid (s : State) (q : Nat) (u : Inst) (w : Word) (c : Cause) (d : Nat) (l : Option Nat)
    : (raise s q u w c d l).pvValid = s.pvValid := rfl
@[simp] theorem raise_pv (s : State) (q : Nat) (u : Inst) (w : Word) (c : Cause) (d : Nat) (l : Option Nat)
    : (raise s q u w c d l).pv = s.pv := rfl
@[simp] theorem raise_slots (s : State) (q : Nat) (u : Inst) (w : Word) (c : Cause) (d : Nat) (l : Option Nat)
    : (raise s q u w c d l).slots = s.slots := rfl
@[simp] theorem raise_slotValid (s : State) (q : Nat) (u : Inst) (w : Word) (c : Cause) (d : Nat) (l : Option Nat)
    : (raise s q u w c d l).slotValid = slotValidAfter s.slotValid c l := rfl
@[simp] theorem raise_insts (s : State) (q : Nat) (u : Inst) (w : Word) (c : Cause) (d : Nat) (l : Option Nat)
    : (raise s q u w c d l).insts = s.insts.set q { u with status := statusWord c d, busy := false } := rfl
@[simp] theorem raise_faults (s : State) (q : Nat) (u : Inst) (w : Word) (c : Cause) (d : Nat) (l : Option Nat)
    : (raise s q u w c d l).faults = s.faults ++ [⟨q, w, c, saturateDetail d⟩] := rfl
@[simp] theorem raise_replies (s : State) (q : Nat) (u : Inst) (w : Word) (c : Cause) (d : Nat) (l : Option Nat)
    : (raise s q u w c d l).replies = s.replies := rfl
@[simp] theorem raise_plan (s : State) (q : Nat) (u : Inst) (w : Word) (c : Cause) (d : Nat) (l : Option Nat)
    : (raise s q u w c d l).plan = s.plan := rfl
@[simp] theorem raise_tick (s : State) (q : Nat) (u : Inst) (w : Word) (c : Cause) (d : Nat) (l : Option Nat)
    : (raise s q u w c d l).tick = s.tick := rfl

@[simp] theorem giveBack_config (s : State) (q : Nat) (u : Inst) (w : Word) (r : Payload) : (giveBack s q u w r).config = s.config := rfl
@[simp] theorem giveBack_pvValid (s : State) (q : Nat) (u : Inst) (w : Word) (r : Payload) : (giveBack s q u w r).pvValid = s.pvValid := rfl
@[simp] theorem giveBack_pv (s : State) (q : Nat) (u : Inst) (w : Word) (r : Payload) : (giveBack s q u w r).pv = s.pv := rfl
@[simp] theorem giveBack_slots (s : State) (q : Nat) (u : Inst) (w : Word) (r : Payload) : (giveBack s q u w r).slots = s.slots := rfl
@[simp] theorem giveBack_slotValid (s : State) (q : Nat) (u : Inst) (w : Word) (r : Payload) : (giveBack s q u w r).slotValid = s.slotValid := rfl
@[simp] theorem giveBack_insts (s : State) (q : Nat) (u : Inst) (w : Word) (r : Payload) : (giveBack s q u w r).insts = s.insts.set q { u with busy := false } := rfl
@[simp] theorem giveBack_faults (s : State) (q : Nat) (u : Inst) (w : Word) (r : Payload) : (giveBack s q u w r).faults = s.faults := rfl
@[simp] theorem giveBack_replies (s : State) (q : Nat) (u : Inst) (w : Word) (r : Payload) : (giveBack s q u w r).replies = s.replies ++ [⟨q, w, r⟩] := rfl
@[simp] theorem giveBack_plan (s : State) (q : Nat) (u : Inst) (w : Word) (r : Payload) : (giveBack s q u w r).plan = s.plan := rfl
@[simp] theorem giveBack_tick (s : State) (q : Nat) (u : Inst) (w : Word) (r : Payload) : (giveBack s q u w r).tick = s.tick := rfl

@[simp] theorem complete_config (s : State) (q : Nat) (u : Inst) (w : Word) (r : Payload) : (complete s q u w r).config = s.config := rfl
@[simp] theorem complete_pvValid (s : State) (q : Nat) (u : Inst) (w : Word) (r : Payload) : (complete s q u w r).pvValid = s.pvValid := rfl
@[simp] theorem complete_pv (s : State) (q : Nat) (u : Inst) (w : Word) (r : Payload) : (complete s q u w r).pv = s.pv := rfl
@[simp] theorem complete_slots (s : State) (q : Nat) (u : Inst) (w : Word) (r : Payload) : (complete s q u w r).slots = s.slots := rfl
@[simp] theorem complete_slotValid (s : State) (q : Nat) (u : Inst) (w : Word) (r : Payload) : (complete s q u w r).slotValid = s.slotValid := rfl
@[simp] theorem complete_insts (s : State) (q : Nat) (u : Inst) (w : Word) (r : Payload) : (complete s q u w r).insts = s.insts.set q { u with status := statusWord .ok 0, busy := false } := rfl
@[simp] theorem complete_faults (s : State) (q : Nat) (u : Inst) (w : Word) (r : Payload) : (complete s q u w r).faults = s.faults := rfl
@[simp] theorem complete_replies (s : State) (q : Nat) (u : Inst) (w : Word) (r : Payload) : (complete s q u w r).replies = s.replies ++ [⟨q, w, r⟩] := rfl
@[simp] theorem complete_plan (s : State) (q : Nat) (u : Inst) (w : Word) (r : Payload) : (complete s q u w r).plan = s.plan := rfl
@[simp] theorem complete_tick (s : State) (q : Nat) (u : Inst) (w : Word) (r : Payload) : (complete s q u w r).tick = s.tick := rfl

@[simp] theorem storeImage_config (s : State) (sel : Nat) (img : List Word) : (s.storeImage sel img).config = s.config := rfl
@[simp] theorem storeImage_pvValid (s : State) (sel : Nat) (img : List Word) : (s.storeImage sel img).pvValid = s.pvValid := rfl
@[simp] theorem storeImage_pv (s : State) (sel : Nat) (img : List Word) : (s.storeImage sel img).pv = s.pv := rfl
@[simp] theorem storeImage_slots (s : State) (sel : Nat) (img : List Word) : (s.storeImage sel img).slots = cellPut s.slots sel img := rfl
@[simp] theorem storeImage_slotValid (s : State) (sel : Nat) (img : List Word) : (s.storeImage sel img).slotValid = setSlotBit s.slotValid sel := rfl
@[simp] theorem storeImage_insts (s : State) (sel : Nat) (img : List Word) : (s.storeImage sel img).insts = s.insts := rfl
@[simp] theorem storeImage_faults (s : State) (sel : Nat) (img : List Word) : (s.storeImage sel img).faults = s.faults := rfl
@[simp] theorem storeImage_replies (s : State) (sel : Nat) (img : List Word) : (s.storeImage sel img).replies = s.replies := rfl
@[simp] theorem storeImage_plan (s : State) (sel : Nat) (img : List Word) : (s.storeImage sel img).plan = s.plan := rfl
@[simp] theorem storeImage_tick (s : State) (sel : Nat) (img : List Word) : (s.storeImage sel img).tick = s.tick := rfl

@[simp] theorem restart_config (s : State) : (s.restart).config = s.config := rfl
@[simp] theorem restart_pvValid (s : State) : (s.restart).pvValid = false := rfl
@[simp] theorem restart_pv (s : State) : (s.restart).pv = PvTable.unloaded := rfl
@[simp] theorem restart_slots (s : State) : (s.restart).slots = [] := rfl
@[simp] theorem restart_slotValid (s : State) : (s.restart).slotValid = 7 := rfl
@[simp] theorem restart_insts (s : State) : (s.restart).insts =
    Inst.reset s.config.w :: List.replicate (s.config.nInst - 1) (Inst.reset s.config.w) := rfl
@[simp] theorem restart_faults (s : State) : (s.restart).faults = s.faults := rfl
@[simp] theorem restart_replies (s : State) : (s.restart).replies = s.replies := rfl
@[simp] theorem restart_plan (s : State) : (s.restart).plan = s.plan := rfl
@[simp] theorem restart_tick (s : State) : (s.restart).tick = s.tick := rfl

@[simp] theorem startRun_wires (u : Inst) (w : Nat) : (u.startRun w).wires = wiresFrom 0 u.bits := rfl
@[simp] theorem startRun_next (u : Inst) (w : Nat) : (u.startRun w).next = 0 := rfl
@[simp] theorem startRun_workers (u : Inst) (w : Nat) : (u.startRun w).workers = List.replicate w .idle := rfl
@[simp] theorem startRun_busy (u : Inst) (w : Nat) : (u.startRun w).busy = u.busy := rfl
@[simp] theorem startRun_cmd (u : Inst) (w : Nat) : (u.startRun w).cmd = u.cmd := rfl
@[simp] theorem startRun_slot (u : Inst) (w : Nat) : (u.startRun w).slot = u.slot := rfl
@[simp] theorem startRun_nIn (u : Inst) (w : Nat) : (u.startRun w).nIn = u.nIn := rfl
@[simp] theorem startRun_n (u : Inst) (w : Nat) : (u.startRun w).n = u.n := rfl
@[simp] theorem startRun_nOut (u : Inst) (w : Nat) : (u.startRun w).nOut = u.nOut := rfl
@[simp] theorem startRun_status (u : Inst) (w : Nat) : (u.startRun w).status = u.status := rfl
@[simp] theorem startRun_phase (u : Inst) (w : Nat) : (u.startRun w).phase = .run := rfl
@[simp] theorem startRun_args (u : Inst) (w : Nat) : (u.startRun w).args = u.args := rfl
@[simp] theorem startRun_bits (u : Inst) (w : Nat) : (u.startRun w).bits = u.bits := rfl
@[simp] theorem startRun_result (u : Inst) (w : Nat) : (u.startRun w).result = u.result := rfl
@[simp] theorem startRun_port (u : Inst) (w : Nat) : (u.startRun w).port = u.port := rfl

@[simp] theorem claim_wires (u : Inst) (w : Nat) : (u.claim w).wires = u.wires := rfl
@[simp] theorem claim_next (u : Inst) (w : Nat) : (u.claim w).next = u.next + 1 := rfl
@[simp] theorem claim_workers (u : Inst) (w : Nat) : (u.claim w).workers = 
    u.workers.set w (if u.n ≤ u.next.toNat then .exited else .claimed u.next.toNat) := rfl
@[simp] theorem claim_busy (u : Inst) (w : Nat) : (u.claim w).busy = u.busy := rfl
@[simp] theorem claim_cmd (u : Inst) (w : Nat) : (u.claim w).cmd = u.cmd := rfl
@[simp] theorem claim_slot (u : Inst) (w : Nat) : (u.claim w).slot = u.slot := rfl
@[simp] theorem claim_nIn (u : Inst) (w : Nat) : (u.claim w).nIn = u.nIn := rfl
@[simp] theorem claim_n (u : Inst) (w : Nat) : (u.claim w).n = u.n := rfl
@[simp] theorem claim_nOut (u : Inst) (w : Nat) : (u.claim w).nOut = u.nOut := rfl
@[simp] theorem claim_status (u : Inst) (w : Nat) : (u.claim w).status = u.status := rfl
@[simp] theorem claim_phase (u : Inst) (w : Nat) : (u.claim w).phase = u.phase := rfl
@[simp] theorem claim_args (u : Inst) (w : Nat) : (u.claim w).args = u.args := rfl
@[simp] theorem claim_bits (u : Inst) (w : Nat) : (u.claim w).bits = u.bits := rfl
@[simp] theorem claim_result (u : Inst) (w : Nat) : (u.claim w).result = u.result := rfl
@[simp] theorem claim_port (u : Inst) (w : Nat) : (u.claim w).port = u.port := rfl

@[simp] theorem evaluate_wires (u : Inst) (w k : Nat) (v : EncBit) : (u.evaluate w k v).wires = cellPut u.wires (u.nIn + k) v := rfl
@[simp] theorem evaluate_next (u : Inst) (w k : Nat) (v : EncBit) : (u.evaluate w k v).next = u.next := rfl
@[simp] theorem evaluate_workers (u : Inst) (w k : Nat) (v : EncBit) : (u.evaluate w k v).workers = u.workers.set w .idle := rfl
@[simp] theorem evaluate_busy (u : Inst) (w k : Nat) (v : EncBit) : (u.evaluate w k v).busy = u.busy := rfl
@[simp] theorem evaluate_cmd (u : Inst) (w k : Nat) (v : EncBit) : (u.evaluate w k v).cmd = u.cmd := rfl
@[simp] theorem evaluate_slot (u : Inst) (w k : Nat) (v : EncBit) : (u.evaluate w k v).slot = u.slot := rfl
@[simp] theorem evaluate_nIn (u : Inst) (w k : Nat) (v : EncBit) : (u.evaluate w k v).nIn = u.nIn := rfl
@[simp] theorem evaluate_n (u : Inst) (w k : Nat) (v : EncBit) : (u.evaluate w k v).n = u.n := rfl
@[simp] theorem evaluate_nOut (u : Inst) (w k : Nat) (v : EncBit) : (u.evaluate w k v).nOut = u.nOut := rfl
@[simp] theorem evaluate_status (u : Inst) (w k : Nat) (v : EncBit) : (u.evaluate w k v).status = u.status := rfl
@[simp] theorem evaluate_phase (u : Inst) (w k : Nat) (v : EncBit) : (u.evaluate w k v).phase = u.phase := rfl
@[simp] theorem evaluate_args (u : Inst) (w k : Nat) (v : EncBit) : (u.evaluate w k v).args = u.args := rfl
@[simp] theorem evaluate_bits (u : Inst) (w k : Nat) (v : EncBit) : (u.evaluate w k v).bits = u.bits := rfl
@[simp] theorem evaluate_result (u : Inst) (w k : Nat) (v : EncBit) : (u.evaluate w k v).result = u.result := rfl
@[simp] theorem evaluate_port (u : Inst) (w k : Nat) (v : EncBit) : (u.evaluate w k v).port = u.port := rfl

@[simp] theorem copyHeader_wires (u : Inst) (img : List Word) : (u.copyHeader img).wires = u.wires := rfl
@[simp] theorem copyHeader_next (u : Inst) (img : List Word) : (u.copyHeader img).next = u.next := rfl
@[simp] theorem copyHeader_workers (u : Inst) (img : List Word) : (u.copyHeader img).workers = u.workers := rfl
@[simp] theorem copyHeader_busy (u : Inst) (img : List Word) : (u.copyHeader img).busy = u.busy := rfl
@[simp] theorem copyHeader_cmd (u : Inst) (img : List Word) : (u.copyHeader img).cmd = u.cmd := rfl
@[simp] theorem copyHeader_slot (u : Inst) (img : List Word) : (u.copyHeader img).slot = u.slot := rfl
@[simp] theorem copyHeader_nIn (u : Inst) (img : List Word) : (u.copyHeader img).nIn = imageNIn img := rfl
@[simp] theorem copyHeader_n (u : Inst) (img : List Word) : (u.copyHeader img).n = imageN img := rfl
@[simp] theorem copyHeader_nOut (u : Inst) (img : List Word) : (u.copyHeader img).nOut = imageNOut img := rfl
@[simp] theorem copyHeader_status (u : Inst) (img : List Word) : (u.copyHeader img).status = u.status := rfl
@[simp] theorem copyHeader_phase (u : Inst) (img : List Word) : (u.copyHeader img).phase = u.phase := rfl
@[simp] theorem copyHeader_args (u : Inst) (img : List Word) : (u.copyHeader img).args = u.args := rfl
@[simp] theorem copyHeader_bits (u : Inst) (img : List Word) : (u.copyHeader img).bits = u.bits := rfl
@[simp] theorem copyHeader_result (u : Inst) (img : List Word) : (u.copyHeader img).result = u.result := rfl
@[simp] theorem copyHeader_port (u : Inst) (img : List Word) : (u.copyHeader img).port = u.port := rfl

@[simp] theorem bitsAreResult_wires (u : Inst) : (u.bitsAreResult).wires = u.wires := rfl
@[simp] theorem bitsAreResult_next (u : Inst) : (u.bitsAreResult).next = u.next := rfl
@[simp] theorem bitsAreResult_workers (u : Inst) : (u.bitsAreResult).workers = u.workers := rfl
@[simp] theorem bitsAreResult_busy (u : Inst) : (u.bitsAreResult).busy = u.busy := rfl
@[simp] theorem bitsAreResult_cmd (u : Inst) : (u.bitsAreResult).cmd = u.cmd := rfl
@[simp] theorem bitsAreResult_slot (u : Inst) : (u.bitsAreResult).slot = u.slot := rfl
@[simp] theorem bitsAreResult_nIn (u : Inst) : (u.bitsAreResult).nIn = u.nIn := rfl
@[simp] theorem bitsAreResult_n (u : Inst) : (u.bitsAreResult).n = u.n := rfl
@[simp] theorem bitsAreResult_nOut (u : Inst) : (u.bitsAreResult).nOut = u.nOut := rfl
@[simp] theorem bitsAreResult_status (u : Inst) : (u.bitsAreResult).status = u.status := rfl
@[simp] theorem bitsAreResult_phase (u : Inst) : (u.bitsAreResult).phase = .status := rfl
@[simp] theorem bitsAreResult_args (u : Inst) : (u.bitsAreResult).args = u.args := rfl
@[simp] theorem bitsAreResult_bits (u : Inst) : (u.bitsAreResult).bits = u.bits := rfl
@[simp] theorem bitsAreResult_result (u : Inst) : (u.bitsAreResult).result = u.bits.map .bit := rfl
@[simp] theorem bitsAreResult_port (u : Inst) : (u.bitsAreResult).port = u.port := rfl

@[simp] theorem bitsAreRecomposed_wires (u : Inst) : (u.bitsAreRecomposed).wires = u.wires := rfl
@[simp] theorem bitsAreRecomposed_next (u : Inst) : (u.bitsAreRecomposed).next = u.next := rfl
@[simp] theorem bitsAreRecomposed_workers (u : Inst) : (u.bitsAreRecomposed).workers = u.workers := rfl
@[simp] theorem bitsAreRecomposed_busy (u : Inst) : (u.bitsAreRecomposed).busy = u.busy := rfl
@[simp] theorem bitsAreRecomposed_cmd (u : Inst) : (u.bitsAreRecomposed).cmd = u.cmd := rfl
@[simp] theorem bitsAreRecomposed_slot (u : Inst) : (u.bitsAreRecomposed).slot = u.slot := rfl
@[simp] theorem bitsAreRecomposed_nIn (u : Inst) : (u.bitsAreRecomposed).nIn = u.nIn := rfl
@[simp] theorem bitsAreRecomposed_n (u : Inst) : (u.bitsAreRecomposed).n = u.n := rfl
@[simp] theorem bitsAreRecomposed_nOut (u : Inst) : (u.bitsAreRecomposed).nOut = u.nOut := rfl
@[simp] theorem bitsAreRecomposed_status (u : Inst) : (u.bitsAreRecomposed).status = u.status := rfl
@[simp] theorem bitsAreRecomposed_phase (u : Inst) : (u.bitsAreRecomposed).phase = .recompose := rfl
@[simp] theorem bitsAreRecomposed_args (u : Inst) : (u.bitsAreRecomposed).args = u.args := rfl
@[simp] theorem bitsAreRecomposed_bits (u : Inst) : (u.bitsAreRecomposed).bits = u.bits := rfl
@[simp] theorem bitsAreRecomposed_result (u : Inst) : (u.bitsAreRecomposed).result = u.result := rfl
@[simp] theorem bitsAreRecomposed_port (u : Inst) : (u.bitsAreRecomposed).port = u.port := rfl

end Sys2Proof.Machine
end

