-- ==== Sys2Proof/Laws/Memory.lean ====
section
/-! SUPPORT. The numbered stores: a read after a write, and that every operation on a store keeps its canonical form. -/

namespace Sys2Proof.Machine

variable {α : Type}

theorem cellGet_cellPut_same (m : List (Nat × α)) (i : Nat) (v : α) : cellGet (cellPut m i v) i = some v := by
  induction m with
  | nil => simp [cellPut, cellGet]
  | cons c rest ih =>
    obtain ⟨j, u⟩ := c
    simp only [cellPut]
    split
    · simp [cellGet]
    · split
      · simp [cellGet]
      · rename_i h1 h2
        simp only [cellGet, ih]
        rw [if_neg (fun h => h2 h.symm)]

theorem cellGet_cellPut_other (m : List (Nat × α)) (i j : Nat) (v : α) (h : j ≠ i) :
    cellGet (cellPut m i v) j = cellGet m j := by
  induction m with
  | nil => simp [cellPut, cellGet, Ne.symm h]
  | cons c rest ih =>
    obtain ⟨k, u⟩ := c
    simp only [cellPut]
    split
    · simp [cellGet, Ne.symm h]
    · split
      · rename_i h1 h2
        subst h2
        simp [cellGet, Ne.symm h]
      · simp only [cellGet, ih]

/-- What a store reads after a write. -/
theorem cellGet_cellPut (m : List (Nat × α)) (i j : Nat) (v : α) :
    cellGet (cellPut m i v) j = if j = i then some v else cellGet m j := by
  split
  · subst_vars; exact cellGet_cellPut_same m j v
  · exact cellGet_cellPut_other m i j v ‹_›

theorem all_cellPut (p : Nat → Bool) (m : List (Nat × α)) (i : Nat) (v : α)
    (hm : m.all (fun c => p c.1) = true) (hi : p i = true) : (cellPut m i v).all (fun c => p c.1) = true := by
  induction m with
  | nil => simpa [cellPut] using hi
  | cons c rest ih =>
    obtain ⟨j, u⟩ := c
    simp only [List.all_cons, Bool.and_eq_true] at hm
    simp only [cellPut]
    split
    · simp [hi, hm.1, hm.2]
    · split
      · simp [hi, hm.2]
      · simp [hm.1, ih hm.2]

/-- Writing keeps the canonical form. -/
theorem cellsRising_cellPut (m : List (Nat × α)) (i : Nat) (v : α) (h : cellsRising m = true) :
    cellsRising (cellPut m i v) = true := by
  induction m with
  | nil => simp [cellPut, cellsRising]
  | cons c rest ih =>
    obtain ⟨j, u⟩ := c
    simp only [cellsRising, Bool.and_eq_true] at h
    simp only [cellPut]
    split
    · rename_i hij
      simp only [cellsRising, List.all_cons, Bool.and_eq_true, decide_eq_true_eq]
      refine ⟨⟨hij, ?_⟩, h.1, h.2⟩
      have := h.1
      simp only [List.all_eq_true, decide_eq_true_eq] at this ⊢
      exact fun x hx => Nat.lt_trans hij (this x hx)
    · split
      · rename_i h1 h2
        subst h2
        simp [cellsRising, h.1, h.2]
      · rename_i h1 h2
        simp only [cellsRising, Bool.and_eq_true]
        exact ⟨all_cellPut (fun k => decide (j < k)) rest i v h.1 (by simp; omega), ih h.2⟩

theorem wiresFrom_all_ge (i j : Nat) (bits : List EncBit) (h : j ≤ i) :
    (wiresFrom i bits).all (fun c => decide (j ≤ c.1)) = true := by
  induction bits generalizing i with
  | nil => rfl
  | cons b rest ih => simp [wiresFrom, h, ih (i + 1) (by omega)]

theorem cellsRising_wiresFrom (i : Nat) (bits : List EncBit) : cellsRising (wiresFrom i bits) = true := by
  induction bits generalizing i with
  | nil => rfl
  | cons b rest ih =>
    simp only [wiresFrom, cellsRising, ih, Bool.and_true]
    exact wiresFrom_all_ge (i + 1) (i + 1) rest (Nat.le_refl _)

theorem wiresFrom_all_lt (i n : Nat) (bits : List EncBit) (h : i + bits.length ≤ n) :
    (wiresFrom i bits).all (fun c => decide (c.1 < n)) = true := by
  induction bits generalizing i with
  | nil => rfl
  | cons b rest ih =>
    simp only [List.length_cons] at h
    simp only [wiresFrom, List.all_cons, Bool.and_eq_true, decide_eq_true_eq]
    exact ⟨by omega, ih (i + 1) (by omega)⟩

/-- The input wires read back as the inputs (41_executor.md R122). -/
theorem cellGet_wiresFrom (i j : Nat) (bits : List EncBit) :
    cellGet (wiresFrom i bits) j = if i ≤ j then bits[j - i]? else none := by
  induction bits generalizing i with
  | nil => simp [wiresFrom, cellGet]
  | cons b rest ih =>
    simp only [wiresFrom, cellGet, ih]
    rcases Nat.lt_trichotomy i j with h | h | h
    · rw [if_neg (by omega), if_pos (by omega), if_pos (by omega)]
      have : j - i = (j - (i + 1)) + 1 := by omega
      rw [this]; rfl
    · subst h; simp
    · rw [if_neg (by omega), if_neg (by omega), if_neg (by omega)]

/-- Each of the block's updates keeps `Memory.wf` (10_state.md R21): an executor whose wire file is canonical. -/
theorem Memory.wf_setInst (s : State) (q : Nat) (u : Inst) (h : Memory.wf s = true)
    (hr : cellsRising u.wires = true) (hl : u.wires.all (fun c => decide (c.1 < maxWires)) = true) :
    Memory.wf (s.setInst q u) = true := by
  simp only [Memory.wf, setInst_slots, setInst_insts, Bool.and_eq_true, List.all_eq_true] at h ⊢
  refine ⟨h.1, fun v hv => ?_⟩
  rcases List.mem_or_eq_of_mem_set hv with hv | rfl
  · exact h.2 v hv
  · exact ⟨hr, by simpa [List.all_eq_true] using hl⟩

theorem Memory.wf_inst (s : State) (q : Nat) (u : Inst) (h : Memory.wf s = true) (hu : s.insts[q]? = some u) :
    cellsRising u.wires = true ∧ u.wires.all (fun c => decide (c.1 < maxWires)) = true := by
  simp only [Memory.wf, Bool.and_eq_true, List.all_eq_true] at h
  have := h.2 u (List.mem_of_getElem? hu)
  simpa [List.all_eq_true] using this

theorem Memory.wf_storeImage (s : State) (sel : Nat) (img : List Word) (h : Memory.wf s = true) :
    Memory.wf (s.storeImage sel img) = true := by
  simp only [Memory.wf, storeImage_slots, storeImage_insts, Bool.and_eq_true] at h ⊢
  exact ⟨cellsRising_cellPut _ _ _ h.1, h.2⟩

theorem wf_evaluate (u : Inst) (w k : Nat) (v : EncBit) (hr : cellsRising u.wires = true)
    (hl : u.wires.all (fun c => decide (c.1 < maxWires)) = true) (hk : u.nIn + k < maxWires) :
    cellsRising (u.evaluate w k v).wires = true ∧
      (u.evaluate w k v).wires.all (fun c => decide (c.1 < maxWires)) = true :=
  ⟨cellsRising_cellPut _ _ _ hr, all_cellPut (fun i => decide (i < maxWires)) _ _ _ hl (by simpa using hk)⟩

theorem wf_startRun (u : Inst) (w : Nat) (h : u.bits.length ≤ maxWires) :
    cellsRising (u.startRun w).wires = true ∧ (u.startRun w).wires.all (fun c => decide (c.1 < maxWires)) = true :=
  ⟨cellsRising_wiresFrom 0 _, wiresFrom_all_lt 0 maxWires _ (by omega)⟩

theorem Memory.wf_resetWith (p : Params) : Memory.wf (State.resetWith p) = true := by
  simp [Memory.wf, State.resetWith, Inst.reset, cellsRising]

theorem Memory.wf_reset : Memory.wf State.reset = true := Memory.wf_resetWith _

theorem Memory.wf_restart (s : State) : Memory.wf s.restart = true := Memory.wf_resetWith s.config

end Sys2Proof.Machine
end

