-- ==== Sys2Proof/Laws/Ops.lean ====
section
/-! SUPPORT. What each shared operation can do, said once: whose move it is, accepting a command, the phases, the evaluate
step, the step itself. -/

namespace Sys2Proof.Machine

/-- With a sequencer's move, `onSequencer` hands its executor on. -/
theorem onSequencer_eq (s : State) (q : Nat) (u : Inst) (f : Nat → Inst → Outcome) (ha : s.acting = .seq q)
    (hu : s.insts[q]? = some u) : onSequencer s f = f q u := by
  simp [onSequencer, ha, hu]

/-- If `onSequencer` answers a next state, a sequencer had the move. -/
theorem onSequencer_next {s t : State} {f : Nat → Inst → Outcome} (h : onSequencer s f = .next t) :
    ∃ q u, s.acting = .seq q ∧ s.insts[q]? = some u ∧ f q u = .next t := by
  unfold onSequencer at h
  split at h
  · split at h
    · exact ⟨_, _, ‹_›, ‹_›, h⟩
    · cases h
  · cases h

/-- An accepted command is handed on, with the executor's record less the command. -/
theorem onPort_accepts {s : State} {q : Nat} {u : Inst} {c : Command} (f : Nat → Inst → Command → State)
    (h : s.Accepts q u c) : onPort s f = .next (f q u c) := by
  obtain ⟨ha, hu, hb⟩ := h
  simp only [onPort]
  rw [onSequencer_eq s q _ _ ha hu]
  cases u
  cases hb
  rfl

/-- If `onPort` answers a next state, it accepted a command. -/
theorem onPort_next {s t : State} {f : Nat → Inst → Command → State} (h : onPort s f = .next t) :
    ∃ q u c, s.Accepts q u c ∧ t = f q u c := by
  obtain ⟨q, v, ha, hv, h⟩ := onSequencer_next h
  split at h
  · rename_i c rest hb hp
    refine ⟨q, { v with port := rest }, c, ⟨ha, ?_, hb⟩, ?_⟩
    · rw [hv, ← hp]
    · exact (Host.Outcome.next.inj h).symm
  · cases h

/-- An idle executor's sequencer admits the command at its port. -/
theorem onPhases_accepts {s : State} {q : Nat} {u : Inst} {c : Command} (admission : State → Nat → Inst → Command → State)
    (g : Inst → Inst) (h : s.Accepts q u c) : onPhases s admission g = .next (admission s q u c) := by
  obtain ⟨ha, hu, hb⟩ := h
  simp only [onPhases]
  rw [onSequencer_eq s q _ _ ha hu]
  cases u
  cases hb
  rfl

/-- A busy executor's sequencer takes the next phase. -/
theorem onPhases_runs {s : State} {q : Nat} {u : Inst} (admission : State → Nat → Inst → Command → State)
    (g : Inst → Inst) (h : s.Runs q u) : onPhases s admission g = runPhase s q u g := by
  obtain ⟨ha, hu, hb⟩ := h
  simp only [onPhases]
  rw [onSequencer_eq s q _ _ ha hu]
  simp [hb]

/-- If `onPhases` answers a next state, it admitted a command or took a phase. -/
theorem onPhases_next {s t : State} {admission : State → Nat → Inst → Command → State} {g : Inst → Inst}
    (h : onPhases s admission g = .next t) :
    (∃ q u c, s.Accepts q u c ∧ t = admission s q u c) ∨ (∃ q u, s.Runs q u ∧ runPhase s q u g = .next t) := by
  obtain ⟨q, v, ha, hv, h⟩ := onSequencer_next h
  split at h
  · exact .inr ⟨q, v, ⟨ha, hv, ‹_›⟩, h⟩
  · rename_i c rest hb hp
    refine .inl ⟨q, { v with port := rest }, c, ⟨ha, ?_, hb⟩, (Host.Outcome.next.inj h).symm⟩
    rw [hv, ← hp]
  · cases h

/-- The evaluate step, once the operands are present. -/
theorem onWorker_evaluates {s : State} {q w k : Nat} {u : Inst} {value : Inst → Option EncBit} {v : EncBit}
    (h : s.Evaluates q w k u) (hv : value u = some v) (hk : u.nIn + k < maxWires) :
    onWorker s value = .next (s.setInst q (u.evaluate w k v)) := by
  obtain ⟨ha, hu, hr, hw⟩ := h
  simp [onWorker, ha, hu, hr, hw, hv, hk]

/-- While an operand is absent, the worker holds. -/
theorem onWorker_holds {s : State} {q w k : Nat} {u : Inst} {value : Inst → Option EncBit}
    (h : s.Evaluates q w k u) (hv : value u = none) : onWorker s value = .next s := by
  obtain ⟨ha, hu, hr, hw⟩ := h
  simp [onWorker, ha, hu, hr, hw, hv]

/-- If the evaluate step answers a next state, the worker held or wrote its wire. -/
theorem onWorker_next {s t : State} {value : Inst → Option EncBit} (h : onWorker s value = .next t) :
    ∃ q w k u, s.Evaluates q w k u ∧
      ((value u = none ∧ t = s) ∨
        (∃ v, value u = some v ∧ u.nIn + k < maxWires ∧ t = s.setInst q (u.evaluate w k v))) := by
  unfold onWorker at h
  split at h
  · split at h
    · split at h
      · refine ⟨_, _, _, _, ⟨‹_›, ‹_›, ‹_›, ‹_›⟩, ?_⟩
        split at h
        · exact .inl ⟨‹_›, (Host.Outcome.next.inj h).symm⟩
        · split at h
          · exact .inr ⟨_, ‹_›, ‹_›, (Host.Outcome.next.inj h).symm⟩
          · cases h
      · cases h
    · cases h
  · cases h

/-- What a phase can do, one case a phase. -/
theorem runPhase_next {s t : State} {q : Nat} {u : Inst} {g : Inst → Inst} (h : runPhase s q u g = .next t) :
    (u.phase = .decompose ∧ t = s.setInst q { u.copyHeader (s.image u.slot) with
        bits := decomposeAll s.call s.pv ((bytesOf u.args).getD []), phase := .start }) ∨
    (u.phase = .start ∧ t = s.setInst q (u.startRun s.config.w)) ∨
    (u.phase = .run ∧ u.joined = true ∧ ∃ outs, u.outputs (s.image u.slot) = .ok outs ∧
        t = s.setInst q (g { u with bits := outs })) ∨
    (u.phase = .run ∧ u.joined = false ∧ t = s) ∨
    (u.phase = .recompose ∧ t = s.setInst q
        { u with result := (recomposeAll s.call s.pv u.bits).map .byte, phase := .status }) ∨
    (u.phase = .status ∧ t = s.setInst q { u with status := statusWord .ok 0, phase := .release }) ∨
    (u.phase = .release ∧ t = giveBack s q u u.cmd u.result) := by
  unfold runPhase at h
  split at h <;> rename_i hp
  · exact .inl ⟨hp, (Host.Outcome.next.inj h).symm⟩
  · exact .inr (.inl ⟨hp, (Host.Outcome.next.inj h).symm⟩)
  · split at h
    · split at h
      · exact .inr (.inr (.inl ⟨hp, ‹_›, _, ‹_›, (Host.Outcome.next.inj h).symm⟩))
      · cases h
    · rename_i hj
      exact .inr (.inr (.inr (.inl ⟨hp, by simpa using hj, (Host.Outcome.next.inj h).symm⟩)))
  · exact .inr (.inr (.inr (.inr (.inl ⟨hp, (Host.Outcome.next.inj h).symm⟩))))
  · exact .inr (.inr (.inr (.inr (.inr (.inl ⟨hp, (Host.Outcome.next.inj h).symm⟩)))))
  · exact .inr (.inr (.inr (.inr (.inr (.inr ⟨hp, (Host.Outcome.next.inj h).symm⟩)))))

/-- The outputs are the values of the selected wires, all of them present (41_executor.md R129). -/
theorem selectOutputs_ok {wires : List (Nat × EncBit)} {os : List Nat} {bs : List EncBit}
    (h : selectOutputs wires os = .ok bs) : os.map (cellGet wires) = bs.map some := by
  induction os generalizing bs with
  | nil => cases h; rfl
  | cons o rest ih =>
    simp only [selectOutputs] at h
    split at h
    · cases h
    · rename_i b hb
      split at h
      · rename_i cs hcs
        cases h
        simp [hb, ih hcs]
      · cases h

/-- If every selected wire is present, the output copy succeeds. -/
theorem selectOutputs_of_present {wires : List (Nat × EncBit)} {os : List Nat}
    (h : ∀ o ∈ os, (cellGet wires o).isSome = true) : ∃ bs, selectOutputs wires os = .ok bs := by
  induction os with
  | nil => exact ⟨[], rfl⟩
  | cons o rest ih =>
    obtain ⟨bs, hbs⟩ := ih (fun o ho => h o (List.mem_cons_of_mem _ ho))
    obtain ⟨b, hb⟩ := Option.isSome_iff_exists.mp (h o List.mem_cons_self)
    exact ⟨b :: bs, by simp [selectOutputs, hb, hbs]⟩

/-- A payload reads as bits exactly when it is a list of bits (30_encoding.md R85). -/
theorem bitsOf_eq_some {p : Payload} {bits : List EncBit} : bitsOf p = some bits ↔ p = bits.map .bit := by
  induction p generalizing bits with
  | nil => cases bits <;> simp [bitsOf]
  | cons a r ih => cases a <;> cases bits <;> simp [bitsOf, ih, and_comm]

/-- A payload reads as bytes exactly when it is a list of bytes (30_encoding.md R85). -/
theorem bytesOf_eq_some {p : Payload} {bytes : List EncByte} : bytesOf p = some bytes ↔ p = bytes.map .byte := by
  induction p generalizing bytes with
  | nil => cases bytes <;> simp [bytesOf]
  | cons a r ih => cases a <;> cases bytes <;> simp [bytesOf, ih, and_comm]

/-- A payload reads as words exactly when it is a list of words (30_encoding.md R85). -/
theorem wordsOf_eq_some {p : Payload} {words : List Word} : wordsOf p = some words ↔ p = words.map .word := by
  induction p generalizing words with
  | nil => cases words <;> simp [wordsOf]
  | cons a r ih => cases a <;> cases words <;> simp [wordsOf, ih, and_comm]

/-- Raising a cause, said by the state it leaves: DETAIL saturates, and only LOAD_PROG's construction causes reach a valid
bit (60_exceptions.md R201, R205). -/
theorem raise_eq (s : State) (q : Nat) (u : Inst) (w : Word) (c : Cause) (d : Nat) (l : Option Nat) :
    raise s q u w c d l =
      { s.faulted q u w c (min d 0xFFFFFF) with slotValid := slotValidAfter s.slotValid c l } := by
  have : saturateDetail d = min d 0xFFFFFF := by unfold saturateDetail; split <;> omega
  simp [raise, State.faulted, statusWord, this]

/-- Raising a cause of any other command. -/
theorem raise_eq_faulted (s : State) (q : Nat) (u : Inst) (w : Word) (c : Cause) (d : Nat) :
    raise s q u w c d = s.faulted q u w c (min d 0xFFFFFF) := by
  rw [raise_eq]; rfl

theorem setInst_setInst (s : State) (q : Nat) (u v : Inst) : (s.setInst q u).setInst q v = s.setInst q v := by
  simp [State.setInst]

/-- An executor reads back as what was written to it. -/
theorem insts_set_self {l : List Inst} {q : Nat} {u v : Inst} (h : l[q]? = some u) : (l.set q v)[q]? = some v := by
  simp [(List.getElem?_eq_some_iff.mp h).1]

/-- Writing an executor back as it is changes nothing. -/
theorem insts_set_same {l : List Inst} {q : Nat} {u : Inst} (h : l[q]? = some u) : l.set q u = l := by
  obtain ⟨_, h2⟩ := List.getElem?_eq_some_iff.mp h
  rw [← h2, List.set_getElem_self]

/-- A step that answers a next state ran the instruction the acting agent holds, or took its step that runs none. -/
theorem step_next {s t : State} (h : step s = .next t) :
    (∃ i t', fetch s = .instr i ∧ exec i s = .next t' ∧ t = t'.advance) ∨
      (∃ t', fetch s = .control t' ∧ t = t'.advance) := by
  unfold step at h
  split at h
  · rename_i i hi
    refine .inl ⟨i, ?_⟩
    cases he : exec i s with
    | next t' => exact ⟨t', hi, rfl, by simpa [he, passMove] using h.symm⟩
    | fault r => simp [he, passMove] at h
    | refused r => simp [he, passMove] at h
  · rename_i t' ht
    exact .inr ⟨t', ht, by simpa [passMove] using h.symm⟩
  · cases h

end Sys2Proof.Machine
end

