-- ==== Sys2Proof/Laws/Run.lean ====
section
/-! SUPPORT. The worker phase: the start phase establishes `Inst.RunOk`, a claim and an evaluate step keep it, and what it
says at the join (41_executor.md R122, R123, R126, R128). -/

namespace Sys2Proof.Machine

theorem present_iff (u : Inst) (i : Nat) : u.present i = true ↔ ∃ v, cellGet u.wires i = some v := by
  simp [Inst.present, Option.isSome_iff_exists]

theorem getElem?_replicate_ne (n w : Nat) (k : Nat) : (List.replicate n Worker.idle)[w]? ≠ some (.claimed k) := by
  rw [List.getElem?_replicate]
  split <;> simp

/-- The start phase begins a worker phase in order (R122). -/
theorem startRun_runOk (u : Inst) (workers : Nat) (h : u.bits.length = u.nIn) : (u.startRun workers).RunOk workers where
  count := by simp
  claimed w k hw := absurd hw (by simpa using getElem?_replicate_ne workers w k)
  once w w' k hw := absurd hw (by simpa using getElem?_replicate_ne workers w k)
  exited := by simp [Inst.exitedCount, List.countP_replicate]
  present i := by
    simp only [present_iff, startRun_wires, cellGet_wiresFrom, startRun_nIn, startRun_next]
    constructor
    · rintro ⟨v, hv⟩
      left
      simp only [Nat.zero_le, if_true, Nat.sub_zero] at hv
      have := (List.getElem?_eq_some_iff.mp hv).1
      omega
    · rintro (hi | ⟨k, -, -, hk, -⟩)
      · exact ⟨u.bits[i], by simp [List.getElem?_eq_getElem (show i < u.bits.length by omega)]⟩
      · simp at hk

theorem exitedCount_le (u : Inst) : u.exitedCount ≤ u.workers.length := List.countP_le_length

/-- How many workers have exited after one of them changes. -/
theorem exitedCount_set (l : List Worker) (w : Nat) (a b : Worker) (h : l[w]? = some a) (ha : a ≠ .exited) :
    (l.set w b).countP (fun x => x == .exited) = l.countP (fun x => x == .exited) + (if b = .exited then 1 else 0) := by
  obtain ⟨hw, rfl⟩ := List.getElem?_eq_some_iff.mp h
  rw [List.countP_set hw]
  simp [ha]

/-- `NEXT` never passes `N + W` (10_state.md R26). -/
theorem runOk_next_le {u : Inst} {workers : Nat} (h : u.RunOk workers) : u.next.toNat ≤ u.n + workers := by
  have h1 := h.exited
  have h2 := exitedCount_le u
  rw [h.count] at h2
  omega

/-- A claim fetches and increments `NEXT` without wrapping (R123, R64). -/
theorem claim_next_toNat {u : Inst} {workers : Nat} (w : Nat) (h : u.RunOk workers) (hn : u.n + workers < 2 ^ 32 - 1) :
    (u.claim w).next.toNat = u.next.toNat + 1 := by
  have := runOk_next_le h
  have h1 : (1 : BitVec 32).toNat = 1 := rfl
  simp only [claim_next, BitVec.toNat_add, h1]
  omega

/-- A claim keeps the worker phase in order (R123). -/
theorem claim_runOk {u : Inst} {workers w : Nat} (h : u.RunOk workers) (hw : u.workers[w]? = some .idle)
    (hn : u.n + workers < 2 ^ 32 - 1) : (u.claim w).RunOk workers := by
  have hwl : w < u.workers.length := (List.getElem?_eq_some_iff.mp hw).1
  have hnext := claim_next_toNat w h hn
  have hget : ∀ x, (u.claim w).workers[x]? =
      if w = x then some (if u.n ≤ u.next.toNat then .exited else .claimed u.next.toNat) else u.workers[x]? := by
    intro x
    rw [claim_workers, List.getElem?_set]
    split
    · subst_vars; simp_all
    · rfl
  have hcl : ∀ x k, (u.claim w).workers[x]? = some (.claimed k) →
      (x = w ∧ u.next.toNat < u.n ∧ k = u.next.toNat) ∨ (x ≠ w ∧ u.workers[x]? = some (.claimed k)) := by
    intro x k hx
    rw [hget] at hx
    by_cases hxw : w = x
    · subst hxw
      rw [if_pos rfl] at hx
      split at hx
      · simp at hx
      · simp only [Option.some.injEq, Worker.claimed.injEq] at hx
        exact .inl ⟨rfl, by omega, hx.symm⟩
    · rw [if_neg hxw] at hx
      exact .inr ⟨fun h => hxw h.symm, hx⟩
  refine ⟨by simp [h.count], ?_, ?_, ?_, ?_⟩
  · intro x k hx
    rw [hnext, claim_n]
    rcases hcl x k hx with ⟨-, h1, rfl⟩ | ⟨-, h1⟩
    · omega
    · have := h.claimed x k h1; omega
  · intro x y k hx hy
    rcases hcl x k hx with ⟨hx1, hx2, hx3⟩ | ⟨hx1, hx2⟩ <;> rcases hcl y k hy with ⟨hy1, hy2, hy3⟩ | ⟨hy1, hy2⟩
    · omega
    · have := h.claimed y k hy2; omega
    · have := h.claimed x k hx2; omega
    · exact h.once x y k hx2 hy2
  · rw [hnext, claim_n]
    have h1 := h.exited
    simp only [Inst.exitedCount, claim_workers] at h1 ⊢
    rw [exitedCount_set _ _ _ _ hw (by simp), h1]
    by_cases hle : u.n ≤ u.next.toNat
    · simp only [hle, if_true]; omega
    · simp only [hle, if_false, reduceCtorEq]; omega
  · intro i
    have hp := h.present i
    have hfree : ∀ k, k < u.n → (k < (u.claim w).next.toNat ∧ (u.claim w).free k ↔ k < u.next.toNat ∧ u.free k) := by
      intro k hk
      rw [hnext]
      constructor
      · rintro ⟨h1, h2⟩
        have hne : k ≠ u.next.toNat := by
          rintro rfl
          exact h2 w (by rw [hget, if_pos rfl, if_neg (by omega)])
        refine ⟨by omega, fun x hx => ?_⟩
        refine h2 x ?_
        rw [hget, if_neg ?_, hx]
        rintro rfl
        rw [hw] at hx
        simp at hx
      · rintro ⟨h1, h2⟩
        refine ⟨by omega, fun x hx => ?_⟩
        rcases hcl x k hx with ⟨-, -, h3⟩ | ⟨-, h3⟩
        · omega
        · exact h2 x h3
    simp only [Inst.present, claim_wires, claim_nIn, claim_n] at hp ⊢
    rw [hp]
    constructor
    · rintro (hi | ⟨k, rfl, hk, h1⟩)
      · exact .inl hi
      · exact .inr ⟨k, rfl, hk, (hfree k hk).mpr h1⟩
    · rintro (hi | ⟨k, rfl, hk, h1⟩)
      · exact .inl hi
      · exact .inr ⟨k, rfl, hk, (hfree k hk).mp h1⟩

/-- An evaluate step keeps the worker phase in order (R126). -/
theorem evaluate_runOk {u : Inst} {workers w k : Nat} (v : EncBit) (h : u.RunOk workers)
    (hw : u.workers[w]? = some (.claimed k)) : (u.evaluate w k v).RunOk workers := by
  have hwl : w < u.workers.length := (List.getElem?_eq_some_iff.mp hw).1
  have hget : ∀ x, (u.evaluate w k v).workers[x]? = if w = x then some .idle else u.workers[x]? := by
    intro x
    rw [evaluate_workers, List.getElem?_set]
    split
    · subst_vars; simp_all
    · rfl
  have hcl : ∀ x m, (u.evaluate w k v).workers[x]? = some (.claimed m) ↔ x ≠ w ∧ u.workers[x]? = some (.claimed m) := by
    intro x m
    rw [hget]
    by_cases hxw : w = x
    · subst hxw; simp
    · simp [hxw, Ne.symm hxw]
  refine ⟨by simp [h.count], ?_, ?_, ?_, ?_⟩
  · intro x m hx
    exact h.claimed x m ((hcl x m).mp hx).2
  · intro x y m hx hy
    exact h.once x y m ((hcl x m).mp hx).2 ((hcl y m).mp hy).2
  · have h1 := h.exited
    simp only [Inst.exitedCount, evaluate_workers, evaluate_next, evaluate_n] at h1 ⊢
    rw [exitedCount_set _ _ _ _ hw (by simp), h1]
    simp
  · intro i
    have hp := h.present i
    have hk := h.claimed w k hw
    have hfree : ∀ m, (u.evaluate w k v).free m ↔ u.free m ∨ m = k := by
      intro m
      constructor
      · intro hf
        by_cases hm : m = k
        · exact .inr hm
        · refine .inl fun x hx => hf x ((hcl x m).mpr ⟨?_, hx⟩)
          rintro rfl
          rw [hw] at hx
          simp only [Option.some.injEq, Worker.claimed.injEq] at hx
          exact hm hx.symm
      · rintro (hf | rfl) x hx
        · exact hf x ((hcl x m).mp hx).2
        · exact ((hcl x m).mp hx).1 (h.once x w m ((hcl x m).mp hx).2 hw)
    simp only [present_iff, evaluate_wires, evaluate_nIn, evaluate_n, evaluate_next, cellGet_cellPut] at hp ⊢
    constructor
    · rintro ⟨x, hx⟩
      split at hx
      · rename_i hi
        exact .inr ⟨k, hi, hk.1, hk.2, (hfree k).mpr (.inr rfl)⟩
      · rcases hp.mp ⟨x, hx⟩ with hi | ⟨m, hi, h1, h2, h3⟩
        · exact .inl hi
        · exact .inr ⟨m, hi, h1, h2, (hfree m).mpr (.inl h3)⟩
    · intro hr
      by_cases hi : i = u.nIn + k
      · exact ⟨v, by simp [hi]⟩
      · simp only [hi, if_false]
        refine hp.mpr ?_
        rcases hr with hr | ⟨m, hm, h1, h2, h3⟩
        · exact .inl hr
        · refine .inr ⟨m, hm, h1, h2, ?_⟩
          rcases (hfree m).mp h3 with h3 | rfl
          · exact h3
          · exact absurd hm hi

/-- A gate that a worker has claimed has not been written (10_state.md R23). -/
theorem claimed_absent {u : Inst} {workers w k : Nat} (h : u.RunOk workers)
    (hw : u.workers[w]? = some (.claimed k)) : cellGet u.wires (u.nIn + k) = none := by
  have hp := h.present (u.nIn + k)
  cases hc : cellGet u.wires (u.nIn + k) with
  | none => rfl
  | some v =>
    rcases hp.mp ((present_iff _ _).mpr ⟨v, hc⟩) with h1 | ⟨m, h1, -, -, h2⟩
    · omega
    · have : m = k := by omega
      subst this
      exact absurd hw (h2 w)

/-- What holds at the join: no gate is held, and every worker made exactly one claim past the last gate (R128). -/
theorem joined_next {u : Inst} {workers : Nat} (h : u.RunOk workers) (hj : u.joined = true) (hw : 1 ≤ workers) :
    u.next.toNat = u.n + workers := by
  have h1 := h.exited
  have h2 : u.exitedCount = u.workers.length := by
    simp only [Inst.exitedCount, List.countP_eq_length]
    simpa [Inst.joined] using hj
  rw [h2, h.count] at h1
  omega

/-- At the join every wire of the program is present, and no other (R128). -/
theorem joined_present {u : Inst} {workers : Nat} (h : u.RunOk workers) (hj : u.joined = true) (hw : 1 ≤ workers)
    (i : Nat) : u.present i = true ↔ i < u.nIn + u.n := by
  have hn := joined_next h hj hw
  rw [h.present i]
  have hfree : ∀ k, u.free k := by
    intro k x hx
    simp only [Inst.joined, List.all_eq_true] at hj
    have := hj _ (List.mem_of_getElem? hx)
    simp at this
  constructor
  · rintro (h1 | ⟨k, rfl, h1, -⟩) <;> omega
  · intro hi
    by_cases h1 : i < u.nIn
    · exact .inl h1
    · exact .inr ⟨i - u.nIn, by omega, by omega, by omega, hfree _⟩

end Sys2Proof.Machine
end

