-- ==== Sys2Proof/Laws/Slots.lean ====
section
/-! SUPPORT. The program store and its valid bits: what setting, clearing and reading a bit does, and which images a write
leaves alone (10_state.md R33, R35). -/

namespace Sys2Proof.Machine

theorem getLsbD_slotBit (sel k : Nat) : (BitVec.ofNat 32 (2 ^ sel)).getLsbD k = (decide (k < 32) && decide (sel = k)) := by
  rw [BitVec.getLsbD_ofNat, Nat.testBit_two_pow]

theorem getLsbD_setSlotBit (w : Word) (sel k : Nat) :
    (setSlotBit w sel).getLsbD k = (w.getLsbD k || (decide (k < 32) && decide (sel = k))) := by
  rw [setSlotBit, BitVec.getLsbD_or, getLsbD_slotBit]

theorem getLsbD_clearSlotBit (w : Word) (sel k : Nat) :
    (clearSlotBit w sel).getLsbD k = (w.getLsbD k && !decide (sel = k)) := by
  rw [clearSlotBit, BitVec.getLsbD_and, BitVec.getLsbD_not, getLsbD_slotBit]
  by_cases h : k < 32
  · simp [h]
  · simp [BitVec.getLsbD_of_ge w k (by omega)]

/-- Which slots exist. -/
theorem getLsbD_slotMask (p : Params) (k : Nat) :
    (slotMask p).getLsbD k = (decide (k < 32) && decide (k < p.nUser + 3)) := by
  rw [slotMask, BitVec.getLsbD_ofNat, Nat.testBit_two_pow_sub_one]

/-- `SLOT_VALID` as it reads, bit by bit (10_state.md R33). -/
theorem getLsbD_slotValidWord (s : State) (k : Nat) :
    s.slotValidWord.getLsbD k = ((s.slotValid.getLsbD k || decide (k ≤ 2)) && decide (k < 32) && decide (k < s.config.nUser + 3)) := by
  have h7 : (7#32).getLsbD k = decide (k ≤ 2) := by
    rw [show (7 : Nat) = 2 ^ 3 - 1 by decide, BitVec.getLsbD_ofNat, Nat.testBit_two_pow_sub_one]
    by_cases h : k ≤ 2
    · simp [h, show k < 32 by omega, show k < 3 by omega]
    · simp [h, show ¬ k < 3 by omega]
  have h7' : (7 : Word).getLsbD k = decide (k ≤ 2) := h7
  rw [State.slotValidWord, BitVec.getLsbD_and, BitVec.getLsbD_or, getLsbD_slotMask, h7', Bool.and_assoc]

/-- The valid bit EXEC tests is the bit SLOT_VALID reads (41_executor.md R121, 10_state.md R33). -/
theorem slotOk_eq (s : State) (k : Nat) (h : s.config.nUser ≤ 29) : s.slotOk k = s.slotValidWord.getLsbD k := by
  rw [getLsbD_slotValidWord, State.slotOk]
  by_cases h2 : k ≤ 2
  · simp [h2, show k < 32 by omega, show k < s.config.nUser + 3 by omega]
  · by_cases h3 : k < s.config.nUser + 3
    · simp [h2, h3, show k < 32 by omega]
    · simp [h2, h3]

theorem image_congr {s t : State} (hc : t.config = s.config) (h : t.slots = s.slots) (k : Nat) : t.image k = s.image k := by
  unfold State.image; rw [hc, h]

theorem slotOk_congr {s t : State} (hc : t.config = s.config) (hv : t.slotValid = s.slotValid) (k : Nat) :
    t.slotOk k = s.slotOk k := by
  unfold State.slotOk; rw [hc, hv]

/-- The images after a store of one (41_executor.md R140). -/
theorem image_storeImage (s : State) (sel k : Nat) (img : List Word) (h : 2 < sel) :
    (s.storeImage sel img).image k = if k = sel then img else s.image k := by
  match k with
  | 0 => rw [if_neg (by omega)]; rfl
  | 1 => rw [if_neg (by omega)]; rfl
  | 2 => rw [if_neg (by omega)]; rfl
  | k + 3 => simp only [State.image, storeImage_slots, cellGet_cellPut]; split <;> rfl

/-- The valid bits after a store (41_executor.md R140). -/
theorem slotOk_storeImage (s : State) (sel k : Nat) (img : List Word) (h : sel < s.config.nUser + 3)
    (hl : s.config.nUser ≤ 29) : (s.storeImage sel img).slotOk k = (s.slotOk k || decide (k = sel)) := by
  simp only [State.slotOk, storeImage_slotValid, storeImage_config, getLsbD_setSlotBit]
  by_cases hk : k = sel
  · subst hk; simp [h, show k < 32 by omega]
  · simp [hk, show ¬ sel = k from fun e => hk e.symm]
    rfl

/-- What raising a cause does to the valid bits: nothing, or it clears one slot's (60_exceptions.md R205). -/
theorem slotValidAfter_cases (v : Word) (c : Cause) (l : Option Nat) :
    slotValidAfter v c l = v ∨ ∃ sel, l = some sel ∧ c.isConstruction = true ∧ c ≠ .ceRomSlot ∧
      slotValidAfter v c l = clearSlotBit v sel := by
  unfold slotValidAfter
  split
  · split
    · rename_i sel h
      simp only [Bool.and_eq_true, bne_iff_ne] at h
      exact .inr ⟨sel, rfl, h.1, h.2, rfl⟩
    · exact .inl rfl
  · exact .inl rfl

/-- A slot that is not running is the slot of no busy executor (20_memory.md R57). -/
theorem slotRunning_false {s : State} {sel : Nat} (h : s.slotRunning sel = false) {v : Inst} (hv : v ∈ s.insts)
    (hb : v.busy = true) : v.slot ≠ sel := by
  intro e
  simp only [State.slotRunning, List.any_eq_false] at h
  exact h v hv (by simp [hb, e])

end Sys2Proof.Machine
end

