-- ==== Sys2Proof/Laws/Effect.lean ====
section
/-! SUPPORT. Everything one instruction and one step can do, said once as a list of cases, so that an invariant is proved by
looking at each case and no later proof unfolds a meaning. -/

namespace Sys2Proof.Machine

/-- The value a gate writes once its operands are present; none while one is absent, and for a command. -/
def gateValue (s : State) (i : Instr) (u : Inst) : Option EncBit :=
  match i with
  | .xor a b => binaryGate (s.call 0).bitXor a b u
  | .and a b => binaryGate (s.call 0).bitAnd a b u
  | .not a => unaryGate (s.call 0).bitNot a u
  | .loadPv | .decompose | .recompose | .loadProg _ | .exec _ | .sbox | .invsbox | .mixcol | .readReg _ => none

/-- Where a phased command's output bits go. -/
def afterCopyOf (i : Instr) : Inst → Inst :=
  match i with
  | .exec _ => Inst.bitsAreResult
  | .xor _ _ | .and _ _ | .not _ | .loadPv | .decompose | .recompose | .loadProg _ | .sbox | .invsbox | .mixcol
  | .readReg _ => Inst.bitsAreRecomposed

/-- The commands that take several steps. -/
def isPhased (i : Instr) : Prop := (∃ sel, i = .exec sel) ∨ i = .sbox ∨ i = .invsbox ∨ i = .mixcol

/-- The composite commands, with the ROM slot each runs and the bytes each takes (43_sbox.md R172, R175, 44_mixcolumns.md
R192). -/
def isComposite (i : Instr) (slot count : Nat) : Prop :=
  (i = .sbox ∧ slot = 0 ∧ count = 1) ∨ (i = .invsbox ∧ slot = 1 ∧ count = 1) ∨ (i = .mixcol ∧ slot = 2 ∧ count = 4)

/-- What `exec i` can answer as a next state, case by case. -/
inductive ExecEffect (i : Instr) (s : State) : State → Prop where
  /-- A worker polls an absent operand. -/
  | poll {q w k : Nat} {u : Inst} (he : s.Evaluates q w k u) (hi : i.isGate = true) (hv : gateValue s i u = none) :
      ExecEffect i s s
  /-- A worker writes its gate's value. -/
  | evaluate {q w k : Nat} {u : Inst} {v : EncBit} (he : s.Evaluates q w k u) (hi : i.isGate = true)
      (hv : gateValue s i u = some v) (hk : u.nIn + k < maxWires) : ExecEffect i s (s.setInst q (u.evaluate w k v))
  /-- A LOAD_PROG waits for the slot it loads. -/
  | wait {q : Nat} {u : Inst} {c : Command} {sel : Nat} (ha : s.Accepts q u c) (hi : i = .loadProg sel)
      (hr : s.slotRunning sel = true) : ExecEffect i s s
  /-- A command is refused by cause. -/
  | raised {q : Nat} {u : Inst} {c : Command} {cause : Cause} {detail : Nat} {loading : Option Nat}
      (ha : s.Accepts q u c) (hi : i.isGate = false)
      (hl : loading = none ∨ ∃ sel, i = .loadProg sel ∧ loading = some sel ∧
        (slotValidAfter s.slotValid cause loading = s.slotValid ∨ s.slotRunning sel = false)) :
      ExecEffect i s (raise s q u c.word cause detail loading)
  /-- LOAD_PV installs its table. -/
  | table {q : Nat} {u : Inst} {c : Command} {p : PvTable} (ha : s.Accepts q u c) (hi : i = .loadPv)
      (hp : s.pvValid = false) : ExecEffect i s (complete { s with pv := p, pvValid := true } q u c.word [])
  /-- DECOMPOSE or RECOMPOSE returns its result. -/
  | codec {q : Nat} {u : Inst} {c : Command} {r : Payload} (ha : s.Accepts q u c) (hi : i = .decompose ∨ i = .recompose) :
      ExecEffect i s (complete s q u c.word r)
  /-- READ_REG returns a register. -/
  | register {q : Nat} {u : Inst} {c : Command} {sel : Nat} (ha : s.Accepts q u c) (hi : i = .readReg sel) :
      ExecEffect i s (giveBack s q u c.word [.word (s.register u sel)])
  /-- LOAD_PROG stores a checked image. -/
  | store {q : Nat} {u : Inst} {c : Command} {sel : Nat} {img : List Word} (ha : s.Accepts q u c) (hi : i = .loadProg sel)
      (hs : 2 < sel) (hn : sel < s.config.nUser + 3) (hr : s.slotRunning sel = false) (hc : check img = none) :
      ExecEffect i s (complete (s.storeImage sel img) q u c.word [])
  /-- EXEC is accepted. -/
  | admitted {q : Nat} {u : Inst} {c : Command} {sel : Nat} {bits : List EncBit} (ha : s.Accepts q u c) (hi : i = .exec sel)
      (hv : s.slotOk sel = true) (hb : bits.length = imageNIn (s.image sel)) :
      ExecEffect i s (s.setInst q { u.copyHeader (s.image sel) with
        busy := true, cmd := c.word, slot := sel, args := c.payload, bits := bits, phase := .start })
  /-- A composite command is accepted. -/
  | begun {q : Nat} {u : Inst} {c : Command} {slot count : Nat} {bytes : List EncByte} (ha : s.Accepts q u c)
      (hi : isComposite i slot count) (hp : s.pvValid = true) (hb : bytesOf c.payload = some bytes)
      (hc : bytes.length = count) :
      ExecEffect i s (s.setInst q
        { u with busy := true, cmd := c.word, slot := slot, args := c.payload, phase := .decompose })
  /-- A phase of a running command. -/
  | phase {q : Nat} {u : Inst} {t : State} (hr : s.Runs q u) (hi : isPhased i)
      (ht : runPhase s q u (afterCopyOf i) = .next t) : ExecEffect i s t

theorem admitExec_effect {s : State} {q : Nat} {u : Inst} {c : Command} {sel : Nat} (ha : s.Accepts q u c) :
    ExecEffect (.exec sel) s (admitExec sel s q u c) := by
  unfold admitExec
  split
  · exact .raised ha rfl (.inl rfl)
  · split
    · split
      · split
        · exact .admitted ha rfl ‹_› ‹_›
        · exact .raised ha rfl (.inl rfl)
      · exact .raised ha rfl (.inl rfl)
    · exact .raised ha rfl (.inl rfl)

theorem admitComposite_effect {i : Instr} {s : State} {q : Nat} {u : Inst} {c : Command} {slot count : Nat}
    (hi : isComposite i slot count) (ha : s.Accepts q u c) : ExecEffect i s (admitComposite slot count s q u c) := by
  have hg : i.isGate = false := by rcases hi with ⟨rfl, -⟩ | ⟨rfl, -⟩ | ⟨rfl, -⟩ <;> rfl
  unfold admitComposite
  split
  · split
    · split
      · exact .begun ha hi ‹_› ‹_› ‹_›
      · exact .raised ha hg (.inl rfl)
    · exact .raised ha hg (.inl rfl)
  · exact .raised ha hg (.inl rfl)

theorem onWorker_effect {i : Instr} {s t : State} (hi : i.isGate = true) (h : onWorker s (gateValue s i) = .next t) :
    ExecEffect i s t := by
  obtain ⟨q, w, k, u, he, ⟨hv, rfl⟩ | ⟨v, hv, hk, rfl⟩⟩ := onWorker_next h
  · exact .poll he hi hv
  · exact .evaluate he hi hv hk

theorem composite_effect {i : Instr} {s t : State} {slot count : Nat} (hi : isComposite i slot count)
    (h : onPhases s (admitComposite slot count) (afterCopyOf i) = .next t) : ExecEffect i s t := by
  have hp : isPhased i := by
    rcases hi with ⟨rfl, -⟩ | ⟨rfl, -⟩ | ⟨rfl, -⟩
    · exact .inr (.inl rfl)
    · exact .inr (.inr (.inl rfl))
    · exact .inr (.inr (.inr rfl))
  rcases onPhases_next h with ⟨q, u, c, ha, rfl⟩ | ⟨q, u, hr, ht⟩
  · exact admitComposite_effect hi ha
  · exact .phase hr hp ht

/-- Everything an instruction can do. -/
theorem exec_effect {i : Instr} {s t : State} (h : exec i s = .next t) : ExecEffect i s t := by
  cases i with
  | xor a b => exact onWorker_effect rfl h
  | and a b => exact onWorker_effect rfl h
  | not a => exact onWorker_effect rfl h
  | loadPv =>
    simp only [exec, execLoadPv] at h
    obtain ⟨q, u, c, ha, rfl⟩ := onPort_next h
    split
    · exact .raised ha rfl (.inl rfl)
    · split
      · exact .table ha rfl (by simpa using ‹¬ s.pvValid = true›)
      · exact .raised ha rfl (.inl rfl)
  | decompose =>
    simp only [exec, execDecompose] at h
    obtain ⟨q, u, c, ha, rfl⟩ := onPort_next h
    split
    · split
      · exact .codec ha (.inl rfl)
      · exact .raised ha rfl (.inl rfl)
    · exact .raised ha rfl (.inl rfl)
  | recompose =>
    simp only [exec, execRecompose] at h
    obtain ⟨q, u, c, ha, rfl⟩ := onPort_next h
    split
    · split
      · exact .codec ha (.inr rfl)
      · exact .raised ha rfl (.inl rfl)
    · exact .raised ha rfl (.inl rfl)
  | loadProg sel =>
    simp only [exec, execLoadProg] at h
    obtain ⟨q, u, c, ha, rfl⟩ := onPort_next h
    split
    · exact .raised ha rfl (.inl rfl)
    · split
      · exact .raised ha rfl (.inr ⟨sel, rfl, rfl, .inl rfl⟩)
      · split
        · exact .wait ha rfl ‹_›
        · rename_i h1 h2 h3
          have h3 : s.slotRunning sel = false := by simpa using h3
          split
          · exact .raised ha rfl (.inr ⟨sel, rfl, rfl, .inr h3⟩)
          · split
            · exact .raised ha rfl (.inr ⟨sel, rfl, rfl, .inr h3⟩)
            · exact .store ha rfl (by omega) (by omega) h3 ‹_›
  | exec sel =>
    simp only [exec, execExec] at h
    rcases onPhases_next h with ⟨q, u, c, ha, rfl⟩ | ⟨q, u, hr, ht⟩
    · exact admitExec_effect ha
    · exact .phase hr (.inl ⟨sel, rfl⟩) ht
  | sbox => exact composite_effect (.inl ⟨rfl, rfl, rfl⟩) h
  | invsbox => exact composite_effect (.inr (.inl ⟨rfl, rfl, rfl⟩)) h
  | mixcol => exact composite_effect (.inr (.inr ⟨rfl, rfl, rfl⟩)) h
  | readReg sel =>
    simp only [exec, execReadReg] at h
    obtain ⟨q, u, c, ha, rfl⟩ := onPort_next h
    split
    · exact .register ha rfl
    · exact .raised ha rfl (.inl rfl)

/-- What a step can be: the instruction the acting agent holds, with what it holds; or one of the steps that run none. -/
inductive StepEffect (s : State) : State → Prop where
  /-- Nothing to do. -/
  | quiet : StepEffect s s
  /-- The host issues a command. -/
  | issue {q : Nat} {u : Inst} {c : Command} (ha : s.acting = .host (.issue q c)) (hu : s.insts[q]? = some u) :
      StepEffect s (s.setInst q { u with port := u.port ++ [c] })
  /-- The host resets the idle block. -/
  | restart (ha : s.acting = .host .reset) (hi : s.insts.all (fun u => !u.busy) = true) : StepEffect s s.restart
  /-- An idle worker claims. -/
  | claim {q w : Nat} {u : Inst} (ha : s.acting = .worker q w) (hu : s.insts[q]? = some u) (hr : u.running = true)
      (hw : u.workers[w]? = some .idle) : StepEffect s (s.setInst q (u.claim w))
  /-- A word that is no command is refused. -/
  | refuse {q : Nat} {u : Inst} {w : Word} {r : DecodeRefusal} (ha : s.acting = .seq q) (hu : s.insts[q]? = some u)
      (hw : u.commandWord? = some w) (hd : decodeCommand w = .refused r) : StepEffect s (refuseCommand s q u w)
  /-- A sequencer runs its command. -/
  | command {q : Nat} {u : Inst} {w : Word} {i : Instr} {t : State} (ha : s.acting = .seq q) (hu : s.insts[q]? = some u)
      (hw : u.commandWord? = some w) (hd : decodeCommand w = .instr i) (ht : ExecEffect i s t) : StepEffect s t
  /-- A worker works on its gate. -/
  | gate {q w k : Nat} {u : Inst} {i : Instr} {t : State} (he : s.Evaluates q w k u)
      (hd : decodeGate (imageGate (s.image u.slot) k) = .instr i) (ht : ExecEffect i s t) : StepEffect s t

theorem hostStep_effect {s : State} {h : HostMove} (ha : s.acting = .host h) : StepEffect s (hostStep s h) := by
  cases h with
  | issue q c =>
    simp only [hostStep]
    split
    · exact .issue ha ‹_›
    · exact .quiet
  | reset =>
    simp only [hostStep]
    split
    · exact .restart ha ‹_›
    · exact .quiet
  | quiet => exact .quiet

/-- Everything a step can do. -/
theorem step_effect {s t : State} (h : step s = .next t) : ∃ t', StepEffect s t' ∧ t = t'.advance := by
  obtain ⟨i, t', hf, he, rfl⟩ | ⟨t', hf, rfl⟩ := step_next h <;> refine ⟨t', ?_, rfl⟩ <;> unfold fetch at hf
  · split at hf
    · cases hf
    · unfold fetchSequencer at hf
      split at hf
      · cases hf
      · split at hf
        · cases hf
        · split at hf
          · cases hf
            exact .command ‹_› ‹_› ‹_› ‹_› (exec_effect he)
          · cases hf
    · unfold fetchWorker at hf
      split at hf
      · cases hf
      · split at hf
        · cases hf
        · split at hf
          · cases hf
            exact .gate ⟨‹_›, ‹_›, ‹_›, ‹_›⟩ ‹_› (exec_effect he)
          · cases hf
        · cases hf
  · split at hf
    · cases hf
      exact hostStep_effect ‹_›
    · unfold fetchSequencer at hf
      split at hf
      · cases hf
        exact .quiet
      · split at hf
        · cases hf
          exact .quiet
        · split at hf
          · cases hf
          · cases hf
            exact .refuse ‹_› ‹_› ‹_› ‹_›
    · unfold fetchWorker at hf
      split at hf
      · cases hf
        exact .quiet
      · split at hf
        · cases hf
          exact .claim ‹_› ‹_› ‹_› ‹_›
        · split at hf
          · cases hf
          · cases hf
        · cases hf
          exact .quiet

end Sys2Proof.Machine
end

