-- ==== Sys2Proof/Laws/Encoding.lean ====
section
/-! SUPPORT. The fields of the words the encoder writes, and that a word is the sum of its fields (30_encoding.md R71, R84). -/

namespace Sys2Proof

theorem gateWord_toNat {op s1 s2 : Nat} (h0 : op < 4) (h1 : s1 < 32768) (h2 : s2 < 32768) :
    (gateWord op s1 s2).toNat = op * 1073741824 + s1 * 32768 + s2 := by
  simp only [gateWord, BitVec.toNat_ofNat]
  apply Nat.mod_eq_of_lt
  norm_num
  omega

theorem commandWord_toNat {opc sel : Nat} (h0 : opc < 256) (h1 : sel < 32) :
    (commandWord opc sel).toNat = sel * 256 + opc := by
  simp only [commandWord, BitVec.toNat_ofNat]
  apply Nat.mod_eq_of_lt
  norm_num
  omega

theorem fields_of_sum {a b c x y n : Nat} (hc : c < x) (hb : b < y) (hn : n = a * (y * x) + b * x + c) :
    n / (y * x) = a ∧ n / x % y = b ∧ n % x = c := by
  have hx : 0 < x := by omega
  have hy : 0 < y := by omega
  have h1 : n / x = a * y + b := by
    rw [hn, show a * (y * x) + b * x + c = (a * y + b) * x + c by ring, Nat.add_comm, Nat.add_mul_div_right _ _ hx,
      Nat.div_eq_of_lt hc, Nat.zero_add]
  refine ⟨?_, ?_, ?_⟩
  · rw [Nat.mul_comm y x, ← Nat.div_div_eq_div_mul, h1, Nat.add_comm, Nat.add_mul_div_right _ _ hy,
      Nat.div_eq_of_lt hb, Nat.zero_add]
  · rw [h1, Nat.mul_add_mod', Nat.mod_eq_of_lt hb]
  · rw [hn, show a * (y * x) + b * x + c = (a * y + b) * x + c by ring, Nat.mul_add_mod', Nat.mod_eq_of_lt hc]

/-- The fields of an encoded gate word. -/
theorem gateWord_fields {op s1 s2 : Nat} (h0 : op < 4) (h1 : s1 < 32768) (h2 : s2 < 32768) :
    gateOp (gateWord op s1 s2) = op ∧ gateS1 (gateWord op s1 s2) = s1 ∧ gateS2 (gateWord op s1 s2) = s2 := by
  obtain ⟨e0, e1, e2⟩ := fields_of_sum (a := op) (b := s1) (c := s2) (x := 32768) (y := 32768) h2 h1
    (gateWord_toNat h0 h1 h2)
  refine ⟨?_, ?_, ?_⟩
  · rw [gateOp, BitVec.extractLsb'_toNat, Nat.shiftRight_eq_div_pow, show (2 : Nat) ^ 30 = 32768 * 32768 by norm_num, e0]
    exact Nat.mod_eq_of_lt (by simpa using h0)
  · rw [gateS1, BitVec.extractLsb'_toNat, Nat.shiftRight_eq_div_pow]
    exact e1
  · rw [gateS2, BitVec.extractLsb'_toNat, Nat.shiftRight_eq_div_pow, Nat.pow_zero, Nat.div_one]
    exact e2

/-- The fields of an encoded command word. -/
theorem commandWord_fields {opc sel : Nat} (h0 : opc < 256) (h1 : sel < 32) :
    commandReserved (commandWord opc sel) = 0 ∧ commandSel (commandWord opc sel) = sel ∧
      commandOpc (commandWord opc sel) = opc := by
  obtain ⟨e0, e1, e2⟩ := fields_of_sum (a := 0) (b := sel) (c := opc) (x := 256) (y := 32) (n := (commandWord opc sel).toNat)
    h0 h1 (by rw [commandWord_toNat h0 h1]; omega)
  refine ⟨?_, ?_, ?_⟩
  · rw [commandReserved, BitVec.extractLsb'_toNat, Nat.shiftRight_eq_div_pow, show (2 : Nat) ^ 13 = 32 * 256 by norm_num,
      e0, Nat.zero_mod]
  · rw [commandSel, BitVec.extractLsb'_toNat, Nat.shiftRight_eq_div_pow]
    exact e1
  · rw [commandOpc, BitVec.extractLsb'_toNat, Nat.shiftRight_eq_div_pow, Nat.pow_zero, Nat.div_one]
    exact e2

/-- A gate word is the word of its fields (R71). -/
theorem gateWord_self (w : Word) : gateWord (gateOp w) (gateS1 w) (gateS2 w) = w := by
  have h := w.isLt
  have h0 : gateOp w < 4 := (w.extractLsb' 30 2).isLt
  have h1 : gateS1 w < 32768 := (w.extractLsb' 15 15).isLt
  have h2 : gateS2 w < 32768 := (w.extractLsb' 0 15).isLt
  apply BitVec.eq_of_toNat_eq
  rw [gateWord_toNat h0 h1 h2]
  simp only [gateOp, gateS1, gateS2, BitVec.extractLsb'_toNat, Nat.shiftRight_eq_div_pow]
  omega

/-- A command word whose reserved bits are 0 is the word of its fields (R84). -/
theorem commandWord_self (w : Word) (h : commandReserved w = 0) : commandWord (commandOpc w) (commandSel w) = w := by
  have hw := w.isLt
  have h0 : commandOpc w < 256 := (w.extractLsb' 0 8).isLt
  have h1 : commandSel w < 32 := (w.extractLsb' 8 5).isLt
  apply BitVec.eq_of_toNat_eq
  rw [commandWord_toNat h0 h1]
  simp only [commandReserved, commandOpc, commandSel, BitVec.extractLsb'_toNat, Nat.shiftRight_eq_div_pow] at *
  omega

end Sys2Proof
end

