-- ==== Sys2Proof/Laws/PerInstr.lean ====
section
/-! SUPPORT. The family TableRow: the word of every well-formed instruction has the fixed bits of its row of
spec/opcode_table.json. -/

namespace Sys2Proof.Laws.TableRow

/-- The mask of an instruction's row. -/
def rowMask : Instr → Word
  | .xor _ _ => 0xC0000000
  | .and _ _ => 0xC0000000
  | .not _ => 0xC0007FFF
  | .loadPv => 0xFFFFFFFF
  | .decompose => 0xFFFFFFFF
  | .recompose => 0xFFFFFFFF
  | .loadProg _ => 0xFFFFE0FF
  | .exec _ => 0xFFFFE0FF
  | .sbox => 0xFFFFFFFF
  | .invsbox => 0xFFFFFFFF
  | .mixcol => 0xFFFFFFFF
  | .readReg _ => 0xFFFFE0FF

/-- The match word of an instruction's row. -/
def rowMatch : Instr → Word
  | .xor _ _ => 0x00000000
  | .and _ _ => 0x40000000
  | .not _ => 0x80000000
  | .loadPv => 0x00000001
  | .decompose => 0x00000002
  | .recompose => 0x00000003
  | .loadProg _ => 0x00000004
  | .exec _ => 0x00000005
  | .sbox => 0x00000006
  | .invsbox => 0x00000007
  | .mixcol => 0x00000008
  | .readReg _ => 0x00000009

/-- The word of a well-formed instruction has its row's fixed bits. -/
def Statement (i : Instr) : Prop := i.wf = true → encode i &&& rowMask i = rowMatch i

theorem and_gateMask (w : Word) : w &&& (0xC0000000 : Word) = (w.extractLsb' 30 2).setWidth 32 <<< 30 := by
  apply BitVec.eq_of_getLsbD_eq
  intro i hi
  interval_cases i <;> simp

theorem and_notMask (w : Word) : w &&& (0xC0007FFF : Word) =
    (w.extractLsb' 30 2).setWidth 32 <<< 30 ||| (w.extractLsb' 0 15).setWidth 32 := by
  apply BitVec.eq_of_getLsbD_eq
  intro i hi
  interval_cases i <;> simp

theorem and_selMask (w : Word) : w &&& (0xFFFFE0FF : Word) =
    (w.extractLsb' 13 19).setWidth 32 <<< 13 ||| (w.extractLsb' 0 8).setWidth 32 := by
  apply BitVec.eq_of_getLsbD_eq
  intro i hi
  interval_cases i <;> simp

theorem op_eq {w : Word} {op : Nat} (h : gateOp w = op) : w.extractLsb' 30 2 = BitVec.ofNat 2 op := by
  rw [← h, gateOp, BitVec.ofNat_toNat, BitVec.setWidth_eq]

theorem s2_eq {w : Word} {s : Nat} (h : gateS2 w = s) : w.extractLsb' 0 15 = BitVec.ofNat 15 s := by
  rw [← h, gateS2, BitVec.ofNat_toNat, BitVec.setWidth_eq]

theorem sel_row {opc sel : Nat} (h0 : opc < 256) (h1 : selOk sel = true) :
    commandWord opc sel &&& (0xFFFFE0FF : Word) = (BitVec.ofNat 8 opc).setWidth 32 := by
  obtain ⟨e0, -, e2⟩ := commandWord_fields h0 (of_decide_eq_true h1)
  have h13 : (commandWord opc sel).extractLsb' 13 19 = 0 := by
    apply BitVec.eq_of_toNat_eq
    exact e0
  have h8 : (commandWord opc sel).extractLsb' 0 8 = BitVec.ofNat 8 opc := by
    apply BitVec.eq_of_toNat_eq
    rw [BitVec.toNat_ofNat, Nat.mod_eq_of_lt h0]
    exact e2
  rw [and_selMask, h13, h8]
  simp

theorem xor (s1 s2 : Nat) : Statement (.xor s1 s2) := by
  intro h
  simp only [Instr.wf, wireOk, Bool.and_eq_true, decide_eq_true_eq] at h
  obtain ⟨e0, -, -⟩ := gateWord_fields (op := 0) (by omega) h.1 h.2
  rw [rowMask, encode, and_gateMask, op_eq e0]
  rfl

theorem and (s1 s2 : Nat) : Statement (.and s1 s2) := by
  intro h
  simp only [Instr.wf, wireOk, Bool.and_eq_true, decide_eq_true_eq] at h
  obtain ⟨e0, -, -⟩ := gateWord_fields (op := 1) (by omega) h.1 h.2
  rw [rowMask, encode, and_gateMask, op_eq e0]
  rfl

theorem not (s1 : Nat) : Statement (.not s1) := by
  intro h
  simp only [Instr.wf, wireOk, decide_eq_true_eq] at h
  obtain ⟨e0, -, e2⟩ := gateWord_fields (op := 2) (s2 := 0) (by omega) h (by omega)
  rw [rowMask, encode, and_notMask, op_eq e0, s2_eq e2]
  rfl

theorem loadPv : Statement .loadPv := fun _ => by decide

theorem decompose : Statement .decompose := fun _ => by decide

theorem recompose : Statement .recompose := fun _ => by decide

theorem loadProg (sel : Nat) : Statement (.loadProg sel) := fun h => (sel_row (opc := 4) (by omega) h).trans rfl

theorem exec (sel : Nat) : Statement (.exec sel) := fun h => (sel_row (opc := 5) (by omega) h).trans rfl

theorem sbox : Statement .sbox := fun _ => by decide

theorem invsbox : Statement .invsbox := fun _ => by decide

theorem mixcol : Statement .mixcol := fun _ => by decide

theorem readReg (sel : Nat) : Statement (.readReg sel) := fun h => (sel_row (opc := 9) (by omega) h).trans rfl

end Sys2Proof.Laws.TableRow
end

