-- ==== Sys2Proof/Laws/Schedule.lean ====
section
/-! SUPPORT. Runs under a schedule, finite or endless, and what makes a worker's step enabled (41_executor.md R123, R125, R127). -/

namespace Sys2Proof.Machine

/-- After two schedules, one after the other. -/
theorem after_append {s t : State} {moves : List Move} (rest : List Move) (h : s.after moves = .next t) :
    s.after (moves ++ rest) = t.after rest := by
  induction moves generalizing s with
  | nil => cases h; rfl
  | cons m moves ih =>
    simp only [State.after, List.cons_append] at h ⊢
    split at h
    · exact ih h
    · cases h
    · cases h

@[simp] theorem upTo_zero (s : State) (schedule : Nat → Move) : s.upTo schedule 0 = .next s := rfl

/-- One move more of an endless schedule. -/
theorem upTo_succ {s t t' : State} {schedule : Nat → Move} {n : Nat} (h : s.upTo schedule n = .next t)
    (ht : step { t with plan := [schedule n] } = .next t') : s.upTo schedule (n + 1) = .next t' := by
  unfold State.upTo at h ⊢
  rw [List.range_succ, List.map_append, after_append _ h]
  simp only [List.map_cons, List.map_nil, State.after, ht]

/-- Which workers have an enabled step (R123, R125). -/
theorem workerEnabled_iff {s : State} {q : Nat} {u : Inst} (hu : s.insts[q]? = some u) (w : Nat) :
    s.workerEnabled q w = true ↔ u.running = true ∧ (u.workers[w]? = some .idle ∨
      ∃ k, u.workers[w]? = some (.claimed k) ∧ u.holdLifted (imageGate (s.image u.slot) k) = true) := by
  unfold State.workerEnabled
  rw [hu]
  dsimp only
  split <;> simp_all

end Sys2Proof.Machine
end

