-- ==== Sys2Proof/Laws/Values.lean ====
section
/-! SUPPORT. Engine calls under both settings of `ENGINE_DETERMINISTIC`, when two results are the same (10_state.md R46), and that
the steps of the worker phase give each wire its reference value (41_executor.md R131). -/

namespace Sys2Proof.Machine

/-- Every call obeys the laws (10_state.md R39 to R45). -/
theorem call_laws (s : State) (j : Nat) : (s.call j).Laws := by
  unfold State.call
  split
  · exact Config.engine_laws
  · exact Config.drawnEngine_laws _ _

@[simp] theorem call_decb (s : State) (j : Nat) : (s.call j).decb = Config.engine.decb := by
  unfold State.call
  split
  · rfl
  · exact Config.drawnEngine_decb _ _

@[simp] theorem call_decB (s : State) (j : Nat) : (s.call j).decB = Config.engine.decB := by
  unfold State.call
  split
  · rfl
  · exact Config.drawnEngine_decB _ _

/-- A deterministic engine answers every call alike (10_state.md R46). -/
theorem call_deterministic {s : State} (h : s.config.deterministic = true) : s.call = fun _ => Config.engine := by
  funext j
  simp [State.call, h]

/-- The calls of a step depend on the configuration and the tick alone. -/
theorem call_congr {s t : State} (hc : t.config = s.config) (ht : t.tick = s.tick) : t.call = s.call := by
  funext j
  simp only [State.call, hc, ht]

@[simp] theorem setInst_call (s : State) (q : Nat) (u : Inst) : (s.setInst q u).call = s.call := rfl

theorem sameBit.refl (d : Bool) (x : EncBit) : sameBit d x x := ⟨rfl, fun _ => rfl⟩

theorem sameBit.trans {d : Bool} {x y z : EncBit} (h : sameBit d x y) (k : sameBit d y z) : sameBit d x z :=
  ⟨h.1.trans k.1, fun e => (h.2 e).trans (k.2 e)⟩

theorem sameBits.refl (d : Bool) (xs : List EncBit) : sameBits d xs xs := ⟨rfl, fun _ => rfl⟩

theorem sameBits.trans {d : Bool} {xs ys zs : List EncBit} (h : sameBits d xs ys) (k : sameBits d ys zs) : sameBits d xs zs :=
  ⟨h.1.trans k.1, fun e => (h.2 e).trans (k.2 e)⟩

theorem sameBits.length {d : Bool} {xs ys : List EncBit} (h : sameBits d xs ys) : xs.length = ys.length := by
  simpa using congrArg List.length h.1

/-- Two lists are the same result exactly when each bit is. -/
theorem sameBits_iff {d : Bool} {xs ys : List EncBit} : sameBits d xs ys ↔ List.Forall₂ (sameBit d) xs ys := by
  induction xs generalizing ys with
  | nil => cases ys <;> simp [sameBits]
  | cons x xs ih =>
    cases ys with
    | nil => simp [sameBits]
    | cons y ys =>
      rw [List.forall₂_cons, ← ih]
      simp only [sameBits, sameBit, List.map_cons, List.cons.injEq]
      constructor
      · rintro ⟨⟨h1, h2⟩, h3⟩
        exact ⟨⟨h1, fun e => (h3 e).1⟩, h2, fun e => (h3 e).2⟩
      · rintro ⟨⟨h1, h2⟩, h3, h4⟩
        exact ⟨⟨h1, h3⟩, fun e => ⟨h2 e, h4 e⟩⟩

/-- The engine's gates respect decryption (40_gates.md R107). -/
theorem decb_rel {E : Engine} (h : E.Laws) : GateRel E.gates plainGates fun x v => E.decb x = v where
  xor := by rintro a b _ _ rfl rfl; exact h.bitXor a b
  and := by rintro a b _ _ rfl rfl; exact h.bitAnd a b
  not := by rintro a _ rfl; exact h.bitNot a

/-- What a checked program's outputs decrypt to, from what it computes on plaintext bits (41_executor.md R132). -/
theorem refOutputs_decb {E : Engine} (h : E.Laws) {img : List Word} (facts : ImageFacts img) {ins : List EncBit}
    (hin : ins.length = imageNIn img) :
    (refOutputs E.gates img ins).map E.decb = refOutputs plainGates img (ins.map E.decb) :=
  refOutputs_map (decb_rel h) facts hin

/-- The XOR call of a step gives the same result as the reference gate. -/
theorem call_xor {s : State} (j : Nat) {a b c d : EncBit} (h : sameBit s.config.deterministic a c)
    (k : sameBit s.config.deterministic b d) :
    sameBit s.config.deterministic ((s.call j).bitXor a b) (Config.engine.bitXor c d) := by
  refine ⟨?_, fun e => ?_⟩
  · rw [← call_decb s j, (call_laws s j).bitXor, call_decb, Config.engine_laws.bitXor, h.1, k.1]
  · rw [call_deterministic e, h.2 e, k.2 e]

/-- The AND call of a step gives the same result as the reference gate. -/
theorem call_and {s : State} (j : Nat) {a b c d : EncBit} (h : sameBit s.config.deterministic a c)
    (k : sameBit s.config.deterministic b d) :
    sameBit s.config.deterministic ((s.call j).bitAnd a b) (Config.engine.bitAnd c d) := by
  refine ⟨?_, fun e => ?_⟩
  · rw [← call_decb s j, (call_laws s j).bitAnd, call_decb, Config.engine_laws.bitAnd, h.1, k.1]
  · rw [call_deterministic e, h.2 e, k.2 e]

/-- The NOT call of a step gives the same result as the reference gate. -/
theorem call_not {s : State} (j : Nat) {a c : EncBit} (h : sameBit s.config.deterministic a c) :
    sameBit s.config.deterministic ((s.call j).bitNot a) (Config.engine.bitNot c) := by
  refine ⟨?_, fun e => ?_⟩
  · rw [← call_decb s j, (call_laws s j).bitNot, call_decb, Config.engine_laws.bitNot, h.1]
  · rw [call_deterministic e, h.2 e]

/-- The reference gates give the same results on the same wires. -/
theorem sameBit_rel (d : Bool) : GateRel Config.engine.gates Config.engine.gates (sameBit d) where
  xor a b c e h k := ⟨by
    show Config.engine.decb (Config.engine.bitXor a b) = Config.engine.decb (Config.engine.bitXor c e)
    rw [Config.engine_laws.bitXor, Config.engine_laws.bitXor, h.1, k.1], fun x => by rw [h.2 x, k.2 x]⟩
  and a b c e h k := ⟨by
    show Config.engine.decb (Config.engine.bitAnd a b) = Config.engine.decb (Config.engine.bitAnd c e)
    rw [Config.engine_laws.bitAnd, Config.engine_laws.bitAnd, h.1, k.1], fun x => by rw [h.2 x, k.2 x]⟩
  not a c h := ⟨by
    show Config.engine.decb (Config.engine.bitNot a) = Config.engine.decb (Config.engine.bitNot c)
    rw [Config.engine_laws.bitNot, Config.engine_laws.bitNot, h.1], fun x => by rw [h.2 x]⟩

/-- A checked program gives the same outputs on the same inputs (41_executor.md R131). -/
theorem refBits_same {d : Bool} {img : List Word} (facts : ImageFacts img) {xs ys : List EncBit} (h : sameBits d xs ys)
    (hin : xs.length = imageNIn img) : sameBits d (refBits img xs) (refBits img ys) :=
  sameBits_iff.mpr (refOutputs_rel (sameBit_rel d) facts (sameBits_iff.mp h) hin)

/-- The start phase begins with reference values (R122). -/
theorem startRun_valuesOk (u : Inst) (workers : Nat) (img : List Word) (d : Bool) :
    (u.startRun workers).ValuesOk img d := by
  intro i v hv
  simp only [startRun_wires, cellGet_wiresFrom, Nat.zero_le, if_true, Nat.sub_zero] at hv
  rw [startRun_bits, refWires_input _ _ _ _ (List.getElem?_eq_some_iff.mp hv).1]
  exact ⟨v, hv, .refl d v⟩

/-- A value a two-operand gate takes from present wires is the same as the reference gate's on the reference values. -/
theorem binaryGate_ref {u : Inst} {img : List Word} {d : Bool} (hv : u.ValuesOk img d) {f g : EncBit → EncBit → EncBit}
    (hf : ∀ {a b c e}, sameBit d a c → sameBit d b e → sameBit d (f a b) (g c e)) {a b : Nat} {x : EncBit}
    (h : binaryGate f a b u = some x) :
    ∃ y z, (refWires Config.engine.gates img u.bits)[a]? = some y ∧
      (refWires Config.engine.gates img u.bits)[b]? = some z ∧ sameBit d x (g y z) := by
  unfold binaryGate at h
  split at h
  · rename_i y z hy hz
    obtain ⟨p, hp, hyp⟩ := hv a y hy
    obtain ⟨r, hr, hzr⟩ := hv b z hz
    exact ⟨p, r, hp, hr, Option.some.inj h ▸ hf hyp hzr⟩
  · cases h

/-- A value a one-operand gate takes from a present wire is the same as the reference gate's on the reference value. -/
theorem unaryGate_ref {u : Inst} {img : List Word} {d : Bool} (hv : u.ValuesOk img d) {f g : EncBit → EncBit}
    (hf : ∀ {a c}, sameBit d a c → sameBit d (f a) (g c)) {a : Nat} {x : EncBit} (h : unaryGate f a u = some x) :
    ∃ y, (refWires Config.engine.gates img u.bits)[a]? = some y ∧ sameBit d x (g y) := by
  unfold unaryGate at h
  split at h
  · rename_i y hy
    obtain ⟨p, hp, hyp⟩ := hv a y hy
    exact ⟨p, hp, Option.some.inj h ▸ hf hyp⟩
  · cases h

/-- Writing a reference value keeps reference values (R131). -/
theorem evaluate_valuesOk {u : Inst} {img : List Word} {d : Bool} {w k : Nat} {x r : EncBit} (hv : u.ValuesOk img d)
    (hr : (refWires Config.engine.gates img u.bits)[u.nIn + k]? = some r) (hx : sameBit d x r) :
    (u.evaluate w k x).ValuesOk img d := by
  intro i v hi
  rw [evaluate_wires, cellGet_cellPut] at hi
  rw [evaluate_bits]
  split at hi
  · subst_vars
    cases hi
    exact ⟨r, hr, hx⟩
  · exact hv i v hi

/-- What DECOMPOSE's bits decrypt to, whatever the table holds (42_codec.md R152). -/
theorem decomposeByte_decb (s : State) (j : Nat) (t : PvTable) (b : EncByte) :
    (decomposeByte (fun i => s.call (j + i)) t b).map Config.engine.decb =
      t.powers.map fun p => decide (Config.engine.decB p &&& Config.engine.decB b = Config.engine.decB p) := by
  have h : ∀ m n p, Config.engine.decb (maskBit (s.call m) (s.call n) p b) =
      decide (Config.engine.decB p &&& Config.engine.decB b = Config.engine.decB p) := by
    intro m n p
    have h1 := (call_laws s n).byteEqual ((s.call m).byteAnd p b) p
    have h2 := (call_laws s m).byteAnd p b
    rw [call_decb, call_decB] at h1
    rw [call_decB] at h2
    rw [maskBit, h1, h2]
  simp [decomposeByte, PvTable.powers, h]

/-- A `select` and a `byte_or` of a step decrypt by their laws (10_state.md R44, R45). -/
theorem call_select (s : State) (j : Nat) (c : EncBit) (a b : EncByte) : Config.engine.decB ((s.call j).select c a b) =
    if Config.engine.decb c then Config.engine.decB a else Config.engine.decB b := by
  have := (call_laws s j).select c a b
  rwa [call_decb, call_decB] at this

theorem call_byteOr (s : State) (j : Nat) (a b : EncByte) :
    Config.engine.decB ((s.call j).byteOr a b) = Config.engine.decB a ||| Config.engine.decB b := by
  have := (call_laws s j).byteOr a b
  rwa [call_decB] at this

end Sys2Proof.Machine
end

