-- ==== Sys2Proof/Tests/Slice0.lean ====
section
/-! SUPPORT. Tests of single steps, whose expected results are those of spec/95_test_vectors.md or worked out from the rule each
names, and for every obligation with hypotheses a witness that meets them. -/

namespace Sys2Proof.Tests

open Sys2Proof Sys2Proof.Machine

/-! ## Well-formedness -/

theorem test_wf_xor_s1 : (Instr.xor 32768 0).wf = false := by decide
theorem test_wf_xor_s2 : (Instr.xor 0 32768).wf = false := by decide
theorem test_wf_and_s1 : (Instr.and 32768 0).wf = false := by decide
theorem test_wf_and_s2 : (Instr.and 0 32768).wf = false := by decide
theorem test_wf_not : (Instr.not 32768).wf = false := by decide
theorem test_wf_loadProg : (Instr.loadProg 32).wf = false := by decide
theorem test_wf_exec : (Instr.exec 32).wf = false := by decide
theorem test_wf_readReg : (Instr.readReg 32).wf = false := by decide

/-! ## Decoding, from words written out from the encodings of 30_encoding.md R71, R72 (gates) and R84, R85 (commands) -/

/-- OP 00, S1 = 0x4001 (1 0000000 0000001), S2 = 0x7FFE. -/
theorem test_decode_xor :
    decodeGate 0b00_100000000000001_111111111111110 = .instr (.xor 0x4001 0x7FFE) := by decide
/-- OP 01, S1 = 0x7FFE, S2 = 0x4001. -/
theorem test_decode_and :
    decodeGate 0b01_111111111111110_100000000000001 = .instr (.and 0x7FFE 0x4001) := by decide
/-- OP 10, S1 = 0x4003, S2 = 0. -/
theorem test_decode_not : decodeGate 0b10_100000000000011_000000000000000 = .instr (.not 0x4003) := by decide
/-- NOT with the top bit of S2 set (R77). -/
theorem test_decode_not_reserved :
    decodeGate 0b10_100000000000011_100000000000000 = .refused .reservedNonzero := by decide
/-- OP 11 (R72). -/
theorem test_decode_op3 : decodeGate 0b11_000000000000000_000000000000000 = .refused .unknownOperator := by decide
theorem test_decode_loadPv : decodeCommand 0b0000000000000000000_00000_00000001 = .instr .loadPv := by decide
theorem test_decode_decompose : decodeCommand 0b0000000000000000000_00000_00000010 = .instr .decompose := by decide
theorem test_decode_recompose : decodeCommand 0b0000000000000000000_00000_00000011 = .instr .recompose := by decide
theorem test_decode_loadProg : decodeCommand 0b0000000000000000000_10011_00000100 = .instr (.loadProg 19) := by decide
theorem test_decode_exec : decodeCommand 0b0000000000000000000_11111_00000101 = .instr (.exec 31) := by decide
theorem test_decode_sbox : decodeCommand 0b0000000000000000000_00000_00000110 = .instr .sbox := by decide
theorem test_decode_invsbox : decodeCommand 0b0000000000000000000_00000_00000111 = .instr .invsbox := by decide
theorem test_decode_mixcol : decodeCommand 0b0000000000000000000_00000_00001000 = .instr .mixcol := by decide
theorem test_decode_readReg : decodeCommand 0b0000000000000000000_10001_00001001 = .instr (.readReg 17) := by decide
/-- OPC 0x0A, an unused SEL, and each end of the reserved field (R86). -/
theorem test_decode_unknown :
    decodeCommand 0x0000000A = .refused .unknownCommand ∧ decodeCommand 0x00001006 = .refused .unknownCommand ∧
      decodeCommand 0x00002005 = .refused .unknownCommand ∧ decodeCommand 0x80000005 = .refused .unknownCommand := by
  decide

/-! ## The commands, one step each (95_test_vectors.md section 2.7) -/

/-- The block of the vectors after reset: `W = 2`, `N_USER = 1`, `N_INST = 1`. -/
def fresh : State := State.resetWith Params.vectorsDefault

/-- A table of nine ciphertexts, codes 1 to 9. -/
def table : PvTable := ⟨⟨1⟩, ⟨2⟩, ⟨3⟩, ⟨4⟩, ⟨5⟩, ⟨6⟩, ⟨7⟩, ⟨8⟩, ⟨9⟩⟩

/-- The image of program P1 (95_test_vectors.md section 3). -/
def imageP1 : List Word := [3, 5, 2, 0x00000001, 0x00018002, 0x40000001, 0x40018002, 0x00028006, 4, 7]

/-- The block with a table and P1 in slot 3. -/
def ready : State := { fresh with pvValid := true, pv := table, slots := [(3, imageP1)], slotValid := 15 }

/-- A command at executor 0's port, and its sequencer's move. -/
def withCommand (s : State) (w : Word) (p : Payload) : State :=
  { s with insts := s.insts.map (fun u => { u with port := [⟨w, p⟩] }), plan := [.seq 0] }

/-- The next state's view of a step. -/
def after? {α : Type} (s : State) (f : State → α) : Option α :=
  match step s with
  | .next t => some (f t)
  | .fault _ => none
  | .refused _ => none

/-- `STATUS` of executor 0. -/
def status0 (s : State) : Option Word := (s.insts[0]?).map (·.status)

/-- The results returned. -/
def results (s : State) : List Payload := s.replies.map (·.result)

/-- T1. -/
theorem test_readReg_slotValid : after? (withCommand fresh 0x309 []) results = some [[.word 0x00000007]] := by decide
/-- T2. -/
theorem test_readReg_config : after? (withCommand fresh 0x209 []) results = some [[.word 0x00010102]] := by decide
/-- T5. -/
theorem test_decompose_noTable : after? (withCommand fresh 0x002 [.byte ⟨0x53⟩]) status0 = some (some 0x00000011) := by
  decide
/-- T8. -/
theorem test_loadPv_short :
    after? (withCommand fresh 0x001 (List.replicate 8 (.byte ⟨0⟩))) status0 = some (some 0x00000810) := by decide
/-- T9, and the table in the order of R150. -/
theorem test_loadPv :
    after? (withCommand fresh 0x001 [.byte ⟨1⟩, .byte ⟨2⟩, .byte ⟨3⟩, .byte ⟨4⟩, .byte ⟨5⟩, .byte ⟨6⟩, .byte ⟨7⟩, .byte ⟨8⟩,
      .byte ⟨9⟩]) (fun t => (t.pvValid, t.pv, status0 t)) = some (true, table, some 0) := by decide
/-- T15. -/
theorem test_exec_empty : after? (withCommand fresh 0x305 [.bit ⟨1⟩, .bit ⟨0⟩, .bit ⟨1⟩]) status0 = some (some 0x00000312) := by
  decide
/-- T18, T19. -/
theorem test_loadProg :
    after? (withCommand fresh 0x304 (imageP1.map .word)) (fun t => (status0 t, t.slotValidWord, t.image 3)) =
      some (some 0, 0x0000000F, imageP1) := by decide
/-- T21. -/
theorem test_exec_count : after? (withCommand ready 0x305 [.bit ⟨1⟩, .bit ⟨0⟩]) status0 = some (some 0x00000210) := by decide
/-- T23, T24: vector K9. -/
theorem test_loadProg_refused :
    after? (withCommand ready 0x304 ([3, 1, 1, 0xC0000001, 3].map .word)) (fun t => (status0 t, t.slotValidWord)) =
      some (some 0x00000301, 0x00000007) := by decide
/-- T29: DETAIL is the OPC field, although the fault is in SEL. -/
theorem test_unknown_sel : after? (withCommand ready 0x106 [.byte ⟨0x53⟩]) status0 = some (some 0x00000615) := by decide
/-- T7. -/
theorem test_sbox_noTable : after? (withCommand fresh 0x006 [.byte ⟨0x53⟩]) status0 = some (some 0x00000011) := by decide
/-- A column of three bytes (44_mixcolumns.md R192, 60_exceptions.md R201). -/
theorem test_mixcol_count :
    after? (withCommand ready 0x008 (List.replicate 3 (.byte ⟨0⟩))) status0 = some (some 0x00000310) := by decide
/-- INVSBOX is accepted and runs ROM slot 1 (43_sbox.md R175). -/
theorem test_invsbox_accepted :
    after? (withCommand ready 0x007 [.byte ⟨0x53⟩]) (fun t => t.insts.map (fun u => (u.busy, u.slot, u.phase))) =
      some [(true, 1, .decompose)] := by decide
/-- DECOMPOSE: eight bits, bit 0 by the constant PV[0] (42_codec.md R152). -/
theorem test_decompose :
    after? (withCommand ready 0x002 [.byte ⟨0x53⟩]) (fun t => (results t).map (·.take 1)) =
      some [[.bit (Config.engine.byteEqual (Config.engine.byteAnd ⟨1⟩ ⟨0x53⟩) ⟨1⟩)]] := rfl
/-- RECOMPOSE of seven bits (42_codec.md R155). -/
theorem test_recompose_count :
    after? (withCommand ready 0x003 (List.replicate 7 (.bit ⟨0⟩))) status0 = some (some 0x00000710) := by decide
/-! ## The gates, one step each -/

/-- Executor 0 runs P1 in slot 3 with its three inputs present; worker 0 is `w`, and has the move. -/
def running (w : Worker) : State :=
  { ready with
    insts := [{ Inst.reset 2 with
      wires := [(0, ⟨10⟩), (1, ⟨11⟩), (2, ⟨12⟩)], next := 1, workers := [w, .idle], busy := true, cmd := 0x305, slot := 3
      nIn := 3, n := 5, nOut := 2, phase := .run, bits := [⟨10⟩, ⟨11⟩, ⟨12⟩] }]
    plan := [.worker 0 0] }

/-- Wire `i` of executor 0. -/
def wire0 (i : Nat) (s : State) : Option (Option EncBit) := (s.insts[0]?).map (fun u => cellGet u.wires i)

/-- P1's gate 0, `w3 = w0 XOR w1`. -/
theorem test_xor : after? (running (.claimed 0)) (wire0 3) = some (some (some (Config.engine.bitXor ⟨10⟩ ⟨11⟩))) := rfl
/-- The same with an engine that is not deterministic: its answer to call 0 of step 7 (10_state.md R46). -/
theorem test_xor_drawn :
    after? { running (.claimed 0) with config := { Params.vectorsDefault with deterministic := false }, tick := 7 } (wire0 3) =
      some (some (some ((Config.drawnEngine 7 0).bitXor ⟨10⟩ ⟨11⟩))) := rfl
/-- P1's gate 2, `w5 = w0 AND w1`. -/
theorem test_and : after? (running (.claimed 2)) (wire0 5) = some (some (some (Config.engine.bitAnd ⟨10⟩ ⟨11⟩))) := rfl
/-- P1's gate 1, `w4 = w3 XOR w2`, holds while `w3` is absent (41_executor.md R125). -/
theorem test_xor_holds :
    after? (running (.claimed 1)) (fun t => t.insts.map (fun u => (u.workers, u.wires.length))) =
      some [([.claimed 1, .idle], 3)] := by decide
/-- `w3 = w2 !`, in a program of that one gate. -/
theorem test_not :
    after? { running (.claimed 0) with slots := [(3, [3, 1, 1, 0x80010000, 3])] } (wire0 3) =
      some (some (some (Config.engine.bitNot ⟨12⟩))) := rfl
/-- A claim takes `NEXT`, here 1 (41_executor.md R123). -/
theorem test_claim :
    after? (running .idle) (fun t => t.insts.map (fun u => (u.workers, u.next))) = some [([.claimed 1, .idle], 2)] := by decide

/-! ## The reference programs, on the plaintext engine (95_test_vectors.md sections 1 and 2.7) -/

/-- A list of bits as plaintext ciphertexts. -/
def plain (bits : List Nat) : List EncBit := bits.map EncBit.mk

/-- T22: SBOX_FWD of 0x53 is 0xED. -/
theorem test_sbox_program :
    refOutputs Engine.plaintext.gates sboxFwdImage (plain [1, 1, 0, 0, 1, 0, 1, 0]) = plain [1, 0, 1, 1, 0, 1, 1, 1] := by
  decide +kernel
/-- T13: SBOX_INV of 0xED is 0x53. -/
theorem test_invsbox_program :
    refOutputs Engine.plaintext.gates sboxInvImage (plain [1, 0, 1, 1, 0, 1, 1, 1]) = plain [1, 1, 0, 0, 1, 0, 1, 0] := by
  decide +kernel
/-- V-MIX3: d4 bf 5d 30 is mapped to 04 66 81 e5. -/
theorem test_mixcol_program :
    refOutputs Engine.plaintext.gates mixcolImage
        (plain [0, 0, 1, 0, 1, 0, 1, 1, 1, 1, 1, 1, 1, 1, 0, 1, 1, 0, 1, 1, 1, 0, 1, 0, 0, 0, 0, 0, 1, 1, 0, 0]) =
      plain [0, 0, 1, 0, 0, 0, 0, 0, 0, 1, 1, 0, 0, 1, 1, 0, 1, 0, 0, 0, 0, 0, 0, 1, 1, 0, 1, 0, 0, 1, 1, 1] := by
  decide +kernel
/-- T20: P1 of 1, 0, 1 is sum 0, carry 1. -/
theorem test_program_p1 : refOutputs Engine.plaintext.gates imageP1 (plain [1, 0, 1]) = plain [0, 1] := by decide +kernel
/-- 44_mixcolumns.md R190 on V-MIX4. -/
theorem test_mixColumn : mixColumn [0xE0, 0xB4, 0x52, 0xAE] = [0xE0, 0xCB, 0x19, 0x9A] := by decide

/-! ## The text form (30_encoding.md R82, R83) -/

/-- `w3 = w0 XOR w1`, and a NOT with a comment, from inputs `a`, `b`. -/
def textP : TextProgram where
  inputs := [['a'], ['b']]
  outputs := [['d']]
  body := [['c', ' ', '=', ' ', 'a', ' ', 'X', 'O', 'R', ' ', 'b'], ['#', 'c'], ['d', '=', 'c', '!', '#']]

theorem test_assemble : assemble textP = .ok [2, 2, 1, 0x00000001, 0x80010000, 3] := by decide
/-- A name used before its line is refused with the image word of its gate, here gate 0 on line 2 (60_exceptions.md R201, R204). -/
theorem test_assemble_dangling :
    assemble { textP with body := [['#'], ['d', '=', 'c', '!']] } = .error .ceDanglingOperand 3 := by decide
/-- A name given twice is refused with its line (60_exceptions.md R201), and an input that is no name is refused. -/
theorem test_assemble_names :
    assemble { textP with body := [['#'], ['a', '=', 'b', '!']] } = .error .ceDuplicateName 2 ∧
      assemble { inputs := [xorToken], outputs := [xorToken], body := [] } = .error .ceUnknownOperator 0 := by decide
/-- An output defined nowhere is refused with its selector's image word, 3 + N + j with N = 2 and j = 1 (60_exceptions.md R204). -/
theorem test_assemble_output :
    assemble { textP with outputs := [['d'], ['1', 'a']] } = .error .ceMissingOutput 6 := by decide

/-! ## Witnesses: for each obligation with hypotheses, a state and operands that meet them

`idleWith` is the block of the vectors with a table, P1 in slot 3 and a command at the port of its idle executor. `busyWith` is a
block of one executor with one worker, whose slot 3 holds `imageG`, the one gate `w2 = w0 XOR w1`; the executor runs EXEC of slot
3. `imageZ` has no gate: its one worker exits with its first claim. -/

/-- An executor of `fresh` without its command. -/
def idleInst : Inst := Inst.reset 2

def idleWith (w : Word) (p : Payload) : State := withCommand ready w p

theorem idleWith_accepts (w : Word) (p : Payload) : (idleWith w p).Accepts 0 idleInst ⟨w, p⟩ := ⟨rfl, rfl, rfl⟩

/-- The same block before a table is installed. -/
theorem fresh_accepts (w : Word) (p : Payload) : (withCommand fresh w p).Accepts 0 idleInst ⟨w, p⟩ := ⟨rfl, rfl, rfl⟩

/-- One executor with one worker. -/
def oneWorker : Params := { Params.vectorsDefault with w := 1 }

theorem oneWorker_legal : oneWorker.Legal := ⟨by decide, Rom.reference_legal⟩

def imageG : List Word := [2, 1, 1, 0x00000001, 2]

def imageZ : List Word := [1, 0, 1, 0]

/-- The block of one worker with `img` in slot 3 and a table that meets the duty. -/
def busyWith (img : List Word) (u : Inst) (m : Move) : State :=
  { State.resetWith oneWorker with
    pvValid := true
    pv := ⟨Config.engine.encB 1, Config.engine.encB 2, Config.engine.encB 4, Config.engine.encB 8, Config.engine.encB 16,
      Config.engine.encB 32, Config.engine.encB 64, Config.engine.encB 128, Config.engine.encB 0⟩
    slots := [(3, img)]
    slotValid := 15
    insts := [u]
    plan := [m] }

theorem busyWith_pvDuty (img : List Word) (u : Inst) (m : Move) : (busyWith img u m).PvDuty := by
  refine ⟨rfl, ?_, Config.engine_laws.encB 0⟩
  simp [busyWith, PvTable.powers, Config.engine_laws.encB]

theorem busyWith_inv {img : List Word} {u : Inst} {m : Move} (hc : check img = none) (hr : cellsRising u.wires = true)
    (hl : u.wires.all (fun c => decide (c.1 < maxWires)) = true)
    (hb : u.busy = true → u.BusyOk (busyWith img u m)) (ha : u.running = false → ∀ k, Worker.claimed k ∉ u.workers) :
    (busyWith img u m).Inv where
  config := ⟨oneWorker_legal.bounds, oneWorker_legal.rom⟩
  executors := rfl
  memory := by
    simp only [Memory.wf, busyWith, List.all_cons, List.all_nil, Bool.and_true, hr, hl, Bool.and_self]
    rfl
  checked sel hs := by
    match sel with
    | 0 => exact (programOk_facts sboxFwd_ok).1
    | 1 => exact (programOk_facts sboxInv_ok).1
    | 2 => exact (programOk_facts mixcol_ok).1
    | 3 => exact hc
    | k + 4 => simp [State.slotOk, busyWith, State.resetWith, oneWorker, Params.vectorsDefault] at hs
  busy q v hv hvb := by
    match q with
    | 0 =>
      obtain rfl : u = v := by simpa [busyWith] using hv
      exact hb hvb
    | k + 1 => simp [busyWith] at hv
  atRest q v hv hr := by
    match q with
    | 0 =>
      obtain rfl : u = v := by simpa [busyWith] using hv
      exact ha hr
    | k + 1 => simp [busyWith] at hv

theorem busyWith_slot3 (img : List Word) (u : Inst) (m : Move) : (busyWith img u m).slotOk 3 = true := by
  simp [State.slotOk, busyWith, State.resetWith, oneWorker, Params.vectorsDefault]

/-- The executor of `busyWith imageG` in the start phase of EXEC. -/
def startG : Inst :=
  { Inst.reset 1 with
    busy := true, cmd := 0x305, slot := 3, nIn := 2, n := 1, nOut := 1, phase := .start, bits := [⟨10⟩, ⟨11⟩] }

/-- It has begun the worker phase. -/
def runG : Inst := startG.startRun 1

/-- Its worker has claimed gate 0. -/
def claimedG : Inst := runG.claim 0

/-- The executor of `busyWith imageZ` in the start phase of EXEC. -/
def startZ : Inst :=
  { Inst.reset 1 with busy := true, cmd := 0x305, slot := 3, nIn := 1, n := 0, nOut := 1, phase := .start, bits := [⟨10⟩] }

/-- Its worker has exited. -/
def joinedZ : Inst := (startZ.startRun 1).claim 0

theorem startG_inv (m : Move) : (busyWith imageG startG m).Inv :=
  busyWith_inv (by decide) rfl rfl (fun _ =>
    ⟨.inl (by decide), busyWith_slot3 _ _ _, (fun h => by cases h), fun _ => ⟨⟨rfl, rfl, rfl⟩, rfl⟩, fun h => by cases h⟩)
    fun _ k => by simp [startG, Inst.reset]

theorem runG_inv (m : Move) : (busyWith imageG runG m).Inv :=
  busyWith_inv (by decide) rfl rfl (fun _ =>
    ⟨.inl (by decide), busyWith_slot3 _ _ _, (fun h => by cases h), (fun h => by cases h),
      fun _ => ⟨⟨rfl, rfl, rfl⟩, rfl, startRun_runOk startG 1 rfl⟩⟩)
    fun h => by cases h

theorem claimedG_inv (m : Move) : (busyWith imageG claimedG m).Inv :=
  busyWith_inv (by decide) rfl rfl (fun _ =>
    ⟨.inl (by decide), busyWith_slot3 _ _ _, (fun h => by cases h), (fun h => by cases h),
      fun _ => ⟨⟨rfl, rfl, rfl⟩, rfl, claim_runOk (workers := 1) (startRun_runOk startG 1 rfl) rfl (by decide)⟩⟩)
    fun h => by cases h

theorem joinedZ_inv (m : Move) : (busyWith imageZ joinedZ m).Inv :=
  busyWith_inv (by decide) rfl rfl (fun _ =>
    ⟨.inl (by decide), busyWith_slot3 _ _ _, (fun h => by cases h), (fun h => by cases h),
      fun _ => ⟨⟨rfl, rfl, rfl⟩, rfl, claim_runOk (workers := 1) (startRun_runOk startZ 1 rfl) rfl (by decide)⟩⟩)
    fun h => by cases h

theorem busyWith_values {img : List Word} {u : Inst} {m : Move} (h : u.running = true → u.ValuesOk ((busyWith img u m).image u.slot) true) :
    (busyWith img u m).Values := by
  intro q v hv hr
  match q with
  | 0 =>
    obtain rfl : u = v := by simpa [busyWith] using hv
    exact h hr
  | k + 1 => simp [busyWith] at hv

theorem runG_values (m : Move) : (busyWith imageG runG m).Values := busyWith_values fun _ => startRun_valuesOk startG 1 imageG true

theorem claimedG_values (m : Move) : (busyWith imageG claimedG m).Values :=
  busyWith_values fun _ => startRun_valuesOk startG 1 imageG true

theorem joinedZ_values (m : Move) : (busyWith imageZ joinedZ m).Values :=
  busyWith_values fun _ => startRun_valuesOk startZ 1 imageZ true

/-- A block that runs the composite command `w` of ROM slot `slot`, in its first phase. -/
def composite (w : Word) (slot : Nat) (bytes : List EncByte) : Inst :=
  { Inst.reset 1 with busy := true, cmd := w, slot := slot, phase := .decompose, args := bytes.map .byte }

theorem composite_inv (w : Word) (slot : Nat) (bytes : List EncByte) (m : Move)
    (hc : (composite w slot bytes).cmdOk) (hs : slot ≤ 2)
    (hb : 8 * bytes.length = imageNIn ((busyWith imageG (composite w slot bytes) m).image slot)) :
    (busyWith imageG (composite w slot bytes) m).Inv :=
  busyWith_inv (by decide) rfl rfl (fun _ =>
    ⟨hc, by simp [State.slotOk, composite, hs], fun _ => ⟨bytes, bytesOf_eq_some.mpr rfl, hb⟩, (fun h => by cases h),
      fun h => by cases h⟩) fun _ k => by simp [composite, Inst.reset]

theorem composite_values (w : Word) (slot : Nat) (bytes : List EncByte) (m : Move) :
    (busyWith imageG (composite w slot bytes) m).Values := busyWith_values fun h => by cases h

/-- Encoding. -/
theorem witness_DecodeUndoesEncode :
    (Instr.xor 32767 32767).wf = true ∧ (Instr.not 0).wf = true ∧ (Instr.exec 31).wf = true ∧ Instr.mixcol.wf = true := by decide

theorem witness_EncodeUndoesDecode :
    decodeAt true 0x7FFF8000 = .instr (.and 32767 0) ∧ decodeAt false 0x00001F09 = .instr (.readReg 31) := by decide

/-- Both directions and every alternative of the two refusal statements, at the ends of the fields. -/
theorem witness_WordsRefusedByName :
    (BitVec.extractLsb' 30 2 (0xC0000000 : Word) = 3 ∧ decodeGate 0xC0000000 = .refused .unknownOperator) ∧
      (BitVec.extractLsb' 30 2 (0x80004000 : Word) = 2 ∧ decodeGate 0x80004000 = .refused .reservedNonzero) ∧
      decodeCommand 0x00000000 = .refused .unknownCommand ∧ decodeCommand 0x0000000A = .refused .unknownCommand ∧
      decodeCommand 0x00002005 = .refused .unknownCommand ∧ decodeCommand 0x00000108 = .refused .unknownCommand := by decide

/-- A sequencer with a command at its port, one with a running command, and a worker with a claimed gate. -/
theorem witness_StepRunsTheDecodedInstruction :
    ((idleWith 0x305 []).acting = .seq 0 ∧ ∃ u c rest, (idleWith 0x305 []).insts[0]? = some u ∧ u.busy = false ∧
        u.port = c :: rest ∧ decodeCommand c.word = .instr (.exec 3)) ∧
      ((busyWith imageG startG (.seq 0)).acting = .seq 0 ∧ (busyWith imageG startG (.seq 0)).insts[0]? = some startG ∧
        startG.busy = true ∧ decodeCommand startG.cmd = .instr (.exec 3)) ∧
      ((busyWith imageG claimedG (.worker 0 0)).Evaluates 0 0 0 claimedG ∧
        decodeGate (((busyWith imageG claimedG (.worker 0 0)).image claimedG.slot).getD (3 + 0) 0) = .instr (.xor 0 1)) :=
  ⟨⟨rfl, _, _, _, rfl, rfl, rfl, by decide⟩, ⟨rfl, rfl, rfl, by decide⟩, ⟨rfl, rfl, rfl, rfl⟩, by decide⟩

theorem witness_UnknownCommandIsRaised :
    (idleWith 0x106 []).Accepts 0 idleInst ⟨0x106, []⟩ ∧ decodeCommand 0x106 = .refused .unknownCommand :=
  ⟨idleWith_accepts _ _, by decide⟩

/-- The last wire of the wire file: one input and 32767 gates, of which the worker has claimed the last. -/
def lastWire : Inst := { claimedG with nIn := 1, n := 32767, workers := [.claimed 32766] }

theorem witness_EvaluateStepWritesItsWire :
    ((busyWith imageG claimedG (.worker 0 0)).Evaluates 0 0 0 claimedG ∧ claimedG.nIn + 0 < maxWires ∧
        cellGet claimedG.wires 0 = some ⟨10⟩ ∧ cellGet claimedG.wires 1 = some ⟨11⟩) ∧
      ((busyWith imageG lastWire (.worker 0 0)).Evaluates 0 0 32766 lastWire ∧ lastWire.nIn + 32766 < maxWires ∧
        cellGet lastWire.wires 0 = some ⟨10⟩ ∧ cellGet lastWire.wires 1 = some ⟨11⟩) ∧
      check imageG = none ∧ 0 < imageN imageG :=
  ⟨⟨⟨rfl, rfl, rfl, rfl⟩, by decide, rfl, rfl⟩, ⟨⟨rfl, rfl, rfl, rfl⟩, by decide, rfl, rfl⟩, by decide, by decide⟩

theorem witness_GatesMeetTheTruthTable :
    (busyWith imageG claimedG (.worker 0 0)).Evaluates 0 0 0 claimedG ∧ claimedG.nIn + 0 < maxWires ∧
      cellGet claimedG.wires 0 = some ⟨10⟩ ∧ cellGet claimedG.wires 1 = some ⟨11⟩ ∧
      ∃ v, v = (Config.engine.decb ⟨10⟩ ^^ Config.engine.decb ⟨11⟩) :=
  ⟨⟨rfl, rfl, rfl, rfl⟩, by decide, rfl, rfl, _, rfl⟩

theorem witness_SameWireAsBothOperands :
    (busyWith imageG claimedG (.worker 0 0)).Evaluates 0 0 0 claimedG ∧ claimedG.nIn + 0 < maxWires ∧
      cellGet claimedG.wires 1 = some ⟨11⟩ := ⟨⟨rfl, rfl, rfl, rfl⟩, by decide, rfl⟩

/-- The first operand absent, and only the second. -/
theorem witness_HeldWorkerWaits :
    (busyWith imageG claimedG (.worker 0 0)).Evaluates 0 0 0 claimedG ∧ cellGet claimedG.wires 2 = none ∧
      cellGet claimedG.wires 1 ≠ none := ⟨⟨rfl, rfl, rfl, rfl⟩, rfl, by decide⟩

/-- A gate that writes its wire, and one that holds. -/
theorem witness_GatesWriteOnlyTheirWire :
    (Instr.xor 0 1).isGate = true ∧ (∃ t, exec (.xor 0 1) (busyWith imageG claimedG (.worker 0 0)) = .next t) ∧
      ∃ t, exec (.xor 0 2) (busyWith imageG claimedG (.worker 0 0)) = .next t := ⟨rfl, ⟨_, rfl⟩, _, rfl⟩

/-- A claim of the last gate, and one past it. -/
theorem witness_ClaimTakesTheNextIndex :
    ((busyWith imageG runG (.worker 0 0)).acting = .worker 0 0 ∧ (busyWith imageG runG (.worker 0 0)).insts[0]? = some runG ∧
        runG.busy = true ∧ runG.phase = .run ∧ runG.workers[0]? = some .idle ∧ runG.next.toNat + 1 = runG.n) ∧
      ({ runG with next := 1 } : Inst).workers[0]? = some .idle ∧ ({ runG with next := 1 } : Inst).next.toNat = runG.n :=
  ⟨⟨rfl, rfl, rfl, rfl, rfl, rfl⟩, rfl, rfl⟩

/-- The first slot that does not exist; the last that does, not valid; valid, with two bits, with words, and with three bits. -/
theorem witness_ExecAdmission :
    (idleWith 0x405 []).Accepts 0 idleInst ⟨0x405, []⟩ ∧ 3 + (idleWith 0x405 []).config.nUser ≤ 4 ∧
      ((withCommand fresh 0x305 []).Accepts 0 idleInst ⟨0x305, []⟩ ∧ 3 < 3 + (withCommand fresh 0x305 []).config.nUser ∧
        (withCommand fresh 0x305 []).slotValidWord.getLsbD 3 = false) ∧
      ((idleWith 0x305 [.word 0]).slotOk 3 = true ∧ ∀ bits : List EncBit, [Item.word 0] = bits.map .bit → False) ∧
      ((idleWith 0x305 [.bit ⟨0⟩, .bit ⟨1⟩]).slotOk 3 = true ∧
        ∀ bits : List EncBit, [Item.bit ⟨0⟩, .bit ⟨1⟩] = bits.map .bit → bits.length ≠ imageNIn imageP1) ∧
      ((idleWith 0x305 [.bit ⟨0⟩, .bit ⟨1⟩, .bit ⟨0⟩]).image 3 = imageP1 ∧
        [Item.bit ⟨0⟩, .bit ⟨1⟩, .bit ⟨0⟩] = [⟨0⟩, ⟨1⟩, ⟨0⟩].map .bit ∧ 3 = imageNIn imageP1) := by
  refine ⟨idleWith_accepts _ _, by decide, ⟨fresh_accepts _ _, by decide, by decide⟩, ⟨by decide, fun bits h => ?_⟩,
    ⟨by decide, fun bits h => ?_⟩, rfl, rfl, by decide⟩
  · cases bits <;> simp at h
  · have := congrArg List.length h
    simp only [List.length_cons, List.length_nil, List.length_map] at this
    rw [← this]
    decide

theorem witness_StartPhaseLoadsTheInputs :
    (busyWith imageG startG (.seq 0)).Runs 0 startG ∧ startG.phase = .start ∧ Instr.exec 3 = .exec startG.slot ∧
      (busyWith imageG startG (.worker 0 0)).acting = .worker 0 0 ∧
      (busyWith imageG startG (.worker 0 0)).insts[0]? = some startG := ⟨⟨rfl, rfl, rfl⟩, rfl, rfl, rfl, rfl⟩

/-- A worker that has not exited, and workers that all have. -/
theorem witness_JoinHasEveryWire :
    ((busyWith imageG claimedG (.seq 0)).Inv ∧ (busyWith imageG claimedG (.seq 0)).insts[0]? = some claimedG ∧
        claimedG.busy = true ∧ claimedG.phase = .run ∧ ∃ w, w ∈ claimedG.workers ∧ w ≠ .exited) ∧
      ((busyWith imageZ joinedZ (.seq 0)).Inv ∧ (busyWith imageZ joinedZ (.seq 0)).insts[0]? = some joinedZ ∧
        joinedZ.busy = true ∧ joinedZ.phase = .run ∧ ∀ w ∈ joinedZ.workers, w = .exited) :=
  ⟨⟨claimedG_inv _, rfl, rfl, rfl, .claimed 0, by decide, by decide⟩, joinedZ_inv _, rfl, rfl, rfl, by decide⟩

theorem witness_ExecCompletes :
    (busyWith imageZ joinedZ (.seq 0)).Inv ∧ (busyWith imageZ joinedZ (.seq 0)).Runs 0 joinedZ ∧ joinedZ.phase = .run ∧
      ∀ w ∈ joinedZ.workers, w = .exited := ⟨joinedZ_inv _, ⟨rfl, rfl, rfl⟩, rfl, by decide⟩

/-- No table; a table and no byte, or the wrong kind; a table and the right bytes. -/
theorem witness_CompositesBegin :
    ((withCommand fresh 0x006 []).Accepts 0 idleInst ⟨0x006, []⟩ ∧ (withCommand fresh 0x006 []).pvValid = false) ∧
      ((idleWith 0x006 []).Accepts 0 idleInst ⟨0x006, []⟩ ∧ (idleWith 0x006 []).pvValid = true ∧
        ∀ bytes : List EncByte, ([] : Payload) = bytes.map .byte → bytes.length ≠ 1) ∧
      ((idleWith 0x008 [.byte ⟨1⟩, .byte ⟨2⟩, .byte ⟨3⟩, .byte ⟨4⟩]).pvValid = true ∧
        [Item.byte ⟨1⟩, .byte ⟨2⟩, .byte ⟨3⟩, .byte ⟨4⟩] = [⟨1⟩, ⟨2⟩, ⟨3⟩, ⟨4⟩].map .byte ∧
        [(⟨1⟩ : EncByte), ⟨2⟩, ⟨3⟩, ⟨4⟩].length = 4) := by
  refine ⟨⟨fresh_accepts _ _, rfl⟩, ⟨idleWith_accepts _ _, rfl, fun bytes h => ?_⟩, rfl, rfl, rfl⟩
  cases bytes <;> simp at h ⊢

/-- An SBOX at the join of its inner EXEC, here of the program without a gate. -/
theorem witness_CompositesComplete :
    (busyWith imageZ joinedZ (.seq 0)).Inv ∧ (busyWith imageZ joinedZ (.seq 0)).Runs 0 joinedZ ∧ joinedZ.phase = .run ∧
      (∀ w ∈ joinedZ.workers, w = .exited) ∧ Instr.sbox = .sbox := ⟨joinedZ_inv _, ⟨rfl, rfl, rfl⟩, rfl, by decide, rfl⟩

theorem witness_PhasesFrame :
    (∃ t, exec .sbox (idleWith 0x006 []) = .next t) ∧ (∃ t, exec (.exec 3) (busyWith imageG startG (.seq 0)) = .next t) ∧
      ∃ t, exec .mixcol (busyWith imageZ joinedZ (.seq 0)) = .next t := ⟨⟨_, rfl⟩, ⟨_, rfl⟩, _, rfl⟩

/-- A slot that does not exist; ROM slots 0 and 2; slot 3 with a payload of bits, and with the image K9. -/
theorem witness_LoadProgRefusesByCause :
    (idleWith 0x404 []).Accepts 0 idleInst ⟨0x404, []⟩ ∧ 3 + (idleWith 0x404 []).config.nUser ≤ 4 ∧
      2 < 3 + (idleWith 0x204 []).config.nUser ∧ 3 < 3 + (idleWith 0x304 []).config.nUser ∧
      (∀ v ∈ (idleWith 0x304 [.bit ⟨0⟩]).insts, v.busy = true → v.slot ≠ 3) ∧
      (∀ img : List Word, [Item.bit ⟨0⟩] ≠ img.map .word) ∧
      check [3, 1, 1, 0xC0000001, 3] = some (.ceUnknownOperator, 3) := by
  refine ⟨idleWith_accepts _ _, by decide, by decide, by decide, by decide, fun img h => ?_, by decide⟩
  cases img <;> simp at h

theorem witness_LoadProgStoresACheckedImage :
    (idleWith 0x304 (imageG.map .word)).Accepts 0 idleInst ⟨0x304, imageG.map .word⟩ ∧
      3 < 3 + (idleWith 0x304 (imageG.map .word)).config.nUser ∧
      (∀ v ∈ (idleWith 0x304 (imageG.map .word)).insts, v.busy = true → v.slot ≠ 3) ∧ check imageG = none :=
  ⟨idleWith_accepts _ _, by decide, by decide, by decide⟩

/-- Two executors: the first has the command, the second runs the slot. -/
def heldLoad : State :=
  { ready with insts := [{ idleInst with port := [⟨0x304, []⟩] }, { idleInst with busy := true, slot := 3 }], plan := [.seq 0] }

theorem witness_LoadProgIsHeldWhileTheSlotRuns :
    heldLoad.Accepts 0 idleInst ⟨0x304, []⟩ ∧ 3 < 3 + heldLoad.config.nUser ∧
      { idleInst with busy := true, slot := 3 } ∈ heldLoad.insts ∧ exec (.loadProg 3) heldLoad = .next heldLoad :=
  ⟨⟨rfl, rfl, rfl⟩, by decide, by decide, rfl⟩

/-- An image of two words; the reserved bits of the third header word; a size that is legal to the last wire and one that is not; two
gates of which the second is dangling; two selectors of which the second is out of range or has a reserved bit. -/
theorem witness_CheckReportsTheFirstFailure :
    [(1 : Word), 0].length < 3 ∧
      (headerReserved (memRead [1, 0, 0x00010001, 0] 2) ≠ 0 ∧ headerReserved (memRead [1, 0, 0x00010001, 0] 0) = 0 ∧
        headerReserved (memRead [1, 0, 0x00010001, 0] 1) = 0) ∧
      (imageNIn [0x7FFF, 1, 1, 0, 0] + imageN [0x7FFF, 1, 1, 0, 0] = maxWires ∧
        imageNIn [0x8000, 1, 1, 0, 0] + imageN [0x8000, 1, 1, 0, 0] = maxWires + 1) ∧
      (selectorFailure 1 (memRead [1, 0, 2, 0, 1] 3) = none ∧ selectorFailure 1 (memRead [1, 0, 2, 0, 1] 4) = some .ceMissingOutput ∧
        selectorFailure 1 (memRead [1, 0, 2, 0, 0x8000] 4) = some .ceReservedNonzero) ∧
    (∀ a, a < 3 → headerReserved (memRead [1, 2, 1, 0, 0x00008002, 0] a) = 0) ∧ 1 ≤ imageNIn [1, 2, 1, 0, 0x00008002, 0] ∧
      1 ≤ imageNOut [1, 2, 1, 0, 0x00008002, 0] ∧
      imageNIn [1, 2, 1, 0, 0x00008002, 0] + imageN [1, 2, 1, 0, 0x00008002, 0] ≤ maxWires ∧
      [1, 2, 1, 0, 0x00008002, (0 : Word)].length = 3 + imageN [1, 2, 1, 0, 0x00008002, 0] + imageNOut [1, 2, 1, 0, 0x00008002, 0] ∧
      1 < imageN [1, 2, 1, 0, 0x00008002, 0] ∧ gateFailure 1 0 (imageGate [1, 2, 1, 0, 0x00008002, 0] 0) = none ∧
      gateFailure 1 1 (imageGate [1, 2, 1, 0, 0x00008002, 0] 1) = some .ceDanglingOperand := by decide

/-- A table already there; none and eight bytes; none and nine. -/
theorem witness_LoadPvInstallsTheTable :
    ((idleWith 0x001 []).Accepts 0 idleInst ⟨0x001, []⟩ ∧ (idleWith 0x001 []).pvValid = true) ∧
      ((withCommand fresh 0x001 []).Accepts 0 idleInst ⟨0x001, []⟩ ∧ (withCommand fresh 0x001 []).pvValid = false ∧
        ∀ bytes : List EncByte, List.replicate 8 (Item.byte ⟨0⟩) = bytes.map .byte → bytes.length ≠ 9) ∧
      List.replicate 9 (Item.byte ⟨0⟩) = (List.replicate 9 ⟨0⟩).map .byte := by
  refine ⟨⟨idleWith_accepts _ _, rfl⟩, ⟨fresh_accepts _ _, rfl, fun bytes h => ?_⟩, by decide⟩
  have := congrArg List.length h
  simp only [List.length_replicate, List.length_map] at this
  omega

/-- No table; a table and no payload; a table and one byte. -/
theorem witness_DecomposeReturnsEightBits :
    ((withCommand fresh 0x002 []).Accepts 0 idleInst ⟨0x002, []⟩ ∧ (withCommand fresh 0x002 []).pvValid = false) ∧
      ((idleWith 0x002 []).Accepts 0 idleInst ⟨0x002, []⟩ ∧ (idleWith 0x002 []).pvValid = true ∧
        ∀ b, ([] : Payload) ≠ [.byte b]) ∧
      (idleWith 0x002 [.byte ⟨7⟩]).Accepts 0 idleInst ⟨0x002, [.byte ⟨7⟩]⟩ :=
  ⟨⟨fresh_accepts _ _, rfl⟩, ⟨idleWith_accepts _ _, rfl, fun b h => by cases h⟩, idleWith_accepts _ _⟩

/-- No table; a table and no payload; a table and eight bits. -/
theorem witness_RecomposeReturnsTheTree :
    ((withCommand fresh 0x003 []).Accepts 0 idleInst ⟨0x003, []⟩ ∧ (withCommand fresh 0x003 []).pvValid = false) ∧
      ((idleWith 0x003 []).Accepts 0 idleInst ⟨0x003, []⟩ ∧ (idleWith 0x003 []).pvValid = true ∧
        ∀ bits : List EncBit, ([] : Payload) = bits.map .bit → bits.length ≠ 8) ∧
      (idleWith 0x003 (List.replicate 8 (.bit ⟨1⟩))).Accepts 0 idleInst ⟨0x003, [.bit ⟨1⟩, .bit ⟨1⟩, .bit ⟨1⟩, .bit ⟨1⟩,
        .bit ⟨1⟩, .bit ⟨1⟩, .bit ⟨1⟩, .bit ⟨1⟩]⟩ := by
  refine ⟨⟨fresh_accepts _ _, rfl⟩, ⟨idleWith_accepts _ _, rfl, fun bits h => ?_⟩, idleWith_accepts _ _⟩
  cases bits <;> simp at h ⊢

/-- A table that meets the duty, for the three laws of the codec. -/
theorem witness_CodecLaws : (busyWith imageG startG (.seq 0)).pv.Duty := (busyWith_pvDuty _ _ _).2

/-- Each of the five, with a fault and with a result. -/
theorem witness_OneStepCommandsFrame :
    (∃ t, exec .loadPv (idleWith 0x001 []) = .next t) ∧ (∃ t, exec .decompose (idleWith 0x002 [.byte ⟨1⟩]) = .next t) ∧
      (∃ t, exec .recompose (idleWith 0x003 []) = .next t) ∧ (∃ t, exec (.readReg 31) (idleWith 0x1F09 []) = .next t) ∧
      (∃ t, exec (.loadProg 3) (idleWith 0x304 (imageG.map .word)) = .next t) ∧
      ∃ t, exec (.loadProg 3) (idleWith 0x304 []) = .next t :=
  ⟨⟨_, rfl⟩, ⟨_, rfl⟩, ⟨_, rfl⟩, ⟨_, rfl⟩, ⟨_, rfl⟩, _, rfl⟩

theorem witness_ReadRegReturnsTheRegister :
    (idleWith 0x309 []).Accepts 0 idleInst ⟨0x309, []⟩ ∧ (idleWith 0x009 [.word 1]).Accepts 0 idleInst ⟨0x009, [.word 1]⟩ ∧
      [Item.word 1] ≠ [] := ⟨idleWith_accepts _ _, idleWith_accepts _ _, by decide⟩

/-- The last ROM slot, the first user slot, the first slot that does not exist, and the last bit; and no user slot at all. -/
theorem witness_SlotValidHardwiredBits :
    fresh.config.nUser ≤ 29 ∧ ready.slotValidWord.getLsbD 2 = true ∧ ready.slotValidWord.getLsbD 3 = true ∧
      ready.slotValidWord.getLsbD 4 = false ∧ ready.slotValidWord.getLsbD 31 = false ∧
      ({ ready with config := { Params.vectorsDefault with nUser := 0 } } : State).slotValidWord.getLsbD 3 = false ∧
      ({ ready with config := { Params.vectorsDefault with nUser := 29 }, slotValid := 0x80000000 } : State).slotValidWord.getLsbD
        31 = true := by decide

/-- The smallest and the largest legal parameters, one with each kind of engine. -/
theorem witness_ResetLeavesTheSpecsValues :
    ({ Params.vectorsDefault with w := 1, nUser := 0 } : Params).Legal ∧
      ({ Params.vectorsDefault with wMax := 255, w := 255, nUser := 29, nInst := 255, deterministic := false } : Params).Legal :=
  ⟨⟨by decide, Rom.reference_legal⟩, by decide, Rom.reference_legal⟩

theorem witness_ResetOnlyWhileIdle :
    (busyWith imageG startG (.host .reset)).plan = [.host .reset] ∧
      (∃ u ∈ (busyWith imageG startG (.host .reset)).insts, u.busy = true) ∧
      ∀ u ∈ (busyWith imageG (Inst.reset 1) (.host .reset)).insts, u.busy = false :=
  ⟨rfl, ⟨startG, List.mem_cons_self, rfl⟩, by simp [busyWith, Inst.reset]⟩

theorem witness_CommandsAreHeldWhileBusy :
    (busyWith imageG startG (.host (.issue 0 ⟨9, []⟩))).plan = [.host (.issue 0 ⟨9, []⟩)] ∧
      (busyWith imageG startG (.host (.issue 0 ⟨9, []⟩))).insts[0]? = some startG ∧
      (busyWith imageG startG (.host (.issue 0 ⟨9, []⟩))).Inv ∧ startG.busy = true ∧
      ∃ t, step (busyWith imageG startG (.host (.issue 0 ⟨9, []⟩))) = .next t :=
  ⟨rfl, rfl, startG_inv _, rfl, _, rfl⟩

theorem witness_TableIsReadOnlyWithinASession :
    (∃ t, step (idleWith 0x001 []) = .next t) ∧ (idleWith 0x001 []).pvValid = true ∧
      (idleWith 0x001 []).acting ≠ .host .reset := ⟨⟨_, rfl⟩, rfl, by decide⟩

/-- A step that adds a fault. -/
theorem witness_HistoryIsNeverCleared : after? (idleWith 0x106 []) (fun t => t.faults.length) = some 1 := by decide

/-- A fault that clears a slot's valid bit, and one that clears none. -/
theorem witness_FaultsArePrecise :
    (∃ t, exec (.loadProg 3) (idleWith 0x304 []) = .next t ∧ t.faults ≠ (idleWith 0x304 []).faults) ∧
      ∃ t, exec .loadPv (idleWith 0x001 []) = .next t ∧ t.faults ≠ (idleWith 0x001 []).faults :=
  ⟨⟨_, rfl, by decide⟩, _, rfl, by decide⟩

theorem witness_ExecutorsDoNotInteract :
    heldLoad.acting = .seq 0 ∧ (∃ t, step heldLoad = .next t) ∧ (1 : Nat) ≠ 0 := ⟨rfl, ⟨_, rfl⟩, by decide⟩

theorem witness_RunningImageIsStable :
    (∃ t, step heldLoad = .next t) ∧ heldLoad.insts[1]? = some { idleInst with busy := true, slot := 3 } := ⟨⟨_, rfl⟩, rfl⟩

/-- A claim: the executor is running before and after, and a wire is present. -/
theorem witness_WiresAreSingleAssignment :
    (busyWith imageG runG (.worker 0 0)).Inv ∧ (busyWith imageG runG (.worker 0 0)).insts[0]? = some runG ∧
      runG.running = true ∧ cellGet runG.wires 1 = some ⟨11⟩ ∧ claimedG.running = true ∧
      ∃ t, step (busyWith imageG runG (.worker 0 0)) = .next t ∧ t.insts[0]? = some claimedG :=
  ⟨runG_inv _, rfl, rfl, rfl, rfl, _, rfl, rfl⟩

/-- A state in a worker phase that takes a step, for the invariants. -/
theorem witness_StepKeepsTheInvariant :
    (busyWith imageG claimedG (.worker 0 0)).Inv ∧ (busyWith imageG claimedG (.worker 0 0)).Values ∧
      ∃ t, step (busyWith imageG claimedG (.worker 0 0)) = .next t := ⟨claimedG_inv _, claimedG_values _, _, rfl⟩

theorem witness_OutputsDoNotDependOnTheSchedule :
    (busyWith imageZ joinedZ (.seq 0)).Inv ∧ (busyWith imageZ joinedZ (.seq 0)).Values ∧
      (busyWith imageZ joinedZ (.seq 0)).insts[0]? = some joinedZ ∧ joinedZ.running = true ∧ joinedZ.joined = true ∧
      (busyWith imageZ joinedZ (.seq 0)).image joinedZ.slot = imageZ := ⟨joinedZ_inv _, joinedZ_values _, rfl, rfl, rfl, rfl⟩

/-- A worker that can evaluate, one that holds while `w3` is absent, and one that has exited (41_executor.md R125). -/
theorem witness_SomeWorkerCanMove :
    ((busyWith imageG claimedG (.seq 0)).Inv ∧ (busyWith imageG claimedG (.seq 0)).insts[0]? = some claimedG ∧
      claimedG.running = true ∧ claimedG.joined = false ∧ (busyWith imageG claimedG (.seq 0)).workerEnabled 0 0 = true) ∧
      (running (.claimed 1)).workerEnabled 0 0 = false ∧
      (busyWith imageZ joinedZ (.seq 0)).Inv ∧ joinedZ.running = true ∧
      (busyWith imageZ joinedZ (.seq 0)).workerEnabled 0 0 = false :=
  ⟨⟨claimedG_inv _, rfl, rfl, rfl, by decide⟩, by decide, joinedZ_inv _, rfl, by decide⟩

/-- A schedule in which the sequencer and the worker take turns; and the exited worker of `joinedZ`, of which fairness asks
nothing. -/
theorem witness_WeaklyFairSchedulesReachTheJoin :
    ((busyWith imageG runG (.seq 0)).Inv ∧ (busyWith imageG runG (.seq 0)).insts[0]? = some runG ∧ runG.running = true ∧
      (busyWith imageG runG (.seq 0)).WeaklyFair 0 (fun n => if n % 2 = 0 then .seq 0 else .worker 0 0)) ∧
      ∃ t, (busyWith imageZ joinedZ (.seq 0)).upTo (fun _ => .host .quiet) 2 = .next t ∧ t.workerEnabled 0 0 = false := by
  refine ⟨⟨runG_inv _, rfl, rfl, fun w n hw => ⟨2 * n + 1, by omega, .inl ?_⟩⟩, _, rfl, by decide⟩
  obtain rfl : w = 0 := Nat.lt_one_iff.mp hw
  exact if_neg (by omega)

theorem witness_FairRoundsReachTheJoin :
    (busyWith imageG runG (.seq 0)).Inv ∧ (busyWith imageG runG (.seq 0)).insts[0]? = some runG ∧ runG.running = true ∧
      (∀ r ∈ List.replicate 3 [Move.host .quiet, .worker 0 0], fairRound 0 (busyWith imageG runG (.seq 0)).config.w r) ∧
      2 * runG.n + (busyWith imageG runG (.seq 0)).config.w ≤ 3 := by
  refine ⟨runG_inv _, rfl, rfl, fun r hr => ?_, by decide⟩
  obtain rfl := (List.mem_replicate.mp hr).2
  refine ⟨fun w hw => ?_, by decide⟩
  obtain rfl : w = 0 := Nat.lt_one_iff.mp hw
  decide

/-- EXEC just after its start phase, and at its release, whose move returns the result. -/
theorem witness_ExecAnswersTheReference :
    ((busyWith imageG runG (.seq 0)).Inv ∧ (busyWith imageG runG (.seq 0)).Values ∧
        (busyWith imageG runG (.seq 0)).ExecUnderWay 0 3 [⟨10⟩, ⟨11⟩]) ∧
      ∃ t, (busyWith imageG runG (.seq 0)).after [.seq 0, .worker 0 0, .worker 0 0, .worker 0 0, .seq 0, .seq 0, .seq 0] =
        .next t ∧ t.replies.length = 1 :=
  ⟨⟨runG_inv _, runG_values _, runG, rfl, rfl, by decide, rfl, rfl⟩, _, rfl, rfl⟩

/-- The inputs of each program on the plaintext engine, and a legal ROM. -/
theorem witness_ProgramContracts :
    Rom.reference.Legal ∧ Engine.plaintext.Laws ∧ (plain [1, 1, 0, 0, 1, 0, 1, 0]).map Engine.plaintext.decb = byteBits 0x53 ∧
      (plain (List.replicate 32 1)).map Engine.plaintext.decb = [0xFF, 0xFF, 0xFF, 0xFF].flatMap byteBits :=
  ⟨Rom.reference_legal, Engine.plaintext_laws, by decide, by decide⟩

/-- SBOX just accepted, in a block whose table meets the duty. -/
def sboxBlock : State := busyWith imageG (composite 0x006 0 [⟨5⟩]) (.seq 0)

/-- INVSBOX just accepted. -/
def invsboxBlock : State := busyWith imageG (composite 0x007 1 [⟨5⟩]) (.seq 0)

/-- MIXCOL just accepted. -/
def mixcolBlock : State := busyWith imageG (composite 0x008 2 [⟨5⟩, ⟨6⟩, ⟨7⟩, ⟨8⟩]) (.seq 0)

theorem witness_SboxAnswersTheTable :
    sboxBlock.Inv ∧ sboxBlock.Values ∧ sboxBlock.PvDuty ∧ sboxBlock.CompositeUnderWay 0 .sbox 0 [⟨5⟩] ∧
      ∃ t, sboxBlock.after [.seq 0, .seq 0] = .next t :=
  ⟨composite_inv _ _ _ _ (.inr (.inl ⟨by decide, rfl⟩)) (by decide) (by decide), composite_values _ _ _ _,
    busyWith_pvDuty _ _ _, ⟨_, rfl, rfl, by decide, rfl, rfl⟩, _, rfl⟩

theorem witness_InvsboxAnswersTheTable :
    invsboxBlock.Inv ∧ invsboxBlock.Values ∧ invsboxBlock.PvDuty ∧ invsboxBlock.CompositeUnderWay 0 .invsbox 1 [⟨5⟩] ∧
      ∃ t, invsboxBlock.after [.seq 0, .seq 0] = .next t :=
  ⟨composite_inv _ _ _ _ (.inr (.inr (.inl ⟨by decide, rfl⟩))) (by decide) (by decide), composite_values _ _ _ _,
    busyWith_pvDuty _ _ _, ⟨_, rfl, rfl, by decide, rfl, rfl⟩, _, rfl⟩

theorem witness_MixcolAnswersTheMatrix :
    mixcolBlock.Inv ∧ mixcolBlock.Values ∧ mixcolBlock.PvDuty ∧
      mixcolBlock.CompositeUnderWay 0 .mixcol 2 [⟨5⟩, ⟨6⟩, ⟨7⟩, ⟨8⟩] ∧ ∃ t, mixcolBlock.after [.seq 0, .seq 0] = .next t :=
  ⟨composite_inv _ _ _ _ (.inr (.inr (.inr ⟨by decide, rfl⟩))) (by decide) (by decide), composite_values _ _ _ _,
    busyWith_pvDuty _ _ _, ⟨_, rfl, rfl, by decide, rfl, rfl⟩, _, rfl⟩

theorem witness_TranslatedTextPassesTheCheck :
    textP.inputs ≠ [] ∧ textP.outputs ≠ [] ∧ assemble textP = .ok [2, 2, 1, 0x00000001, 0x80010000, 3] := by decide

end Sys2Proof.Tests
end

section
/-! SUPPORT. Lists of executors after one is written, and the lengths and words that the invariant's proofs read. -/

namespace Sys2Proof.Machine

/-- An entry of a list in which one place was written is what was written there, or the entry of another place. -/
theorem getElem?_set_some {α : Type} {l : List α} {p q : Nat} {v x : α} (h : (l.set p v)[q]? = some x) :
    (p = q ∧ x = v) ∨ (p ≠ q ∧ l[q]? = some x) := by
  by_cases hpq : p = q
  · subst hpq
    obtain ⟨hp, rfl⟩ := List.getElem?_eq_some_iff.mp h
    exact .inl ⟨rfl, List.getElem_set_self hp⟩
  · exact .inr ⟨hpq, by rwa [List.getElem?_set_ne hpq] at h⟩

theorem decomposeByte_length (E : Nat → Engine) (t : PvTable) (b : EncByte) : (decomposeByte E t b).length = 8 := by
  simp [decomposeByte, PvTable.powers]

/-- DECOMPOSE gives eight bits for each byte (20_memory.md R52). -/
theorem decomposeAll_length (E : Nat → Engine) (t : PvTable) (bytes : List EncByte) :
    (decomposeAll E t bytes).length = 8 * bytes.length := by
  have h8 : ∀ n ∈ (bytes.mapIdx fun j b => decomposeByte (fun i => E (16 * j + i)) t b).map List.length, n = 8 := by
    simp only [List.mem_map, List.mem_mapIdx]
    rintro n ⟨_, ⟨j, hj, rfl⟩, rfl⟩
    exact decomposeByte_length _ _ _
  rw [decomposeAll, List.length_flatten, List.sum_eq_card_nsmul _ 8 h8]
  simp [Nat.mul_comm]

/-- The bits of the word 7: the ROM slots' valid bits (10_state.md R33). -/
theorem getLsbD_seven (k : Nat) : (7 : Word).getLsbD k = decide (k ≤ 2) := by
  rw [show (7 : Word) = BitVec.ofNat 32 (2 ^ 3 - 1) from rfl, BitVec.getLsbD_ofNat, Nat.testBit_two_pow_sub_one,
    ← Bool.decide_and]
  exact decide_eq_decide.mpr (by omega)

/-- Clearing a slot's valid bit makes no slot valid (60_exceptions.md R205). -/
theorem slotOk_of_clearSlotBit {s : State} {sel k : Nat}
    (h : ({ s with slotValid := clearSlotBit s.slotValid sel } : State).slotOk k = true) : s.slotOk k = true := by
  simp only [State.slotOk, getLsbD_clearSlotBit, Bool.or_eq_true, Bool.and_eq_true] at h ⊢
  exact h.imp_right fun ⟨⟨hbit, _⟩, hlt⟩ => ⟨hbit, hlt⟩

/-- Clearing a slot's valid bit leaves the other slots' as they are. -/
theorem slotOk_clearSlotBit_other {s : State} {sel k : Nat} (h : k ≠ sel) :
    ({ s with slotValid := clearSlotBit s.slotValid sel } : State).slotOk k = s.slotOk k := by
  simp [State.slotOk, getLsbD_clearSlotBit, h.symm]

/-- Every executor after reset is one of `Inst.reset`. -/
theorem eq_reset_of_mem_resetWith {p : Params} {u : Inst} (h : u ∈ (State.resetWith p).insts) : u = Inst.reset p.w := by
  rcases List.mem_cons.mp h with rfl | h
  · rfl
  · exact List.eq_of_mem_replicate h

/-- `SLOT_VALID` reads 7 after reset (10_state.md R48). -/
theorem resetWith_slotValidWord (p : Params) : (State.resetWith p).slotValidWord = 7 := by
  apply BitVec.eq_of_getLsbD_eq
  intro k hk
  have hv : (State.resetWith p).slotValid = 7 := rfl
  rw [getLsbD_slotValidWord, hv, getLsbD_seven]
  by_cases h2 : k ≤ 2
  · simp [h2, hk, show k < (State.resetWith p).config.nUser + 3 by omega]
  · simp [h2]

/-- The bounds of the parameters (00_scope.md R7), one by one. -/
theorem bounds_iff {p : Params} : p.bounds = true ↔
    8 ≤ p.wMax ∧ p.wMax ≤ 255 ∧ 1 ≤ p.w ∧ p.w ≤ p.wMax ∧ p.nUser ≤ 29 ∧ 1 ≤ p.nInst ∧ p.nInst ≤ 255 := by
  simp only [Params.bounds, Bool.and_eq_true, decide_eq_true_eq, and_assoc]

end Sys2Proof.Machine
end

section
/-! The invariant at reset (10_state.md R48). -/

namespace Sys2Proof.Machine

/-- Only the ROM slots are valid after reset (10_state.md R33, R48). -/
theorem resetWith_slotOk {p : Params} (hp : p.Legal) {k : Nat} (h : (State.resetWith p).slotOk k = true) : k ≤ 2 := by
  obtain ⟨-, -, -, -, hn, -⟩ := bounds_iff.mp hp.bounds
  rw [slotOk_eq _ _ hn, resetWith_slotValidWord, getLsbD_seven] at h
  exact of_decide_eq_true h

/-- Every image of a legal ROM passed the construction check (43_sbox.md R177, 44_mixcolumns.md R195). -/
theorem check_romImage {s : State} (h : s.config.rom.Legal) {k : Nat} (hk : k ≤ 2) : check (s.image k) = none := by
  match k with
  | 0 => exact (programOk_facts h.sboxFwd).1
  | 1 => exact (programOk_facts h.sboxInv).1
  | 2 => exact (programOk_facts h.mixcol).1

/-- The invariant holds at reset, for every legal configuration. -/
theorem inv_resetWith {p : Params} (hp : p.Legal) : (State.resetWith p).Inv where
  config := hp
  executors := by
    obtain ⟨-, -, -, -, -, hone, -⟩ := bounds_iff.mp hp.bounds
    simp only [State.resetWith, List.length_cons, List.length_replicate]
    omega
  memory := Memory.wf_resetWith p
  checked sel hv := check_romImage hp.rom (resetWith_slotOk hp hv)
  busy q u hu hb := by
    obtain rfl := eq_reset_of_mem_resetWith (List.mem_of_getElem? hu)
    cases hb
  atRest q u hu _ k := by
    obtain rfl := eq_reset_of_mem_resetWith (List.mem_of_getElem? hu)
    simp [Inst.reset, List.mem_replicate]

/-- No executor runs after reset, so every present wire of one that runs holds its reference value. -/
theorem values_resetWith (p : Params) : (State.resetWith p).Values := by
  intro q u hu hr
  obtain rfl := eq_reset_of_mem_resetWith (List.mem_of_getElem? hu)
  cases hr

/-- Settles O35: each bit of `SLOT_VALID` is read off its mask, and it is the bit EXEC tests. -/
theorem slotValidHardwiredBits : Obligations.SlotValidHardwiredBits := by
  unfold Obligations.SlotValidHardwiredBits
  intro s b hn hb
  refine ⟨fun h2 => ?_, fun hhi => ?_, fun h3 hlt => ?_, slotOk_eq s b hn⟩
  all_goals rw [getLsbD_slotValidWord]
  · simp [h2, hb, show b < s.config.nUser + 3 by omega]
  · simp [show ¬ b < s.config.nUser + 3 by omega]
  · simp [hb, show ¬ b ≤ 2 by omega, show b < s.config.nUser + 3 by omega]

/-- Settles O36: every executor is one of `Inst.reset`, and the rest are the fields of `State.resetWith`. -/
theorem resetLeavesTheSpecsValues : Obligations.ResetLeavesTheSpecsValues := by
  unfold Obligations.ResetLeavesTheSpecsValues
  intro p hp
  refine ⟨rfl, rfl, resetWith_slotValidWord p, rfl, rfl, rfl, (inv_resetWith hp).executors, fun u hu => ?_⟩
  obtain rfl := eq_reset_of_mem_resetWith hu
  exact ⟨fun _ => rfl, rfl, rfl, rfl, rfl⟩

/-- Settles O45: the parameters of the implementation are legal ones. -/
theorem resetMeetsTheInvariant : Obligations.ResetMeetsTheInvariant :=
  ⟨inv_resetWith Config.params_legal, values_resetWith _, fun _ hp => ⟨inv_resetWith hp, values_resetWith _⟩⟩

end Sys2Proof.Machine
end

section
/-! SUPPORT. What the invariant says of one executor, and the updates of a state that keep it. Every step is a composition of these:
a write to the program store, a write to one executor, and a write to fields the invariant does not read. -/

namespace Sys2Proof.Machine

/-- A busy executor stays in order when its slot keeps its image and stays valid. -/
theorem Inst.BusyOk.congr {u : Inst} {s t : State} (h : u.BusyOk s) (hc : t.config = s.config)
    (himg : t.image u.slot = s.image u.slot) (hok : t.slotOk u.slot = true) : u.BusyOk t where
  cmd := h.cmd
  slot := hok
  decompose := by rw [himg]; exact h.decompose
  start := by rw [himg]; exact h.start
  run := by rw [himg, hc]; exact h.run

theorem Inst.cmdOk.congr {u v : Inst} (h : u.cmdOk) (hcmd : v.cmd = u.cmd) (hslot : v.slot = u.slot) : v.cmdOk := by
  rwa [Inst.cmdOk, hcmd, hslot]

/-- A command whose phase is after the worker phase is in order when it is the command of an executor in order. -/
theorem Inst.BusyOk.of_late {u v : Inst} {s : State} (h : u.BusyOk s) (hcmd : v.cmd = u.cmd) (hslot : v.slot = u.slot)
    (hp : v.phase = .recompose ∨ v.phase = .status ∨ v.phase = .release) : v.BusyOk s where
  cmd := h.cmd.congr hcmd hslot
  slot := hslot ▸ h.slot
  decompose e := by simp [e] at hp
  start e := by simp [e] at hp
  run e := by simp [e] at hp

/-- The program store and the valid bits may change where no busy executor looks, as long as valid slots hold checked images. -/
theorem State.Inv.update_store {s t : State} (h : s.Inv) (hc : t.config = s.config) (hi : t.insts = s.insts)
    (hr : cellsRising t.slots = true) (hk : ∀ sel, t.slotOk sel = true → check (t.image sel) = none)
    (hb : ∀ u ∈ s.insts, u.busy = true → t.image u.slot = s.image u.slot ∧ t.slotOk u.slot = true) : t.Inv where
  config := hc ▸ h.config
  executors := by rw [hi, hc, h.executors]
  memory := by
    have := h.memory
    simp only [Memory.wf, hi, hr, Bool.and_eq_true, true_and] at this ⊢
    exact this.2
  checked := hk
  busy q u hu hbusy := by
    rw [hi] at hu
    obtain ⟨himg, hok⟩ := hb u (List.mem_of_getElem? hu) hbusy
    exact (h.busy q u hu hbusy).congr hc himg hok
  atRest q u hu := by rw [hi] at hu; exact h.atRest q u hu

theorem State.Inv.slots_rising {s : State} (h : s.Inv) : cellsRising s.slots = true := by
  have := h.memory
  rw [Memory.wf, Bool.and_eq_true] at this
  exact this.1

/-- The slot a busy executor runs is valid (10_state.md R36, 41_executor.md R121). -/
theorem State.Inv.slotOk_of_busy {s : State} (h : s.Inv) {u : Inst} (hu : u ∈ s.insts) (hb : u.busy = true) :
    s.slotOk u.slot = true := by
  obtain ⟨q, hq⟩ := List.mem_iff_getElem?.mp hu
  exact (h.busy q u hq hb).slot

/-- The invariant reads the configuration, the executors and the program store with its valid bits, and nothing else. -/
theorem State.Inv.congr {s t : State} (h : s.Inv) (hc : t.config = s.config) (hi : t.insts = s.insts)
    (hs : t.slots = s.slots) (hv : t.slotValid = s.slotValid) : t.Inv := by
  refine h.update_store hc hi (hs ▸ h.slots_rising) (fun sel hok => ?_) (fun u hu hb => ?_)
  · rw [slotOk_congr hc hv] at hok
    rw [image_congr hc hs]
    exact h.checked sel hok
  · rw [image_congr hc hs, slotOk_congr hc hv]
    exact ⟨rfl, h.slotOk_of_busy hu hb⟩

/-- Clearing the valid bit of a slot that no executor runs keeps the invariant (60_exceptions.md R205). -/
theorem State.Inv.clearSlotBit {s : State} (h : s.Inv) {sel : Nat} (hr : s.slotRunning sel = false) :
    ({ s with slotValid := clearSlotBit s.slotValid sel } : State).Inv := by
  refine h.update_store rfl rfl h.slots_rising (fun k hk => h.checked k (slotOk_of_clearSlotBit hk)) (fun u hu hb => ⟨rfl, ?_⟩)
  rw [slotOk_clearSlotBit_other (slotRunning_false hr hu hb)]
  exact h.slotOk_of_busy hu hb

/-- Storing a checked image in a user slot that no executor runs keeps the invariant (41_executor.md R140). -/
theorem State.Inv.storeImage {s : State} (h : s.Inv) {sel : Nat} {img : List Word} (hrom : 2 < sel)
    (hn : sel < s.config.nUser + 3) (hr : s.slotRunning sel = false) (hc : check img = none) : (s.storeImage sel img).Inv := by
  obtain ⟨-, -, -, -, hu29, -⟩ := bounds_iff.mp h.config.bounds
  refine h.update_store rfl rfl (cellsRising_cellPut _ _ _ h.slots_rising) (fun k hk => ?_) (fun u hu hb => ?_)
  · rw [slotOk_storeImage s sel k img hn hu29, Bool.or_eq_true, decide_eq_true_eq] at hk
    rw [image_storeImage s sel k img hrom]
    split
    · exact hc
    · exact h.checked k (hk.resolve_right ‹_›)
  · have hne := slotRunning_false hr hu hb
    rw [image_storeImage s sel _ img hrom, if_neg hne, slotOk_storeImage s sel _ img hn hu29, h.slotOk_of_busy hu hb]
    exact ⟨rfl, rfl⟩

/-- Writing one executor keeps the invariant if what is written meets what the invariant says of an executor. -/
theorem State.Inv.setInst {s : State} (h : s.Inv) {q : Nat} {v : Inst}
    (hwf : cellsRising v.wires = true ∧ v.wires.all (fun c => decide (c.1 < maxWires)) = true)
    (hb : v.busy = true → v.BusyOk s) (ha : v.running = false → ∀ k, Worker.claimed k ∉ v.workers) : (s.setInst q v).Inv where
  config := h.config
  executors := by simpa using h.executors
  memory := Memory.wf_setInst s q v h.memory hwf.1 hwf.2
  checked sel hok := h.checked sel hok
  busy p w hw hbusy := by
    have hw' : w.BusyOk s := by
      rcases getElem?_set_some hw with ⟨-, rfl⟩ | ⟨-, hold⟩
      · exact hb hbusy
      · exact h.busy p w hold hbusy
    exact hw'.congr rfl rfl hw'.slot
  atRest p w hw := by
    rcases getElem?_set_some hw with ⟨-, rfl⟩ | ⟨-, hold⟩
    · exact ha
    · exact h.atRest p w hold

/-- An executor none of whose workers is in flight may be given any control registers in order, its wires and workers kept. -/
theorem State.Inv.setInst_control {s : State} (h : s.Inv) {q : Nat} {u v : Inst} (hu : s.insts[q]? = some u)
    (hk : ∀ k, Worker.claimed k ∉ u.workers) (hwires : v.wires = u.wires) (hworkers : v.workers = u.workers)
    (hb : v.busy = true → v.BusyOk s) : (s.setInst q v).Inv :=
  h.setInst (hwires ▸ Memory.wf_inst s q u h.memory hu) hb (fun _ => hworkers ▸ hk)

/-- The executor of an accepted command was at rest, so it may be given any control registers in order. -/
theorem State.Inv.setInst_accepted {s : State} (h : s.Inv) {q : Nat} {u v : Inst} {c : Command} (ha : s.Accepts q u c)
    (hwires : v.wires = u.wires) (hworkers : v.workers = u.workers) (hb : v.busy = true → v.BusyOk s) :
    (s.setInst q v).Inv := by
  obtain ⟨-, hu, hidle⟩ := ha
  exact h.setInst_control hu (h.atRest q _ hu (by simp [Inst.running, hidle])) hwires hworkers hb

/-- Raising a cause on an executor that accepts a command keeps the invariant (60_exceptions.md R205). -/
theorem State.Inv.raise_accepted {s : State} (h : s.Inv) {q : Nat} {u : Inst} {c : Command} {cause : Cause} {detail : Nat}
    {loading : Option Nat} (ha : s.Accepts q u c)
    (hl : slotValidAfter s.slotValid cause loading = s.slotValid ∨ ∃ sel, loading = some sel ∧ s.slotRunning sel = false) :
    (raise s q u c.word cause detail loading).Inv := by
  have hstore : ({ s with slotValid := slotValidAfter s.slotValid cause loading } : State).Inv := by
    rcases slotValidAfter_cases s.slotValid cause loading with heq | ⟨sel, rfl, -, -, hclear⟩
    · exact h.congr rfl rfl rfl heq
    · rcases hl with heq | ⟨_, ⟨⟩, hr⟩
      · exact h.congr rfl rfl rfl heq
      · rw [hclear]
        exact h.clearSlotBit hr
  have hinst := hstore.setInst_accepted (v := { u with status := statusWord cause detail, busy := false }) ha rfl rfl nofun
  exact hinst.congr rfl rfl rfl rfl

/-- Completing the accepted command of an executor keeps the invariant (30_encoding.md R87). -/
theorem State.Inv.giveBack_accepted {s : State} (h : s.Inv) {q : Nat} {u : Inst} {c : Command} (r : Payload)
    (ha : s.Accepts q u c) : (giveBack s q u c.word r).Inv :=
  (h.setInst_accepted (v := { u with busy := false }) ha rfl rfl nofun).congr rfl rfl rfl rfl

theorem State.Inv.complete_accepted {s : State} (h : s.Inv) {q : Nat} {u : Inst} {c : Command} (r : Payload)
    (ha : s.Accepts q u c) : (complete s q u c.word r).Inv :=
  (h.setInst_accepted (v := { u with status := statusWord .ok 0, busy := false }) ha rfl rfl nofun).congr rfl rfl rfl rfl

end Sys2Proof.Machine
end

section
/-! The invariant is kept by each agent's steps (10_state.md R21 to R36, 41_executor.md R120 to R129). -/

namespace Sys2Proof.Machine

theorem running_iff {u : Inst} : u.running = true ↔ u.busy = true ∧ u.phase = .run := by
  simp [Inst.running]

/-- What the invariant says of an executor in the worker phase: the header of a checked image, and the phase in order. -/
theorem State.Inv.of_running {s : State} (h : s.Inv) {q : Nat} {u : Inst} (hu : s.insts[q]? = some u) (hr : u.running = true) :
    u.BusyOk s ∧ ImageFacts (s.image u.slot) ∧ u.headerOk (s.image u.slot) ∧ u.bits.length = u.nIn ∧ u.RunOk s.config.w := by
  obtain ⟨hb, hp⟩ := running_iff.mp hr
  have hok := h.busy q u hu hb
  exact ⟨hok, check_facts (h.checked _ hok.slot), hok.run hp⟩

/-- A running program has at most `MAX_WIRES` gates, and `N + W` is far from wrapping `NEXT` (20_memory.md R64). -/
theorem State.Inv.next_bound {s : State} (h : s.Inv) {q : Nat} {u : Inst} (hu : s.insts[q]? = some u) (hr : u.running = true) :
    u.n + s.config.w < 2 ^ 32 - 1 := by
  obtain ⟨-, hfacts, ⟨-, hn, -⟩, -⟩ := h.of_running hu hr
  obtain ⟨-, hmax, -, hw, -⟩ := bounds_iff.mp h.config.bounds
  have := hfacts.size
  rw [hn]
  simp only [maxWires] at this
  omega

/-- A running executor stays in order when a worker's step keeps its worker phase in order. -/
theorem Inst.BusyOk.of_run {u v : Inst} {s : State} (h : u.BusyOk s) (hcmd : v.cmd = u.cmd) (hslot : v.slot = u.slot)
    (hp : v.phase = .run) (hhead : v.headerOk (s.image v.slot)) (hbits : v.bits.length = v.nIn) (hrun : v.RunOk s.config.w) :
    v.BusyOk s where
  cmd := h.cmd.congr hcmd hslot
  slot := hslot ▸ h.slot
  decompose e := by simp [e] at hp
  start e := by simp [e] at hp
  run _ := ⟨hhead, hbits, hrun⟩

/-- A claim keeps the invariant (41_executor.md R123). -/
theorem State.Inv.claim {s : State} (h : s.Inv) {q w : Nat} {u : Inst} (hu : s.insts[q]? = some u) (hr : u.running = true)
    (hw : u.workers[w]? = some .idle) : (s.setInst q (u.claim w)).Inv := by
  obtain ⟨hok, -, hhead, hbits, hrun⟩ := h.of_running hu hr
  refine h.setInst (Memory.wf_inst s q u h.memory hu) (fun _ => ?_) (fun hn => ?_)
  · exact hok.of_run rfl rfl (running_iff.mp hr).2 hhead hbits (claim_runOk hrun hw (h.next_bound hu hr))
  · exact absurd (hr.symm.trans hn) nofun

/-- An evaluate step keeps the invariant (41_executor.md R126). -/
theorem State.Inv.evaluate {s : State} (h : s.Inv) {q w k : Nat} {u : Inst} (v : EncBit) (he : s.Evaluates q w k u)
    (hk : u.nIn + k < maxWires) : (s.setInst q (u.evaluate w k v)).Inv := by
  obtain ⟨-, hu, hr, hw⟩ := he
  obtain ⟨hok, -, hhead, hbits, hrun⟩ := h.of_running hu hr
  obtain ⟨hrise, hlt⟩ := Memory.wf_inst s q u h.memory hu
  refine h.setInst (wf_evaluate u w k v hrise hlt hk) (fun _ => ?_) (fun hn => ?_)
  · exact hok.of_run rfl rfl (running_iff.mp hr).2 hhead hbits (evaluate_runOk v hrun hw)
  · exact absurd (hr.symm.trans hn) nofun

/-- At the join no worker is in flight (41_executor.md R128). -/
theorem claimed_not_mem_of_joined {u : Inst} (h : u.joined = true) (k : Nat) : Worker.claimed k ∉ u.workers := by
  intro hk
  have := List.all_eq_true.mp h _ hk
  simp at this

/-- The phase an executor takes next after the output copy comes after the worker phase. -/
theorem afterCopyOf_late (i : Instr) (u : Inst) :
    (afterCopyOf i u).phase = .recompose ∨ (afterCopyOf i u).phase = .status ∨ (afterCopyOf i u).phase = .release := by
  cases i <;> simp [afterCopyOf]

/-- The output copy leaves the wires, the workers, `BUSY`, `CMD` and `SLOT` of its executor as they are. -/
theorem afterCopyOf_frame (i : Instr) (u : Inst) :
    (afterCopyOf i u).wires = u.wires ∧ (afterCopyOf i u).workers = u.workers ∧ (afterCopyOf i u).cmd = u.cmd ∧
      (afterCopyOf i u).slot = u.slot := by
  cases i <;> exact ⟨rfl, rfl, rfl, rfl⟩

/-- The bits of the inner DECOMPOSE are as many as the ROM program has inputs (43_sbox.md R172). -/
theorem decompose_busyOk {s : State} {u : Inst} (h : u.BusyOk s) (hp : u.phase = .decompose) :
    ({ u.copyHeader (s.image u.slot) with
      bits := decomposeAll s.call s.pv ((bytesOf u.args).getD []), phase := .start } : Inst).BusyOk s where
  cmd := h.cmd
  slot := h.slot
  decompose := nofun
  start _ := by
    obtain ⟨bytes, hb, hlen⟩ := h.decompose hp
    refine ⟨⟨rfl, rfl, rfl⟩, ?_⟩
    simpa [hb, decomposeAll_length] using hlen
  run := nofun

/-- The start phase keeps the invariant (41_executor.md R122). -/
theorem State.Inv.startRun {s : State} (h : s.Inv) {q : Nat} {u : Inst} (hu : s.insts[q]? = some u) (hb : u.busy = true)
    (hp : u.phase = .start) : (s.setInst q (u.startRun s.config.w)).Inv := by
  have hok := h.busy q u hu hb
  obtain ⟨hhead, hbits⟩ := hok.start hp
  have hsize := (check_facts (h.checked _ hok.slot)).size
  have hnIn := hhead.1
  refine h.setInst (wf_startRun u _ (by omega)) (fun _ => ?_) (fun hn => ?_)
  · exact hok.of_run rfl rfl rfl hhead hbits (startRun_runOk u _ hbits)
  · simp [Inst.running, hb] at hn

/-- Each phase of a running command keeps the invariant (41_executor.md R120). -/
theorem State.Inv.runPhase {s t : State} (h : s.Inv) {q : Nat} {u : Inst} {i : Instr} (hr : s.Runs q u)
    (ht : runPhase s q u (afterCopyOf i) = .next t) : t.Inv := by
  obtain ⟨-, hu, hb⟩ := hr
  have hok := h.busy q u hu hb
  have hrest : u.phase ≠ .run → ∀ k, Worker.claimed k ∉ u.workers :=
    fun hp => h.atRest q u hu (by simp [Inst.running, hp])
  rcases runPhase_next ht with ⟨hp, rfl⟩ | ⟨hp, rfl⟩ | ⟨hp, hj, outs, -, rfl⟩ | ⟨-, -, rfl⟩ | ⟨hp, rfl⟩ | ⟨hp, rfl⟩ | ⟨hp, rfl⟩
  · exact h.setInst_control hu (hrest (by simp [hp])) rfl rfl fun _ => decompose_busyOk hok hp
  · exact h.startRun hu hb hp
  · obtain ⟨hwires, hworkers, hcmd, hslot⟩ := afterCopyOf_frame i { u with bits := outs }
    exact h.setInst_control hu (claimed_not_mem_of_joined hj) hwires hworkers
      fun _ => hok.of_late hcmd hslot (afterCopyOf_late i _)
  · exact h
  · exact h.setInst_control hu (hrest (by simp [hp])) rfl rfl fun _ => hok.of_late rfl rfl (.inr (.inl rfl))
  · exact h.setInst_control hu (hrest (by simp [hp])) rfl rfl fun _ => hok.of_late rfl rfl (.inr (.inr rfl))
  · have hset := h.setInst_control (v := { u with busy := false }) hu (hrest (by simp [hp])) rfl rfl nofun
    exact hset.congr rfl rfl rfl rfl

/-- An executor that accepts EXEC is in order (41_executor.md R121). -/
theorem admitted_busyOk {s : State} {u : Inst} {c : Command} {sel : Nat} {bits : List EncBit}
    (hd : decodeCommand c.word = .instr (.exec sel)) (hv : s.slotOk sel = true) (hb : bits.length = imageNIn (s.image sel)) :
    ({ u.copyHeader (s.image sel) with
      busy := true, cmd := c.word, slot := sel, args := c.payload, bits := bits, phase := .start } : Inst).BusyOk s where
  cmd := .inl hd
  slot := hv
  decompose := nofun
  start _ := ⟨⟨rfl, rfl, rfl⟩, hb⟩
  run := nofun

/-- The program a composite command runs has eight inputs for each of its bytes (43_sbox.md R177, 44_mixcolumns.md R195). -/
theorem composite_inputs {s : State} (h : s.config.rom.Legal) {i : Instr} {slot count : Nat} (hi : isComposite i slot count) :
    slot ≤ 2 ∧ 8 * count = imageNIn (s.image slot) := by
  obtain ⟨-, -, hforward, -⟩ := programOk_facts h.sboxFwd
  obtain ⟨-, -, hinverse, -⟩ := programOk_facts h.sboxInv
  obtain ⟨-, -, hcolumn, -⟩ := programOk_facts h.mixcol
  rcases hi with ⟨-, rfl, rfl⟩ | ⟨-, rfl, rfl⟩ | ⟨-, rfl, rfl⟩
  · exact ⟨by omega, hforward.symm⟩
  · exact ⟨by omega, hinverse.symm⟩
  · exact ⟨by omega, hcolumn.symm⟩

/-- An executor that accepts a composite command is in order (43_sbox.md R172). -/
theorem begun_busyOk {s : State} (h : s.config.rom.Legal) {u : Inst} {c : Command} {i : Instr} {slot count : Nat}
    {bytes : List EncByte} (hd : decodeCommand c.word = .instr i) (hi : isComposite i slot count)
    (hb : bytesOf c.payload = some bytes) (hc : bytes.length = count) :
    ({ u with busy := true, cmd := c.word, slot := slot, args := c.payload, phase := .decompose } : Inst).BusyOk s where
  cmd := by
    rcases hi with ⟨rfl, rfl, -⟩ | ⟨rfl, rfl, -⟩ | ⟨rfl, rfl, -⟩
    · exact .inr (.inl ⟨hd, rfl⟩)
    · exact .inr (.inr (.inl ⟨hd, rfl⟩))
    · exact .inr (.inr (.inr ⟨hd, rfl⟩))
  slot := by simp [State.slotOk, (composite_inputs h hi).1]
  decompose _ := ⟨bytes, hb, hc ▸ (composite_inputs h hi).2⟩
  start := nofun
  run := nofun

/-- Every effect of an instruction keeps the invariant, if a command the instruction is executed for is one that decodes to it. -/
theorem State.Inv.execEffect {s t : State} (h : s.Inv) {i : Instr} (hx : ExecEffect i s t)
    (hd : ∀ q u c, s.Accepts q u c → decodeCommand c.word = .instr i) : t.Inv := by
  cases hx with
  | poll => exact h
  | evaluate he _ _ hk => exact h.evaluate _ he hk
  | wait => exact h
  | raised ha _ hl =>
    refine h.raise_accepted ha ?_
    rcases hl with rfl | ⟨sel, -, rfl, heq | hr⟩
    · exact .inl rfl
    · exact .inl heq
    · exact .inr ⟨sel, rfl, hr⟩
  | @table q u c p ha =>
    have htable : ({ s with pv := p, pvValid := true } : State).Inv := h.congr rfl rfl rfl rfl
    exact htable.complete_accepted _ ha
  | codec ha => exact h.complete_accepted _ ha
  | register ha => exact h.giveBack_accepted _ ha
  | store ha _ hs hn hr hc => exact (h.storeImage hs hn hr hc).complete_accepted _ ha
  | admitted ha hi hv hb =>
    subst hi
    exact h.setInst_accepted ha rfl rfl fun _ => admitted_busyOk (hd _ _ _ ha) hv hb
  | begun ha hi _ hb hc =>
    exact h.setInst_accepted ha rfl rfl fun _ => begun_busyOk h.config.rom (hd _ _ _ ha) hi hb hc
  | phase hr _ ht => exact h.runPhase hr ht

/-- The command a sequencer accepts is the one it works on. -/
theorem accepts_commandWord {s : State} {q p : Nat} {u v : Inst} {c : Command} {w : Word} (hact : s.acting = .seq q)
    (hu : s.insts[q]? = some u) (hw : u.commandWord? = some w) (ha : s.Accepts p v c) : c.word = w := by
  obtain ⟨hp, hv, hidle⟩ := ha
  obtain rfl : q = p := by simpa [hact] using hp
  obtain rfl := Option.some.inj (hu.symm.trans hv)
  simpa [Inst.commandWord?, hidle] using hw

/-- A sequencer refuses a word only while its executor is idle: a running command decodes (10_state.md R36). -/
theorem State.Inv.idle_of_refused {s : State} (h : s.Inv) {q : Nat} {u : Inst} {w : Word} {r : DecodeRefusal}
    (hu : s.insts[q]? = some u) (hw : u.commandWord? = some w) (hd : decodeCommand w = .refused r) : u.busy = false := by
  by_contra hb
  rw [Bool.not_eq_false] at hb
  obtain rfl : u.cmd = w := by simpa [Inst.commandWord?, hb] using hw
  have := (h.busy q u hu hb).cmd
  simp [Inst.cmdOk, hd] at this

/-- Refusing a word that is no command keeps the invariant (30_encoding.md R86). -/
theorem State.Inv.refuseCommand {s : State} (h : s.Inv) {q : Nat} {u : Inst} (w : Word) (hu : s.insts[q]? = some u)
    (hidle : u.busy = false) : (refuseCommand s q u w).Inv := by
  have hrest := h.atRest q u hu (by simp [Inst.running, hidle])
  have hset := h.setInst_control
    (v := { u with port := u.port.tail, status := statusWord .pvUnknownCommand (commandOpc w), busy := false })
    hu hrest rfl rfl nofun
  exact hset.congr rfl rfl rfl rfl

/-- What waits at a port is nothing the invariant reads (30_encoding.md R87). -/
theorem State.Inv.setPort {s : State} (h : s.Inv) {q : Nat} {u : Inst} (port : List Command) (hu : s.insts[q]? = some u) :
    (s.setInst q { u with port := port }).Inv := by
  refine h.setInst (Memory.wf_inst s q u h.memory hu) (fun hb => ?_) (h.atRest q u hu)
  obtain ⟨hcmd, hslot, hdec, hstart, hrun⟩ := h.busy q u hu hb
  refine ⟨hcmd, hslot, hdec, hstart, fun hp => ?_⟩
  obtain ⟨hhead, hbits, hcount, hclaimed, honce, hexited, hpresent⟩ := hrun hp
  exact ⟨hhead, hbits, hcount, hclaimed, honce, hexited, hpresent⟩

/-- Every effect of a step keeps the invariant. -/
theorem State.Inv.stepEffect {s t : State} (h : s.Inv) (hx : StepEffect s t) : t.Inv := by
  cases hx with
  | quiet => exact h
  | issue _ hu => exact h.setPort _ hu
  | restart => exact (inv_resetWith h.config).congr rfl rfl rfl rfl
  | claim _ hu hr hw => exact h.claim hu hr hw
  | refuse _ hu hw hd => exact h.refuseCommand _ hu (h.idle_of_refused hu hw hd)
  | command hact hu hw hd ht =>
    exact h.execEffect ht fun q v c ha => accepts_commandWord hact hu hw ha ▸ hd
  | gate he _ ht =>
    obtain ⟨hworker, -⟩ := he
    exact h.execEffect ht fun q v c ⟨hseq, _⟩ => absurd (hworker.symm.trans hseq) nofun

/-- Settles O46: a step is one of the effects, each of which keeps the invariant, and passing the move on changes nothing the
invariant reads. -/
theorem stepKeepsTheInvariant : Obligations.StepKeepsTheInvariant := by
  unfold Obligations.StepKeepsTheInvariant
  intro s t h hst
  obtain ⟨t', hx, rfl⟩ := step_effect hst
  exact (h.stepEffect hx).congr rfl rfl rfl rfl

end Sys2Proof.Machine
end

section
/-! What a step does to the configuration, the table and a running executor (10_state.md R23, R26, R32, R34). -/

namespace Sys2Proof.Machine

/-- No phase of a running command writes the configuration or the table. -/
theorem runPhase_table {s t : State} {q : Nat} {u : Inst} {g : Inst → Inst} (h : runPhase s q u g = .next t) :
    t.config = s.config ∧ t.pvValid = s.pvValid ∧ t.pv = s.pv := by
  rcases runPhase_next h with ⟨-, rfl⟩ | ⟨-, rfl⟩ | ⟨-, -, outs, -, rfl⟩ | ⟨-, -, rfl⟩ | ⟨-, rfl⟩ | ⟨-, rfl⟩ | ⟨-, rfl⟩
  all_goals exact ⟨rfl, rfl, rfl⟩

/-- No instruction writes the configuration, and none writes a table that is installed (42_codec.md R151). -/
theorem execEffect_table {s t : State} {i : Instr} (h : ExecEffect i s t) :
    t.config = s.config ∧ (s.pvValid = true → t.pvValid = true ∧ t.pv = s.pv) := by
  cases h with
  | table _ _ hp => exact ⟨rfl, fun hv => absurd (hv.symm.trans hp) nofun⟩
  | phase _ _ ht =>
    obtain ⟨hc, hv, hpv⟩ := runPhase_table ht
    exact ⟨hc, fun h => ⟨hv.trans h, hpv⟩⟩
  | poll | evaluate | wait | raised | codec | register | store | admitted | begun => exact ⟨rfl, fun h => ⟨h, rfl⟩⟩

/-- No step but the host's reset writes a table that is installed. -/
theorem stepEffect_table {s t : State} (h : StepEffect s t) :
    t.config = s.config ∧ (s.pvValid = true → s.acting ≠ .host .reset → t.pvValid = true ∧ t.pv = s.pv) := by
  cases h with
  | restart ha => exact ⟨rfl, fun _ hne => absurd ha hne⟩
  | command _ _ _ _ ht | gate _ _ ht =>
    obtain ⟨hc, hv⟩ := execEffect_table ht
    exact ⟨hc, fun h _ => hv h⟩
  | quiet | issue | claim | refuse => exact ⟨rfl, fun h _ => ⟨h, rfl⟩⟩

/-- Settles O39: only LOAD_PV writes the table, and only while `PV_VALID = 0`. -/
theorem tableIsReadOnlyWithinASession : Obligations.TableIsReadOnlyWithinASession := by
  unfold Obligations.TableIsReadOnlyWithinASession
  intro s t h
  obtain ⟨t', hx, rfl⟩ := step_effect h
  simpa using stepEffect_table hx

/-- How an executor that goes on running may change in one step: its port, a claim, or an evaluate step. -/
inductive RunningChange (u : Inst) : Inst → Prop where
  | port (p : List Command) : RunningChange u { u with port := p }
  | claim {w : Nat} (hw : u.workers[w]? = some .idle) : RunningChange u (u.claim w)
  | evaluate {w k : Nat} (v : EncBit) (hw : u.workers[w]? = some (.claimed k)) : RunningChange u (u.evaluate w k v)

theorem RunningChange.refl (u : Inst) : RunningChange u u := .port u.port

/-- An executor that reads back as before has not changed. -/
theorem RunningChange.of_unchanged {l : List Inst} {q : Nat} {u u' : Inst} (hu : l[q]? = some u) (hu' : l[q]? = some u') :
    RunningChange u u' := by
  obtain rfl := Option.some.inj (hu.symm.trans hu')
  exact .refl u

/-- After one executor is written, an executor that runs has not changed, or it is the one written. -/
theorem RunningChange.of_set {l : List Inst} {p q : Nat} {u v x u' : Inst} (hu : l[q]? = some u) (hv : l[p]? = some v)
    (hu' : (l.set p x)[q]? = some u') (hr' : u'.running = true) (hx : u = v → x.running = true → RunningChange u x) :
    RunningChange u u' := by
  rcases getElem?_set_some hu' with ⟨rfl, rfl⟩ | ⟨-, hold⟩
  · exact hx (Option.some.inj (hu.symm.trans hv)) hr'
  · exact .of_unchanged hu hold

/-- A running executor accepts no command, so a write to the executor that accepts one leaves it as it is. -/
theorem RunningChange.of_accepts {s : State} {q p : Nat} {u v x u' : Inst} {c : Command} (ha : s.Accepts p v c)
    (hu : s.insts[q]? = some u) (hr : u.running = true) (hu' : (s.insts.set p x)[q]? = some u') (hr' : u'.running = true) :
    RunningChange u u' := by
  obtain ⟨-, hv, hidle⟩ := ha
  refine .of_set hu hv hu' hr' ?_
  rintro rfl -
  simp [Inst.running, hidle] at hr

/-- A phase of one executor's command leaves the other executors as they are (60_exceptions.md R206). -/
theorem runPhase_other {s t : State} {p q : Nat} {v : Inst} {g : Inst → Inst} (h : runPhase s p v g = .next t) (hpq : p ≠ q) :
    t.insts[q]? = s.insts[q]? := by
  rcases runPhase_next h with ⟨-, rfl⟩ | ⟨-, rfl⟩ | ⟨-, -, outs, -, rfl⟩ | ⟨-, -, rfl⟩ | ⟨-, rfl⟩ | ⟨-, rfl⟩ | ⟨-, rfl⟩
  case inr.inr.inr.inl => rfl
  all_goals exact List.getElem?_set_ne hpq

/-- In the worker phase the sequencer waits for the join or copies the outputs (41_executor.md R128, R129). -/
theorem runPhase_run {s t : State} {q : Nat} {u : Inst} {g : Inst → Inst} (hp : u.phase = .run)
    (h : runPhase s q u g = .next t) : t = s ∨ ∃ outs, t = s.setInst q (g { u with bits := outs }) := by
  rcases runPhase_next h with ⟨hp', -⟩ | ⟨hp', -⟩ | ⟨-, -, outs, -, ht⟩ | ⟨-, -, ht⟩ | ⟨hp', -⟩ | ⟨hp', -⟩ | ⟨hp', -⟩
  case inr.inr.inl => exact .inr ⟨outs, ht⟩
  case inr.inr.inr.inl => exact .inl ht
  all_goals cases hp.symm.trans hp'

/-- A phase changes no executor that runs before and after: the output copy of the acting one ends its worker phase. -/
theorem runPhase_running {s t : State} {p q : Nat} {v u u' : Inst} {i : Instr} (hv : s.Runs p v)
    (h : runPhase s p v (afterCopyOf i) = .next t) (hu : s.insts[q]? = some u) (hr : u.running = true)
    (hu' : t.insts[q]? = some u') (hr' : u'.running = true) : u' = u := by
  by_cases hpq : p = q
  · subst hpq
    obtain ⟨-, hv, -⟩ := hv
    obtain rfl := Option.some.inj (hu.symm.trans hv)
    rcases runPhase_run (running_iff.mp hr).2 h with rfl | ⟨outs, rfl⟩
    · exact (Option.some.inj (hu.symm.trans hu')).symm
    · obtain rfl := Option.some.inj ((insts_set_self hu).symm.trans hu')
      have hlate := afterCopyOf_late i { u with bits := outs }
      simp [(running_iff.mp hr').2] at hlate
  · rw [runPhase_other h hpq, hu] at hu'
    exact (Option.some.inj hu').symm

/-- What an instruction does to an executor that runs before and after. -/
theorem execEffect_running {s t : State} {i : Instr} {q : Nat} {u u' : Inst} (h : ExecEffect i s t)
    (hu : s.insts[q]? = some u) (hr : u.running = true) (hu' : t.insts[q]? = some u') (hr' : u'.running = true) :
    RunningChange u u' := by
  cases h with
  | poll | wait => exact .of_unchanged hu hu'
  | evaluate he =>
    obtain ⟨-, hv, -, hw⟩ := he
    exact .of_set hu hv hu' hr' fun | rfl, _ => .evaluate _ hw
  | phase hv _ ht => exact runPhase_running hv ht hu hr hu' hr' ▸ .refl u
  | raised ha | table ha | codec ha | register ha | store ha | admitted ha | begun ha =>
    exact .of_accepts ha hu hr hu' hr'

/-- What a step does to an executor that runs before and after. -/
theorem stepEffect_running {s t : State} {q : Nat} {u u' : Inst} (h : StepEffect s t)
    (hu : s.insts[q]? = some u) (hr : u.running = true) (hu' : t.insts[q]? = some u') (hr' : u'.running = true) :
    RunningChange u u' := by
  cases h with
  | quiet => exact .of_unchanged hu hu'
  | issue _ hv => exact .of_set hu hv hu' hr' fun | rfl, _ => .port _
  | restart =>
    obtain rfl := eq_reset_of_mem_resetWith (List.mem_of_getElem? hu')
    cases hr'
  | claim _ hv _ hw => exact .of_set hu hv hu' hr' fun | rfl, _ => .claim hw
  | refuse _ hv _ _ => exact .of_set hu hv hu' hr' fun _ hx => nomatch hx
  | command _ _ _ _ ht | gate _ _ ht => exact execEffect_running ht hu hr hu' hr'

/-- A change of a running executor overwrites no present wire: the wire of a claimed gate is absent (10_state.md R23). -/
theorem RunningChange.keeps_wire {u u' : Inst} {workers : Nat} (h : RunningChange u u') (hok : u.RunOk workers) {i : Nat}
    {v : EncBit} (hv : cellGet u.wires i = some v) : cellGet u'.wires i = some v := by
  cases h with
  | port | claim => exact hv
  | @evaluate w k x hw =>
    have hne : i ≠ u.nIn + k := by
      rintro rfl
      cases (claimed_absent hok hw).symm.trans hv
    rw [evaluate_wires, cellGet_cellPut_other _ _ _ _ hne, hv]

/-- A change of a running executor does not lower `NEXT`: a claim counts it up without wrapping (10_state.md R26). -/
theorem RunningChange.next_le {u u' : Inst} {workers : Nat} (h : RunningChange u u') (hok : u.RunOk workers)
    (hn : u.n + workers < 2 ^ 32 - 1) : u.next.toNat ≤ u'.next.toNat := by
  cases h with
  | port | evaluate => exact Nat.le_refl _
  | claim => exact (claim_next_toNat _ hok hn).symm ▸ Nat.le_succ _

/-- Settles O44: a step changes a running executor by a claim or an evaluate step at most, and the bound of `NEXT` is the
invariant's after the step. -/
theorem wiresAreSingleAssignment : Obligations.WiresAreSingleAssignment := by
  unfold Obligations.WiresAreSingleAssignment
  intro s t q u u' hs hst hu hr hu' hr'
  obtain ⟨t', hx, rfl⟩ := step_effect hst
  have hchange := stepEffect_running hx hu hr hu' hr'
  obtain ⟨-, -, -, -, hok⟩ := hs.of_running hu hr
  obtain ⟨-, -, -, -, hok'⟩ := (hs.stepEffect hx).of_running hu' hr'
  refine ⟨fun i v hv => hchange.keeps_wire hok hv, hchange.next_le hok (hs.next_bound hu hr), ?_⟩
  rw [← (stepEffect_table hx).1]
  exact runOk_next_le hok'

end Sys2Proof.Machine
end

section
/-! What the sequencer of EXEC, SBOX, INVSBOX and MIXCOL leaves unchanged, and the images of running slots (20_memory.md R56, R57,
R65). -/

namespace Sys2Proof.Machine

/-- The step from `s` to `t` turned executor `q` from `u` into `u'` and otherwise wrote the fault history and the replies at most;
the wire file, `NEXT` and the workers of `u` are written by the start phase alone (10_state.md R20, 41_executor.md R122). -/
structure PhasedChange (s t : State) (q : Nat) (u u' : Inst) : Prop where
  state : t = { s with insts := s.insts.set q u', faults := t.faults, replies := t.replies }
  executor : (u.busy = true ∧ u.phase = .start) ∨ (u'.wires = u.wires ∧ u'.next = u.next ∧ u'.workers = u.workers)

/-- A phased command's step changes no image (20_memory.md R56). -/
theorem PhasedChange.image {s t : State} {q : Nat} {u u' : Inst} (h : PhasedChange s t q u u') (slot : Nat) :
    t.image slot = s.image slot := by
  rw [h.state]
  exact image_congr rfl rfl slot

/-- The output copy leaves `NEXT` of its executor as it is (41_executor.md R129). -/
theorem afterCopyOf_next (i : Instr) (u : Inst) : (afterCopyOf i u).next = u.next := by
  cases i <;> rfl

/-- Each phase of a running command is a phased change of its executor. -/
theorem runPhase_phasedChange {s t : State} {q : Nat} {u : Inst} {i : Instr} (hr : s.Runs q u)
    (h : runPhase s q u (afterCopyOf i) = .next t) : ∃ u', PhasedChange s t q u u' := by
  obtain ⟨-, hu, hb⟩ := hr
  rcases runPhase_next h with ⟨-, rfl⟩ | ⟨hp, rfl⟩ | ⟨-, -, outs, -, rfl⟩ | ⟨-, -, rfl⟩ | ⟨-, rfl⟩ | ⟨-, rfl⟩ | ⟨-, rfl⟩
  case inr.inl => exact ⟨_, rfl, .inl ⟨hb, hp⟩⟩
  case inr.inr.inl =>
    obtain ⟨hwires, hworkers, -⟩ := afterCopyOf_frame i { u with bits := outs }
    exact ⟨_, rfl, .inr ⟨hwires, afterCopyOf_next i _, hworkers⟩⟩
  case inr.inr.inr.inl => exact ⟨u, by rw [insts_set_same hu], .inr ⟨rfl, rfl, rfl⟩⟩
  all_goals exact ⟨_, rfl, .inr ⟨rfl, rfl, rfl⟩⟩

theorem isGate_of_isPhased {i : Instr} (h : isPhased i) : i.isGate = false := by
  rcases h with ⟨sel, rfl⟩ | rfl | rfl | rfl <;> rfl

/-- Whatever a phased command does, its refusals and its acceptance included, is a phased change of the acting executor. -/
theorem execEffect_phasedChange {s t : State} {i : Instr} (h : ExecEffect i s t) (hp : isPhased i) :
    ∃ q u u', s.acting = .seq q ∧ s.insts[q]? = some u ∧ PhasedChange s t q u u' := by
  cases h with
  | poll _ hi | evaluate _ hi => exact absurd (hi.symm.trans (isGate_of_isPhased hp)) nofun
  | wait _ hi | table _ hi | register _ hi | store _ hi => simp [isPhased, hi] at hp
  | codec _ hi => rcases hi with rfl | rfl <;> simp [isPhased] at hp
  | raised ha _ hl =>
    obtain ⟨hact, hu, -⟩ := ha
    rcases hl with rfl | ⟨sel, rfl, -⟩
    · exact ⟨_, _, _, hact, hu, rfl, .inr ⟨rfl, rfl, rfl⟩⟩
    · simp [isPhased] at hp
  | admitted ha | begun ha =>
    obtain ⟨hact, hu, -⟩ := ha
    exact ⟨_, _, _, hact, hu, rfl, .inr ⟨rfl, rfl, rfl⟩⟩
  | phase hr _ ht =>
    obtain ⟨u', hchange⟩ := runPhase_phasedChange hr ht
    obtain ⟨hact, hu, -⟩ := hr
    exact ⟨_, _, u', hact, hu, hchange⟩

/-- Settles O20: every step of the four commands is a phased change of the acting executor. -/
theorem phasesFrame : Obligations.PhasesFrame := by
  unfold Obligations.PhasesFrame
  intro i s t hi h
  have hp : isPhased i := by
    rcases hi with rfl | rfl | rfl | ⟨sel, rfl⟩ <;> simp [isPhased]
  obtain ⟨q, u, u', hact, hu, hstate, hexec⟩ := execEffect_phasedChange (exec_effect h) hp
  rw [hstate]
  exact ⟨rfl, rfl, rfl, rfl, rfl, rfl, rfl, q, u, u', hact, hu, insts_set_self hu,
    fun p hne => List.getElem?_set_ne hne.symm, hexec⟩

/-- No instruction changes the image of a slot that an executor runs: LOAD_PROG stores only to a slot that none runs (20_memory.md
R57). -/
theorem execEffect_image {s t : State} {i : Instr} (h : ExecEffect i s t) {v : Inst} (hv : v ∈ s.insts) (hb : v.busy = true) :
    t.image v.slot = s.image v.slot := by
  cases h with
  | @store q u c sel img _ _ hs _ hr =>
    calc (complete (s.storeImage sel img) q u c.word []).image v.slot
        = (s.storeImage sel img).image v.slot := image_congr rfl rfl _
      _ = s.image v.slot := by rw [image_storeImage _ _ _ _ hs, if_neg (slotRunning_false hr hv hb)]
  | phase hr _ ht =>
    obtain ⟨u', hchange⟩ := runPhase_phasedChange hr ht
    exact hchange.image _
  | poll | evaluate | wait | raised | table | codec | register | admitted | begun => exact image_congr rfl rfl _

/-- No step changes the image of a slot that an executor runs: a reset is taken only while every executor is idle
(70_reset_and_hazards.md R230). -/
theorem stepEffect_image {s t : State} (h : StepEffect s t) {v : Inst} (hv : v ∈ s.insts) (hb : v.busy = true) :
    t.image v.slot = s.image v.slot := by
  cases h with
  | restart _ hi =>
    have hidle := List.all_eq_true.mp hi v hv
    simp [hb] at hidle
  | command _ _ _ _ ht | gate _ _ ht => exact execEffect_image ht hv hb
  | quiet | issue | claim | refuse => exact image_congr rfl rfl _

/-- Settles O43: no effect of a step changes the image, and passing the move on does not touch the program store. -/
theorem runningImageIsStable : Obligations.RunningImageIsStable := by
  unfold Obligations.RunningImageIsStable
  intro s t q u h hu hb
  obtain ⟨t', hx, rfl⟩ := step_effect h
  exact (image_congr rfl rfl _).trans (stepEffect_image hx (List.mem_of_getElem? hu) hb)

/-- A slot is running when it is the slot of a busy executor (20_memory.md R57). -/
theorem slotRunning_of_busy {s : State} {v : Inst} (hv : v ∈ s.insts) (hb : v.busy = true) : s.slotRunning v.slot = true :=
  List.any_eq_true.mpr ⟨v, hv, by simp [hb]⟩

/-- Settles O23: the slot is a user slot that exists, so LOAD_PROG passes its tests of the number and
meets the one for a running slot. -/
theorem loadProgIsHeldWhileTheSlotRuns : Obligations.LoadProgIsHeldWhileTheSlotRuns := by
  unfold Obligations.LoadProgIsHeldWhileTheSlotRuns
  rintro s q _ u v c ha hlt huser hv hb rfl
  have hexists : ¬ s.config.nUser + 3 ≤ v.slot := by omega
  have hrom : ¬ v.slot ≤ 2 := by omega
  simp only [exec, execLoadProg]
  rw [onPort_accepts _ ha, if_neg hexists, if_neg hrom, if_pos (slotRunning_of_busy hv hb)]

end Sys2Proof.Machine
end

section
/-! Decoding and encoding undo each other, and which words are refused (30_encoding.md R71, R72, R77, R84 to R86). -/

namespace Sys2Proof

theorem wireOk_gateS1 (w : Word) : wireOk (gateS1 w) = true := decide_eq_true (w.extractLsb' 15 15).isLt

theorem wireOk_gateS2 (w : Word) : wireOk (gateS2 w) = true := decide_eq_true (w.extractLsb' 0 15).isLt

theorem selOk_commandSel (w : Word) : selOk (commandSel w) = true := decide_eq_true (w.extractLsb' 8 5).isLt

/-- The four values of `OP` (30_encoding.md R72). -/
theorem gateOp_cases (w : Word) : gateOp w = 0 ∨ gateOp w = 1 ∨ gateOp w = 2 ∨ gateOp w = 3 := by
  have : gateOp w < 4 := (w.extractLsb' 30 2).isLt
  omega

theorem decodeGate_op_zero {w : Word} (h : gateOp w = 0) : decodeGate w = .instr (.xor (gateS1 w) (gateS2 w)) := by
  simp [decodeGate, h]

theorem decodeGate_op_one {w : Word} (h : gateOp w = 1) : decodeGate w = .instr (.and (gateS1 w) (gateS2 w)) := by
  simp [decodeGate, h]

theorem decodeGate_op_two {w : Word} (h : gateOp w = 2) :
    decodeGate w = if gateS2 w = 0 then .instr (.not (gateS1 w)) else .refused .reservedNonzero := by
  simp [decodeGate, h]

theorem decodeGate_op_three {w : Word} (h : gateOp w = 3) : decodeGate w = .refused .unknownOperator := by
  simp [decodeGate, h]

theorem decodeCommand_loadProg {w : Word} (hr : commandReserved w = 0) (ho : commandOpc w = 4) :
    decodeCommand w = .instr (.loadProg (commandSel w)) := by
  simp [decodeCommand, hr, ho]

theorem decodeCommand_exec {w : Word} (hr : commandReserved w = 0) (ho : commandOpc w = 5) :
    decodeCommand w = .instr (.exec (commandSel w)) := by
  simp [decodeCommand, hr, ho]

theorem decodeCommand_readReg {w : Word} (hr : commandReserved w = 0) (ho : commandOpc w = 9) :
    decodeCommand w = .instr (.readReg (commandSel w)) := by
  simp [decodeCommand, hr, ho]

/-- Settles O1: the decoder finds the fields the encoder wrote; the words of the commands without `SEL` are single words. -/
theorem decodeUndoesEncode : Obligations.DecodeUndoesEncode := by
  unfold Obligations.DecodeUndoesEncode
  intro i hwf
  cases i with
  | xor s1 s2 =>
    simp only [Instr.wf, wireOk, Bool.and_eq_true, decide_eq_true_eq] at hwf
    obtain ⟨hop, hs1, hs2⟩ := gateWord_fields (op := 0) (by omega) hwf.1 hwf.2
    exact (decodeGate_op_zero hop).trans (by rw [hs1, hs2])
  | and s1 s2 =>
    simp only [Instr.wf, wireOk, Bool.and_eq_true, decide_eq_true_eq] at hwf
    obtain ⟨hop, hs1, hs2⟩ := gateWord_fields (op := 1) (by omega) hwf.1 hwf.2
    exact (decodeGate_op_one hop).trans (by rw [hs1, hs2])
  | not s1 =>
    obtain ⟨hop, hs1, hs2⟩ := gateWord_fields (op := 2) (s2 := 0) (by omega) (of_decide_eq_true hwf) (by omega)
    exact (decodeGate_op_two hop).trans (by rw [if_pos hs2, hs1])
  | loadProg sel =>
    obtain ⟨hr, hs, ho⟩ := commandWord_fields (opc := 4) (by omega) (of_decide_eq_true hwf)
    exact (decodeCommand_loadProg hr ho).trans (by rw [hs])
  | exec sel =>
    obtain ⟨hr, hs, ho⟩ := commandWord_fields (opc := 5) (by omega) (of_decide_eq_true hwf)
    exact (decodeCommand_exec hr ho).trans (by rw [hs])
  | readReg sel =>
    obtain ⟨hr, hs, ho⟩ := commandWord_fields (opc := 9) (by omega) (of_decide_eq_true hwf)
    exact (decodeCommand_readReg hr ho).trans (by rw [hs])
  | loadPv | decompose | recompose | sbox | invsbox | mixcol => decide

/-- A gate word that decodes is the word of a well-formed gate (30_encoding.md R71, R77). -/
theorem encode_of_decodeGate {w : Word} {i : Instr} (h : decodeGate w = .instr i) :
    i.wf = true ∧ i.isGate = true ∧ encode i = w := by
  have hself := gateWord_self w
  rcases gateOp_cases w with hop | hop | hop | hop <;> rw [hop] at hself
  · obtain rfl := Decoded.instr.inj ((decodeGate_op_zero hop).symm.trans h)
    exact ⟨by simp [Instr.wf, wireOk_gateS1, wireOk_gateS2], rfl, hself⟩
  · obtain rfl := Decoded.instr.inj ((decodeGate_op_one hop).symm.trans h)
    exact ⟨by simp [Instr.wf, wireOk_gateS1, wireOk_gateS2], rfl, hself⟩
  · rw [decodeGate_op_two hop] at h
    split at h
    · rename_i hs2
      cases h
      rw [hs2] at hself
      exact ⟨wireOk_gateS1 w, rfl, hself⟩
    · cases h
  · exact nomatch (decodeGate_op_three hop).symm.trans h

/-- A command that does not use `SEL` has one word (30_encoding.md R85, R86). -/
theorem encode_of_withoutSel {w : Word} {i j : Instr} {opc : Nat} (hself : commandWord opc (commandSel w) = w)
    (hj : j.wf = true ∧ j.isGate = false ∧ encode j = commandWord opc 0) (h : withoutSel w j = .instr i) :
    i.wf = true ∧ i.isGate = false ∧ encode i = w := by
  unfold withoutSel at h
  split at h
  · rename_i hsel
    cases h
    rw [← hself, hsel]
    exact hj
  · cases h

/-- A command word that decodes is the word of a well-formed command (30_encoding.md R84, R86). -/
theorem encode_of_decodeCommand {w : Word} {i : Instr} (h : decodeCommand w = .instr i) :
    i.wf = true ∧ i.isGate = false ∧ encode i = w := by
  unfold decodeCommand at h
  split at h
  · cases h
  · rename_i hr
    have hself := commandWord_self w (not_not.mp hr)
    split at h <;> rename_i hopc
    case h_10 => cases h
    all_goals rw [hopc] at hself
    case h_4 | h_5 | h_9 =>
      cases h
      exact ⟨selOk_commandSel w, rfl, hself⟩
    all_goals exact encode_of_withoutSel hself ⟨rfl, rfl, rfl⟩ h

/-- Settles O2: each place's decoder on its own. -/
theorem encodeUndoesDecode : Obligations.EncodeUndoesDecode := by
  unfold Obligations.EncodeUndoesDecode
  intro gate w i h
  cases gate with
  | true => exact encode_of_decodeGate h
  | false => exact encode_of_decodeCommand h

/-- Settles O3: the four values of `OP`, one by one. -/
theorem gateWordsRefusedByName : Obligations.GateWordsRefusedByName := by
  unfold Obligations.GateWordsRefusedByName
  intro w
  have hop3 : w.extractLsb' 30 2 = 3 ↔ gateOp w = 3 := BitVec.toNat_inj.symm
  have hop2 : w.extractLsb' 30 2 = 2 ↔ gateOp w = 2 := BitVec.toNat_inj.symm
  have hs2 : w.extractLsb' 0 15 = 0 ↔ gateS2 w = 0 := BitVec.toNat_inj.symm
  rw [hop3, hop2, Ne, hs2]
  rcases gateOp_cases w with hop | hop | hop | hop
  · simp [decodeGate_op_zero hop, hop]
  · simp [decodeGate_op_one hop, hop]
  · rw [decodeGate_op_two hop, hop]
    split <;> simp [*]
  · simp [decodeGate_op_three hop, hop]

theorem withoutSel_eq_refused {w : Word} {i : Instr} {r : DecodeRefusal} :
    withoutSel w i = .refused r ↔ commandSel w ≠ 0 ∧ .unknownCommand = r := by
  unfold withoutSel
  split <;> simp [*]

/-- The command words that are no command, by their fields (30_encoding.md R86). -/
theorem decodeCommand_eq_refused {w : Word} {r : DecodeRefusal} : decodeCommand w = .refused r ↔
    (commandReserved w ≠ 0 ∨ commandOpc w = 0 ∨ 9 < commandOpc w ∨
      (commandSel w ≠ 0 ∧ commandOpc w ≠ 4 ∧ commandOpc w ≠ 5 ∧ commandOpc w ≠ 9)) ∧ .unknownCommand = r := by
  unfold decodeCommand
  split
  · simp [*]
  · rename_i hr
    split
    case h_10 =>
      have hopc : commandOpc w = 0 ∨ 9 < commandOpc w := by
        simp only [imp_false] at *
        omega
      simp [← or_assoc, hopc]
    all_goals simp [withoutSel_eq_refused, not_not.mp hr, *]

/-- Settles O4: a field is 0 as bits exactly when it is as a number. -/
theorem commandWordsRefusedByName : Obligations.CommandWordsRefusedByName := by
  unfold Obligations.CommandWordsRefusedByName
  intro w
  have hr : w.extractLsb' 13 19 = 0 ↔ commandReserved w = 0 := BitVec.toNat_inj.symm
  have hs : w.extractLsb' 8 5 = 0 ↔ commandSel w = 0 := BitVec.toNat_inj.symm
  have ho0 : w.extractLsb' 0 8 = 0 ↔ commandOpc w = 0 := BitVec.toNat_inj.symm
  have ho4 : w.extractLsb' 0 8 = 4 ↔ commandOpc w = 4 := BitVec.toNat_inj.symm
  have ho5 : w.extractLsb' 0 8 = 5 ↔ commandOpc w = 5 := BitVec.toNat_inj.symm
  have ho9 : w.extractLsb' 0 8 = 9 ↔ commandOpc w = 9 := BitVec.toNat_inj.symm
  simp only [decodeCommand_eq_refused, Ne, hr, hs, ho0, ho4, ho5, ho9]
  exact ⟨⟨fun ⟨_, h, _⟩ => h, fun h => ⟨_, h, rfl⟩⟩, fun _ ⟨_, h⟩ => h.symm⟩

/-- Settles O5: each word is decoded. -/
theorem workedEncodingsDecode : Obligations.WorkedEncodingsDecode := by
  unfold Obligations.WorkedEncodingsDecode
  decide

end Sys2Proof
end

section
/-! The construction check, said of the words of the image: the first failing gate, then the first failing selector (30_encoding.md
R81, 41_executor.md R141). -/

namespace Sys2Proof.Machine

/-- Gate `k` of the image fails with this cause and DETAIL (60_exceptions.md R204). -/
def gateError (img : List Word) (k : Nat) : Option (Cause × Nat) :=
  (gateFailure (imageNIn img) k (imageGate img k)).map (·, 3 + k)

/-- Output selector `j` of the image fails with this cause and DETAIL (60_exceptions.md R204). -/
def selectorError (img : List Word) (j : Nat) : Option (Cause × Nat) :=
  (selectorFailure (imageNIn img + imageN img) (memRead img (3 + imageN img + j))).map (·, 3 + imageN img + j)

/-- The scan of the gates asks of each gate what `gateFailure` says. -/
theorem checkGates_cons (nIn k : Nat) (w : Word) (rest : List Word) : checkGates nIn k (w :: rest) =
    ((gateFailure nIn k w).map (·, 3 + k)).or (checkGates nIn (k + 1) rest) := by
  rw [checkGates, gateFailure]
  split
  · rfl
  · split
    · rfl
    · split
      · rw [if_pos (.inl ‹_›)]
        rfl
      · split
        · rw [if_pos (.inr ‹_›)]
          rfl
        · rw [if_neg (not_or.mpr ⟨‹_›, ‹_›⟩)]
          rfl

/-- The scan of the selectors asks of each selector what `selectorFailure` says. -/
theorem checkSelectors_cons (wires a : Nat) (o : Word) (rest : List Word) : checkSelectors wires a (o :: rest) =
    ((selectorFailure wires o).map (·, a)).or (checkSelectors wires (a + 1) rest) := by
  rw [checkSelectors, selectorFailure]
  split
  · rfl
  · split <;> rfl

/-- The scan of the gates `g k`, `g (k + 1)`, ... finds the first that fails. -/
theorem checkGates_range' (nIn : Nat) (g : Nat → Word) (k n : Nat) : checkGates nIn k ((List.range' k n).map g) =
    (List.range' k n).findSome? fun k => (gateFailure nIn k (g k)).map (·, 3 + k) := by
  induction n generalizing k with
  | zero => rfl
  | succ n ih =>
    rw [List.range'_succ, List.map_cons, checkGates_cons, ih, List.findSome?_cons]
    cases gateFailure nIn k (g k) <;> rfl

/-- The scan of the selectors `g j`, `g (j + 1)`, ..., the first of which is image word `a + j`, finds the first that fails. -/
theorem checkSelectors_range' (wires a : Nat) (g : Nat → Word) (j n : Nat) :
    checkSelectors wires (a + j) ((List.range' j n).map g) =
      (List.range' j n).findSome? fun j => (selectorFailure wires (g j)).map (·, a + j) := by
  induction n generalizing j with
  | zero => rfl
  | succ n ih =>
    rw [List.range'_succ, List.map_cons, checkSelectors_cons, Nat.add_assoc, ih, List.findSome?_cons]
    cases selectorFailure wires (g j) <;> rfl

/-- The words of an image from `a` on, as reads of them (00_scope.md R12). -/
theorem take_drop_eq_map_memRead {img : List Word} {a n : Nat} (h : a + n ≤ img.length) :
    (img.drop a).take n = (List.range n).map fun k => memRead img (a + k) := by
  refine List.ext_getElem (by simp; omega) fun k _ hk => ?_
  have hlt : a + k < img.length := by simp at hk; omega
  simp [memRead, hlt]

/-- The limits and the length, said of the header words and the rest (30_encoding.md R73, R74). -/
theorem sizeLegal_cons {h0 h1 h2 : Word} {body : List Word} : sizeLegal (h0 :: h1 :: h2 :: body) ↔
    ¬ (headerField h0 < 1 ∨ headerField h2 < 1 ∨ maxWires < headerField h0 + headerField h1) ∧
      body.length = headerField h1 + headerField h2 := by
  simp only [sizeLegal, imageNIn, imageN, imageNOut, memRead, List.getD_cons_zero, List.getD_cons_succ, List.length_cons]
  omega

/-- An image of fewer than three words has no header (41_executor.md R141). -/
theorem check_of_short {img : List Word} (h : img.length < 3) : check img = some (.ceSize, 0) := by
  match img with
  | [] | [_] | [_, _] => rfl
  | _ :: _ :: _ :: _ => simp at h; omega

/-- The first header word with a reserved bit is reported (30_encoding.md R80, R81). -/
theorem check_of_reserved {img : List Word} (hlen : 3 ≤ img.length) {a : Nat} (ha : a < 3)
    (h : headerReserved (memRead img a) ≠ 0) (hbefore : ∀ b, b < a → headerReserved (memRead img b) = 0) :
    check img = some (.ceReservedNonzero, a) := by
  match img, a with
  | _ :: _ :: _ :: _, 0 => exact if_pos h
  | _ :: _ :: _ :: _, 1 => exact (if_neg (not_not.mpr (hbefore 0 (by omega)))).trans (if_pos h)
  | _ :: _ :: _ :: _, 2 =>
    exact (if_neg (not_not.mpr (hbefore 0 (by omega)))).trans
      ((if_neg (not_not.mpr (hbefore 1 (by omega)))).trans (if_pos h))

/-- Past a header without reserved bits come the limits, the length, the gates and the selectors (41_executor.md R141). -/
theorem check_of_header {h0 h1 h2 : Word} {body : List Word}
    (hres : ∀ a, a < 3 → headerReserved (memRead (h0 :: h1 :: h2 :: body) a) = 0) :
    check (h0 :: h1 :: h2 :: body) =
      if headerField h0 < 1 ∨ headerField h2 < 1 ∨ maxWires < headerField h0 + headerField h1 then some (.ceSize, 0)
      else if body.length ≠ headerField h1 + headerField h2 then some (.ceSize, 0)
      else (checkGates (headerField h0) 0 (body.take (headerField h1))).or
        (checkSelectors (headerField h0 + headerField h1) (3 + headerField h1) (body.drop (headerField h1))) := by
  have h0res : headerReserved h0 = 0 := hres 0 (by omega)
  have h1res : headerReserved h1 = 0 := hres 1 (by omega)
  have h2res : headerReserved h2 = 0 := hres 2 (by omega)
  rw [check, if_neg (not_not.mpr h0res), if_neg (not_not.mpr h1res), if_neg (not_not.mpr h2res)]
  cases checkGates (headerField h0) 0 (body.take (headerField h1)) <;> rfl

/-- A header without reserved bits and with a broken limit or a wrong length is CE_SIZE (30_encoding.md R74, R81). -/
theorem check_of_not_sizeLegal {img : List Word} (hlen : 3 ≤ img.length) (hres : ∀ a, a < 3 → headerReserved (memRead img a) = 0)
    (hsize : ¬ sizeLegal img) : check img = some (.ceSize, 0) := by
  match img with
  | h0 :: h1 :: h2 :: body =>
    rw [sizeLegal_cons, not_and_or, not_not] at hsize
    rw [check_of_header hres]
    rcases hsize with hlimits | hbody
    · rw [if_pos hlimits]
    · rw [if_pos hbody, ite_self]

/-- With a legal header and the right length, the check answers the first failing gate, else the first failing selector
(30_encoding.md R81). -/
theorem check_of_sizeLegal {img : List Word} (hres : ∀ a, a < 3 → headerReserved (memRead img a) = 0) (hsize : sizeLegal img) :
    check img = ((List.range (imageN img)).findSome? (gateError img)).or
      ((List.range (imageNOut img)).findSome? (selectorError img)) := by
  have ⟨_, _, _, hlen⟩ := hsize
  have hgates : checkGates (imageNIn img) 0 ((img.drop 3).take (imageN img)) =
      (List.range (imageN img)).findSome? (gateError img) := by
    rw [take_drop_eq_map_memRead (by omega), List.range_eq_range', checkGates_range']
    rfl
  have hsels : checkSelectors (imageNIn img + imageN img) (3 + imageN img) ((img.drop 3).drop (imageN img)) =
      (List.range (imageNOut img)).findSome? (selectorError img) := by
    rw [List.drop_drop, ← List.take_of_length_le (l := img.drop (3 + imageN img)) (i := imageNOut img) (by simp; omega),
      take_drop_eq_map_memRead (by omega), List.range_eq_range']
    exact checkSelectors_range' _ _ _ 0 _
  rw [← hgates, ← hsels]
  match img with
  | h0 :: h1 :: h2 :: body =>
    obtain ⟨hlimits, hbody⟩ := sizeLegal_cons.mp hsize
    rw [check_of_header hres, if_neg hlimits, if_neg (not_not.mpr hbody)]
    rfl

/-- Of a range, the first place with a value gives the answer. -/
theorem findSome?_range_eq_some {β : Type} {f : Nat → Option β} {n i : Nat} {b : β} (hi : i < n) (hbefore : ∀ j, j < i → f j = none)
    (h : f i = some b) : (List.range n).findSome? f = some b := by
  induction n with
  | zero => omega
  | succ n ih =>
    rw [List.range_succ, List.findSome?_append]
    by_cases hin : i < n
    · rw [ih hin]
      rfl
    · obtain rfl : i = n := by omega
      have hnone : (List.range i).findSome? f = none := by simpa using hbefore
      simp [hnone, h]

/-- A legal image passes the check (41_executor.md R141). -/
theorem check_of_legal {img : List Word} (h : ImageLegal img) : check img = none := by
  obtain ⟨hsize, hres, hgate, hsel⟩ := h
  have hg : (List.range (imageN img)).findSome? (gateError img) = none := by
    simpa [gateError] using hgate
  have hs : (List.range (imageNOut img)).findSome? (selectorError img) = none := by
    simpa [selectorError] using hsel
  rw [check_of_sizeLegal hres hsize, hg, hs]
  rfl

/-- Settles O25: the check scans the header, the limits, the gates and the selectors in this order. -/
theorem checkReportsTheFirstFailure : Obligations.CheckReportsTheFirstFailure := by
  unfold Obligations.CheckReportsTheFirstFailure
  refine ⟨fun img => check_of_short, fun img hlen => ⟨fun a => check_of_reserved hlen, fun hres =>
    ⟨check_of_not_sizeLegal hlen hres, fun hsize => ⟨?_, ?_⟩⟩⟩⟩
  · intro k cause hk hbefore hfail
    have hg : (List.range (imageN img)).findSome? (gateError img) = some (cause, 3 + k) :=
      findSome?_range_eq_some hk (fun j hj => by simp [gateError, hbefore j hj]) (by simp [gateError, hfail])
    rw [check_of_sizeLegal hres hsize, hg]
    rfl
  · intro hgate j cause hj hbefore hfail
    have hg : (List.range (imageN img)).findSome? (gateError img) = none := by
      simpa [gateError] using hgate
    have hs : (List.range (imageNOut img)).findSome? (selectorError img) = some (cause, 3 + imageN img + j) :=
      findSome?_range_eq_some hj (fun i hi => by simp [selectorError, hbefore i hi]) (by simp [selectorError, hfail])
    rw [check_of_sizeLegal hres hsize, hg, hs]
    rfl

end Sys2Proof.Machine
end

section
/-! The host's translation of a text program writes a legal image (30_encoding.md R83): its operands are wires of earlier lines. -/

namespace Sys2Proof.Machine

/-- A wire number is a place in the list of names. -/
theorem wireOfName_lt {names : List Name} {n : Name} {i : Nat} (h : wireOfName names n = some i) : i < names.length := by
  induction names generalizing i with
  | nil => cases h
  | cons m rest ih =>
    rw [wireOfName] at h
    split at h
    · cases h
      exact Nat.succ_pos _
    · obtain ⟨j, hj, rfl⟩ := Option.map_eq_some_iff.mp h
      exact Nat.succ_lt_succ (ih hj)

/-- The word of a gate is legal when its operands are wires before it (30_encoding.md R76, R77). -/
theorem gateFailure_gateWord {nIn k op s1 s2 : Nat} (hop : op < 3) (hs1 : s1 < nIn + k) (hs2 : s2 < nIn + k)
    (hnot : op = 2 → s2 = 0) (hmax : nIn + k ≤ maxWires) : gateFailure nIn k (gateWord op s1 s2) = none := by
  simp only [maxWires] at hmax
  obtain ⟨eop, es1, es2⟩ := gateWord_fields (op := op) (s1 := s1) (s2 := s2) (by omega) (by omega) (by omega)
  rw [gateFailure, eop, es1, es2, if_neg (by omega), if_neg (by omega), if_neg (by omega)]

/-- The word of a text gate whose operands are among the wires before it is legal (30_encoding.md R83). -/
theorem gateFailure_textWord {names : List Name} {g : TextGate} {w : Word} {nIn k : Nat} (h : textWord names g = some w)
    (hlen : names.length = nIn + k) (hmax : names.length ≤ maxWires) : gateFailure nIn k w = none := by
  have hlt : ∀ {n i}, wireOfName names n = some i → i < nIn + k := fun hi => hlen ▸ wireOfName_lt hi
  cases g with
  | xor d a b | and d a b =>
    simp only [textWord, Option.bind_eq_some_iff, Option.map_eq_some_iff] at h
    obtain ⟨s1, hs1, s2, hs2, rfl⟩ := h
    exact gateFailure_gateWord (by omega) (hlt hs1) (hlt hs2) (by omega) (hlen ▸ hmax)
  | not d a =>
    simp only [textWord, Option.map_eq_some_iff] at h
    obtain ⟨s1, hs1, rfl⟩ := h
    exact gateFailure_gateWord (by omega) (hlt hs1) (Nat.zero_lt_of_lt (hlt hs1)) (fun _ => rfl) (hlen ▸ hmax)

/-- The first of some lines that translate is blank, or it is a gate whose word comes first. -/
theorem assembleLines_cons_ok {line k : Nat} {names all : List Name} {l : List Char} {rest : List (List Char)} {ws : List Word}
    (h : assembleLines line k names (l :: rest) = .ok (all, ws)) :
    assembleLines (line + 1) k names rest = .ok (all, ws) ∨
      ∃ g w ws', textWord names g = some w ∧ ws = w :: ws' ∧
        assembleLines (line + 1) (k + 1) (names ++ [textDestination g]) rest = .ok (all, ws') := by
  rw [assembleLines] at h
  split at h
  · exact .inl h
  · cases h
  · rename_i g _
    split at h
    · cases h
    · rename_i w hw
      split at h
      · cases h
      · split at h
        · rename_i ws' hrest
          cases h
          exact .inr ⟨g, w, ws', hw, rfl, hrest⟩
        · cases h

/-- Each gate adds one wire, and is legal if all wires fit the wire file (30_encoding.md R74, R83). -/
theorem assembleLines_ok {line k nIn : Nat} {names all : List Name} {lines : List (List Char)} {ws : List Word}
    (h : assembleLines line k names lines = .ok (all, ws)) (hlen : names.length = nIn + k) :
    all.length = names.length + ws.length ∧
      (all.length ≤ maxWires → ∀ i w, ws[i]? = some w → gateFailure nIn (k + i) w = none) := by
  induction lines generalizing line k names ws with
  | nil =>
    cases h
    simp
  | cons l rest ih =>
    rcases assembleLines_cons_ok h with hrest | ⟨g, w, ws', hw, rfl, hrest⟩
    · exact ih hrest hlen
    · obtain ⟨hall, hlegal⟩ := ih hrest (by simp [hlen, Nat.add_assoc])
      simp only [List.length_append, List.length_cons, List.length_nil] at hall ⊢
      refine ⟨by omega, fun hmax i v hv => ?_⟩
      cases i with
      | zero =>
        cases hv
        exact gateFailure_textWord hw hlen (by omega)
      | succ i => rw [← Nat.succ_add_eq_add_succ]; exact hlegal hmax i v hv

/-- A wire number fits an output-selector word (30_encoding.md R79). -/
theorem selectorFailure_ofNat {wires i : Nat} (hi : i < wires) (hmax : wires ≤ maxWires) :
    selectorFailure wires (BitVec.ofNat 32 i) = none := by
  simp only [maxWires] at hmax
  have hres : selectorReserved (BitVec.ofNat 32 i) = 0 := by
    simp only [selectorReserved, BitVec.extractLsb'_toNat, BitVec.toNat_ofNat, Nat.shiftRight_eq_div_pow]
    omega
  have hwire : selectorWire (BitVec.ofNat 32 i) = i := by
    simp only [selectorWire, BitVec.extractLsb'_toNat, BitVec.toNat_ofNat, Nat.shiftRight_eq_div_pow]
    omega
  rw [selectorFailure, hres, hwire, if_neg (by omega), if_neg (by omega)]

/-- Every declared output gets a selector, which is legal if all wires fit the wire file (30_encoding.md R79, R83). -/
theorem assembleOutputs_ok {a : Nat} {names outputs : List Name} {ws : List Word} (h : assembleOutputs a names outputs = .ok ws) :
    ws.length = outputs.length ∧ (names.length ≤ maxWires → ∀ o ∈ ws, selectorFailure names.length o = none) := by
  induction outputs generalizing a ws with
  | nil =>
    cases h
    simp
  | cons o rest ih =>
    rw [assembleOutputs] at h
    split at h
    · cases h
    · rename_i i hi
      split at h
      · rename_i ws' hrest
        cases h
        obtain ⟨hlen, hlegal⟩ := ih hrest
        exact ⟨congrArg (· + 1) hlen, fun hmax => List.forall_mem_cons.mpr
          ⟨selectorFailure_ofNat (wireOfName_lt hi) hmax, hlegal hmax⟩⟩
      · cases h

/-- The image of a program with `nIn` inputs, these gates and these output selectors (30_encoding.md R73). -/
def writeImage (nIn : Nat) (gates sels : List Word) : List Word :=
  [BitVec.ofNat 32 nIn, BitVec.ofNat 32 gates.length, BitVec.ofNat 32 sels.length] ++ gates ++ sels

/-- A number of 16 bits fits a header word (30_encoding.md R73). -/
theorem headerField_ofNat {n : Nat} (hn : n < 65536) : headerField (BitVec.ofNat 32 n) = n := by
  simp only [headerField, BitVec.extractLsb'_toNat, BitVec.toNat_ofNat, Nat.shiftRight_eq_div_pow]
  omega

theorem headerReserved_ofNat {n : Nat} (hn : n < 65536) : headerReserved (BitVec.ofNat 32 n) = 0 := by
  simp only [headerReserved, BitVec.extractLsb'_toNat, BitVec.toNat_ofNat, Nat.shiftRight_eq_div_pow]
  omega

/-- The words after the header are the gates and then the selectors. -/
theorem memRead_writeImage (nIn : Nat) (gates sels : List Word) (i : Nat) :
    memRead (writeImage nIn gates sels) (3 + i) = (gates ++ sels).getD i 0 := by
  rw [Nat.add_comm]
  rfl

/-- A written image is legal when its counts are within the limits and each of its gates and selectors is legal (30_encoding.md
R73, R74). -/
theorem writeImage_legal {nIn : Nat} {gates sels : List Word} (hin : 1 ≤ nIn) (hout : 1 ≤ sels.length)
    (hmax : nIn + gates.length ≤ maxWires) (h16 : sels.length ≤ 65535)
    (hgate : ∀ k w, gates[k]? = some w → gateFailure nIn k w = none)
    (hsel : ∀ o ∈ sels, selectorFailure (nIn + gates.length) o = none) : ImageLegal (writeImage nIn gates sels) := by
  have hbounds : nIn < 65536 ∧ gates.length < 65536 ∧ sels.length < 65536 := by
    simp only [maxWires] at hmax
    omega
  obtain ⟨hin16, hgates16, hsels16⟩ := hbounds
  have enIn : imageNIn (writeImage nIn gates sels) = nIn := headerField_ofNat hin16
  have en : imageN (writeImage nIn gates sels) = gates.length := headerField_ofNat hgates16
  have enOut : imageNOut (writeImage nIn gates sels) = sels.length := headerField_ofNat hsels16
  rw [ImageLegal, sizeLegal, enIn, en, enOut]
  refine ⟨⟨hin, hout, hmax, by simp [writeImage]; omega⟩, fun a ha => ?_, fun k hk => ?_, fun j hj => ?_⟩
  · match a with
    | 0 => exact headerReserved_ofNat hin16
    | 1 => exact headerReserved_ofNat hgates16
    | 2 => exact headerReserved_ofNat hsels16
  · rw [imageGate, memRead_writeImage]
    exact hgate k _ (by simp [List.getElem?_append_left hk, hk])
  · rw [Nat.add_assoc, memRead_writeImage]
    exact hsel _ (by simp [hj])

/-- The image of a text that translates (30_encoding.md R83). -/
theorem assemble_ok {p : TextProgram} {img : List Word} (h : assemble p = .ok img) :
    ∃ names gates sels, assembleLines 1 0 p.inputs p.body = .ok (names, gates) ∧
      assembleOutputs (3 + gates.length) names p.outputs = .ok sels ∧ p.inputs.length + gates.length ≤ maxWires ∧
      sels.length ≤ 65535 ∧
      img = writeImage p.inputs.length gates sels := by
  unfold assemble at h
  split at h
  · split at h
    · split at h
      · cases h
      · rename_i names gates hlines
        split at h
        · cases h
        · rename_i sels hsels
          split at h
          · cases h
          · rename_i hsize
            cases h
            exact ⟨names, gates, sels, hlines, hsels, by omega, by omega, rfl⟩
    · cases h
  · cases h

/-- Settles O60: the image written counts its gates and selectors, and each of them is legal. -/
theorem translatedTextPassesTheCheck : Obligations.TranslatedTextPassesTheCheck := by
  unfold Obligations.TranslatedTextPassesTheCheck
  intro p img hin hout h
  obtain ⟨names, gates, sels, hlines, hsels, hmax, hcount16, rfl⟩ := assemble_ok h
  obtain ⟨hnames, hgate⟩ := assembleLines_ok (nIn := p.inputs.length) hlines rfl
  obtain ⟨hcount, hsel⟩ := assembleOutputs_ok hsels
  rw [hnames] at hgate hsel
  have hone : 1 ≤ sels.length := hcount ▸ List.length_pos_of_ne_nil hout
  refine check_of_legal (writeImage_legal (List.length_pos_of_ne_nil hin) hone hmax hcount16 (fun k w hw => ?_) (hsel hmax))
  simpa using hgate hmax k w hw

end Sys2Proof.Machine
end

section
/-! The step runs what the acting agent holds (30_encoding.md R86, R87, 41_executor.md R124), and the port of a busy executor keeps its
commands. -/

namespace Sys2Proof.Machine

/-- The step of an agent that holds an instruction. -/
theorem step_of_instr {s : State} {i : Instr} (h : fetch s = .instr i) : step s = passMove (exec i s) := by
  rw [step, h]

/-- The step of an agent that runs no instruction. -/
theorem step_of_control {s t : State} (h : fetch s = .control t) : step s = .next t.advance := by
  rw [step, h]
  rfl

/-- A sequencer fetches the command it works on (30_encoding.md R87). -/
theorem fetch_of_commandWord {s : State} {q : Nat} {u : Inst} {w : Word} {i : Instr} (ha : s.acting = .seq q)
    (hu : s.insts[q]? = some u) (hw : u.commandWord? = some w) (hd : decodeCommand w = .instr i) : fetch s = .instr i := by
  simp [fetch, fetchSequencer, ha, hu, hw, hd]

/-- A sequencer refuses a word that is no command (30_encoding.md R86). -/
theorem fetch_of_refused {s : State} {q : Nat} {u : Inst} {w : Word} {r : DecodeRefusal} (ha : s.acting = .seq q)
    (hu : s.insts[q]? = some u) (hw : u.commandWord? = some w) (hd : decodeCommand w = .refused r) :
    fetch s = .control (refuseCommand s q u w) := by
  simp [fetch, fetchSequencer, ha, hu, hw, hd]

/-- A worker fetches the gate it has claimed (41_executor.md R124). -/
theorem fetch_of_evaluates {s : State} {q w k : Nat} {u : Inst} {i : Instr} (he : s.Evaluates q w k u)
    (hd : decodeGate (imageGate (s.image u.slot) k) = .instr i) : fetch s = .instr i := by
  obtain ⟨ha, hu, hr, hw⟩ := he
  simp [fetch, fetchWorker, ha, hu, hr, hw, hd]

theorem commandWord?_of_busy {u : Inst} (h : u.busy = true) : u.commandWord? = some u.cmd := by
  simp [Inst.commandWord?, h]

theorem commandWord?_of_port {u : Inst} {c : Command} {rest : List Command} (h : u.busy = false) (hp : u.port = c :: rest) :
    u.commandWord? = some c.word := by
  simp [Inst.commandWord?, h, hp]

/-- Settles O6: in each of the three cases the agent fetches `i`. -/
theorem stepRunsTheDecodedInstruction : Obligations.StepRunsTheDecodedInstruction := by
  unfold Obligations.StepRunsTheDecodedInstruction
  intro s q u i hu h
  have hfetch : fetch s = .instr i := by
    rcases h with ⟨ha, ⟨hb, hd⟩ | ⟨hb, c, rest, hp, hd⟩⟩ | ⟨w, k, he, hd⟩
    · exact fetch_of_commandWord ha hu (commandWord?_of_busy hb) hd
    · exact fetch_of_commandWord ha hu (commandWord?_of_port hb hp) hd
    · exact fetch_of_evaluates he hd
  rw [step_of_instr hfetch]
  cases exec i s <;> rfl

/-- Settles O7: the sequencer refuses the word, and an `OPC` of eight bits needs no saturation. -/
theorem unknownCommandIsRaised : Obligations.UnknownCommandIsRaised := by
  unfold Obligations.UnknownCommandIsRaised
  intro s q u c r ⟨ha, hu, hb⟩ hd
  have hopc : commandOpc c.word < 256 := (c.word.extractLsb' 0 8).isLt
  rw [step_of_control (fetch_of_refused ha hu (commandWord?_of_port hb rfl) hd), refuseCommand, raise_eq_faulted,
    Nat.min_eq_left (by omega)]
  rfl

/-- The commands at the port of executor `q`, which was `u` in an earlier state, still stand first there in `t`. -/
def KeepsPort (t : State) (q : Nat) (u : Inst) : Prop :=
  ∃ u' more, t.insts[q]? = some u' ∧ u'.port = u.port ++ more

theorem KeepsPort.of_unchanged {t : State} {q : Nat} {u : Inst} (hu : t.insts[q]? = some u) : KeepsPort t q u :=
  ⟨u, [], hu, (List.append_nil _).symm⟩

/-- After executor `p` is written, a port keeps its commands if it does where `p` is the executor itself. -/
theorem KeepsPort.of_set {s t : State} {p q : Nat} {u v x : Inst} (hu : s.insts[q]? = some u) (hv : s.insts[p]? = some v)
    (ht : t.insts = s.insts.set p x) (hx : u = v → ∃ more, x.port = u.port ++ more) : KeepsPort t q u := by
  by_cases hpq : p = q
  · subst hpq
    obtain ⟨more, hmore⟩ := hx (Option.some.inj (hu.symm.trans hv))
    exact ⟨x, more, ht ▸ insts_set_self hu, hmore⟩
  · exact .of_unchanged (by rw [ht, List.getElem?_set_ne hpq, hu])

/-- A write that leaves the port as it is. -/
theorem KeepsPort.of_same_port {s t : State} {p q : Nat} {u v x : Inst} (hu : s.insts[q]? = some u)
    (hv : s.insts[p]? = some v) (ht : t.insts = s.insts.set p x) (hx : x.port = v.port) : KeepsPort t q u :=
  .of_set hu hv ht fun | rfl => ⟨[], by rw [hx, List.append_nil]⟩

/-- Only an idle executor accepts a command. -/
theorem KeepsPort.of_accepts {s t : State} {p q : Nat} {u v x : Inst} {c : Command} (ha : s.Accepts p v c)
    (hu : s.insts[q]? = some u) (hb : u.busy = true) (ht : t.insts = s.insts.set p x) : KeepsPort t q u := by
  obtain ⟨-, hv, hidle⟩ := ha
  refine .of_set hu hv ht ?_
  rintro rfl
  exact absurd (hb.symm.trans hidle) nofun

/-- No phase of a running command takes a command from a port. -/
theorem runPhase_keepsPort {s t : State} {p q : Nat} {u v : Inst} {i : Instr} (hr : s.Runs p v)
    (h : runPhase s p v (afterCopyOf i) = .next t) (hu : s.insts[q]? = some u) : KeepsPort t q u := by
  obtain ⟨-, hv, -⟩ := hr
  rcases runPhase_next h with ⟨-, rfl⟩ | ⟨-, rfl⟩ | ⟨-, -, outs, -, rfl⟩ | ⟨-, -, rfl⟩ | ⟨-, rfl⟩ | ⟨-, rfl⟩ | ⟨-, rfl⟩
  case inr.inr.inl => exact .of_same_port hu hv rfl (by cases i <;> rfl)
  case inr.inr.inr.inl => exact .of_unchanged hu
  all_goals exact .of_same_port hu hv rfl rfl

/-- No instruction takes a command from the port of a busy executor. -/
theorem execEffect_keepsPort {s t : State} {i : Instr} {q : Nat} {u : Inst} (h : ExecEffect i s t)
    (hu : s.insts[q]? = some u) (hb : u.busy = true) : KeepsPort t q u := by
  cases h with
  | poll | wait => exact .of_unchanged hu
  | evaluate he =>
    obtain ⟨-, hv, -⟩ := he
    exact .of_same_port hu hv rfl rfl
  | phase hr _ ht => exact runPhase_keepsPort hr ht hu
  | raised ha | table ha | codec ha | register ha | store ha | admitted ha | begun ha => exact .of_accepts ha hu hb rfl

/-- No step takes a command from the port of a busy executor: a reset is taken only while every executor is idle, and the
word of a running command is never refused (70_reset_and_hazards.md R230, 10_state.md R36). -/
theorem stepEffect_keepsPort {s t : State} {q : Nat} {u : Inst} (hs : s.Inv) (h : StepEffect s t) (hu : s.insts[q]? = some u)
    (hb : u.busy = true) : KeepsPort t q u := by
  cases h with
  | quiet => exact .of_unchanged hu
  | issue _ hv => exact .of_set hu hv rfl fun | rfl => ⟨_, rfl⟩
  | restart _ hi =>
    have hidle := List.all_eq_true.mp hi u (List.mem_of_getElem? hu)
    simp [hb] at hidle
  | claim _ hv => exact .of_same_port hu hv rfl rfl
  | refuse _ hv hw hd =>
    exact .of_set hu hv rfl fun | rfl => absurd (hb.symm.trans (hs.idle_of_refused hv hw hd)) nofun
  | command _ _ _ _ ht | gate _ _ ht => exact execEffect_keepsPort ht hu hb

/-- The host's move of issuing a command (70_reset_and_hazards.md R242). -/
theorem fetch_of_issue {s : State} {q : Nat} {u : Inst} {c : Command} (ha : s.acting = .host (.issue q c))
    (hu : s.insts[q]? = some u) : fetch s = .control (s.setInst q { u with port := u.port ++ [c] }) := by
  simp [fetch, hostStep, ha, hu]

/-- Settles O38: the host appends to the port, and no effect of a step takes a command from it. -/
theorem commandsAreHeldWhileBusy : Obligations.CommandsAreHeldWhileBusy := by
  unfold Obligations.CommandsAreHeldWhileBusy
  refine ⟨fun s q u c rest hplan hu => ?_, fun s t q u hs hst hu hb => ?_⟩
  · exact step_of_control (fetch_of_issue (by rw [State.acting, hplan]) hu)
  · obtain ⟨t', hx, rfl⟩ := step_effect hst
    have hkept : KeepsPort t' q u := stepEffect_keepsPort hs hx hu hb
    exact hkept

end Sys2Proof.Machine
end

section
/-! The gates (40_gates.md R100 to R107): what the engine answers a gate with decrypts by the engine's law, and the evaluate
step writes that answer to the gate's wire and nothing else. -/

namespace Sys2Proof.Machine

/-- A call of `bit_xor` decrypts by its law (10_state.md R40). -/
theorem call_bitXor (s : State) (j : Nat) (a b : EncBit) :
    Config.engine.decb ((s.call j).bitXor a b) = (Config.engine.decb a ^^ Config.engine.decb b) := by
  have := (call_laws s j).bitXor a b
  rwa [call_decb] at this

/-- A call of `bit_and` decrypts by its law (10_state.md R39). -/
theorem call_bitAnd (s : State) (j : Nat) (a b : EncBit) :
    Config.engine.decb ((s.call j).bitAnd a b) = (Config.engine.decb a && Config.engine.decb b) := by
  have := (call_laws s j).bitAnd a b
  rwa [call_decb] at this

/-- A call of `bit_not` decrypts by its law (10_state.md R41). -/
theorem call_bitNot (s : State) (j : Nat) (a : EncBit) :
    Config.engine.decb ((s.call j).bitNot a) = !Config.engine.decb a := by
  have := (call_laws s j).bitNot a
  rwa [call_decb] at this

theorem gateValue_xor {s : State} {u : Inst} {s1 s2 : Nat} {a b : EncBit} (ha : cellGet u.wires s1 = some a)
    (hb : cellGet u.wires s2 = some b) : gateValue s (.xor s1 s2) u = some ((s.call 0).bitXor a b) := by
  simp [gateValue, binaryGate, ha, hb]

theorem gateValue_and {s : State} {u : Inst} {s1 s2 : Nat} {a b : EncBit} (ha : cellGet u.wires s1 = some a)
    (hb : cellGet u.wires s2 = some b) : gateValue s (.and s1 s2) u = some ((s.call 0).bitAnd a b) := by
  simp [gateValue, binaryGate, ha, hb]

theorem gateValue_not {s : State} {u : Inst} {s1 : Nat} {a : EncBit} (ha : cellGet u.wires s1 = some a) :
    gateValue s (.not s1) u = some ((s.call 0).bitNot a) := by
  simp [gateValue, unaryGate, ha]

/-- Every gate is the evaluate step with its own value (41_executor.md R126). -/
theorem exec_gate {i : Instr} (hi : i.isGate = true) (s : State) : exec i s = onWorker s (gateValue s i) := by
  cases i with
  | xor | and | not => rfl
  | loadPv | decompose | recompose | loadProg | exec | sbox | invsbox | mixcol | readReg => cases hi

/-- A gate whose value is at hand writes it to wire `N_IN + k`. -/
theorem exec_gate_writes {s : State} {q w k : Nat} {u : Inst} {i : Instr} {x : EncBit} (he : s.Evaluates q w k u)
    (hk : u.nIn + k < maxWires) (hi : i.isGate = true) (hx : gateValue s i u = some x) :
    ∃ t u', exec i s = .next t ∧ t.insts[q]? = some u' ∧ cellGet u'.wires (u.nIn + k) = some x := by
  have ⟨_, hu, _⟩ := he
  exact ⟨_, u.evaluate w k x, (exec_gate hi s).trans (onWorker_evaluates he hx hk), insts_set_self hu,
    cellGet_cellPut_same _ _ _⟩

/-- Settles O9: the gate writes the engine's answer, which decrypts by the law of its call. -/
theorem gatesMeetTheTruthTable : Obligations.GatesMeetTheTruthTable := by
  unfold Obligations.GatesMeetTheTruthTable
  intro s q w k s1 s2 u a b he hk ha hb i v hiv
  obtain ⟨hi, x, hx, hdec⟩ : i.isGate = true ∧ ∃ x, gateValue s i u = some x ∧ Config.engine.decb x = v := by
    rcases hiv with ⟨rfl, rfl⟩ | ⟨rfl, rfl⟩ | ⟨rfl, rfl⟩
    · exact ⟨rfl, _, gateValue_xor ha hb, call_bitXor s 0 a b⟩
    · exact ⟨rfl, _, gateValue_and ha hb, call_bitAnd s 0 a b⟩
    · exact ⟨rfl, _, gateValue_not ha, call_bitNot s 0 a⟩
  obtain ⟨t, u', hexec, hu', hwire⟩ := exec_gate_writes he hk hi hx
  exact ⟨t, u', x, hexec, hu', hwire, hdec⟩

/-- Settles O10: the truth table with both operands on one wire, where `v ^^ v` is 0 and `v && v` is `v`. -/
theorem sameWireAsBothOperands : Obligations.SameWireAsBothOperands := by
  unfold Obligations.SameWireAsBothOperands
  intro s q w k a u x he hk hx
  have htable := gatesMeetTheTruthTable s q w k a a u x x he hk hx hx
  exact ⟨htable _ _ (.inl ⟨rfl, (Bool.xor_self _).symm⟩), htable _ _ (.inr (.inl ⟨rfl, (Bool.and_self _).symm⟩))⟩

/-- Settles O12: a gate that answers a next state held, and wrote nothing, or wrote its wire and made its worker idle. -/
theorem gatesWriteOnlyTheirWire : Obligations.GatesWriteOnlyTheirWire := by
  unfold Obligations.GatesWriteOnlyTheirWire
  intro i s t hi h
  rw [exec_gate hi] at h
  obtain ⟨q, w, k, u, he, hcases⟩ := onWorker_next h
  have ⟨_, hu, _⟩ := he
  obtain ⟨-, rfl⟩ | ⟨v, -, -, rfl⟩ := hcases
  · exact ⟨q, w, k, u, u, he, hu, by rw [insts_set_same hu], rfl, fun _ _ => rfl, fun _ _ => rfl⟩
  · exact ⟨q, w, k, u, u.evaluate w k v, he, insts_set_self hu, rfl, rfl, fun x hx => cellGet_cellPut_other _ _ _ _ hx,
      fun x hx => List.getElem?_set_ne (Ne.symm hx)⟩

end Sys2Proof.Machine
end

section
/-! The reference values of the wires (41_executor.md R131, R132): which updates of a state keep them, and that every step does. -/

namespace Sys2Proof.Machine

/-- Only executors that run, and the images of their slots, carry reference values. -/
theorem State.Values.congr {s t : State} (h : s.Values) (hc : t.config = s.config) (hi : t.insts = s.insts)
    (himg : ∀ u ∈ s.insts, u.busy = true → t.image u.slot = s.image u.slot) : t.Values := by
  intro q u hu hr
  rw [hi] at hu
  rw [himg u (List.mem_of_getElem? hu) (running_iff.mp hr).1, hc]
  exact h q u hu hr

/-- Writing one executor keeps the reference values if what is written has them, should it run. -/
theorem State.Values.setInst {s : State} (h : s.Values) {q : Nat} {v : Inst}
    (hv : v.running = true → v.ValuesOk (s.image v.slot) s.config.deterministic) : (s.setInst q v).Values := by
  intro p u hu hr
  rcases getElem?_set_some hu with ⟨-, rfl⟩ | ⟨-, hold⟩
  · exact hv hr
  · exact h p u hold hr

/-- An executor that does not run carries no reference values. -/
theorem State.Values.setInst_resting {s : State} (h : s.Values) {q : Nat} {v : Inst} (hv : v.running = false) :
    (s.setInst q v).Values :=
  h.setInst fun hr => absurd (hv.symm.trans hr) nofun

theorem running_of_idle {u : Inst} (h : u.busy = false) : u.running = false := by
  simp [Inst.running, h]

theorem running_of_phase {u : Inst} (h : u.phase ≠ .run) : u.running = false := by
  simp [Inst.running, h]

/-- Raising a cause keeps the reference values: its executor is idle afterwards (60_exceptions.md R205). -/
theorem State.Values.raise {s : State} (h : s.Values) (q : Nat) (u : Inst) (w : Word) (c : Cause) (d : Nat) (l : Option Nat) :
    (raise s q u w c d l).Values :=
  (h.setInst_resting (v := { u with status := statusWord c d, busy := false }) rfl).congr rfl rfl
    fun _ _ _ => image_congr rfl rfl _

/-- Returning a result keeps the reference values: its executor is idle afterwards. -/
theorem State.Values.giveBack {s : State} (h : s.Values) (q : Nat) (u : Inst) (w : Word) (r : Payload) :
    (giveBack s q u w r).Values :=
  (h.setInst_resting (v := { u with busy := false }) rfl).congr rfl rfl fun _ _ _ => image_congr rfl rfl _

/-- Storing an image in a slot that no executor runs keeps the reference values (20_memory.md R57). -/
theorem State.Values.storeImage {s : State} (h : s.Values) {sel : Nat} (img : List Word) (hrom : 2 < sel)
    (hr : s.slotRunning sel = false) : (s.storeImage sel img).Values := by
  refine h.congr rfl rfl fun u hu hb => ?_
  rw [image_storeImage s sel _ img hrom, if_neg (slotRunning_false hr hu hb)]

/-- The value a worker takes from the present wires is the reference value of its gate (41_executor.md R126, R132). -/
theorem gateValue_ref {s : State} {img : List Word} {u : Inst} {k : Nat} {i : Instr} {x : EncBit} (facts : ImageFacts img)
    (hhead : u.headerOk img) (hbits : u.bits.length = u.nIn) (hv : u.ValuesOk img s.config.deterministic) (hk : k < u.n)
    (hd : decodeGate (imageGate img k) = .instr i) (hx : gateValue s i u = some x) :
    ∃ r, (refWires Config.engine.gates img u.bits)[u.nIn + k]? = some r ∧ sameBit s.config.deterministic x r := by
  obtain ⟨hnIn, hn, -⟩ := hhead
  rw [hnIn, refWires_gate _ facts u.bits (hbits.trans hnIn) (hn ▸ hk), refGate]
  rcases decodeGate_checked facts (hn ▸ hk) with
    ⟨a, b, hdec, hop, rfl, rfl, -⟩ | ⟨a, b, hdec, hop, rfl, rfl, -⟩ | ⟨a, hdec, hop, rfl, -⟩
  · obtain rfl := Decoded.instr.inj (hdec.symm.trans hd)
    obtain ⟨y, z, hy, hz, hxyz⟩ := binaryGate_ref hv (call_xor 0) hx
    exact ⟨_, by rw [hop, hy, hz]; rfl, hxyz⟩
  · obtain rfl := Decoded.instr.inj (hdec.symm.trans hd)
    obtain ⟨y, z, hy, hz, hxyz⟩ := binaryGate_ref hv (call_and 0) hx
    exact ⟨_, by rw [hop, hy, hz]; rfl, hxyz⟩
  · obtain rfl := Decoded.instr.inj (hdec.symm.trans hd)
    obtain ⟨y, hy, hxy⟩ := unaryGate_ref hv (call_not 0) hx
    exact ⟨_, by rw [hop, hy]; rfl, hxy⟩

/-- An evaluate step keeps the reference values (41_executor.md R126). -/
theorem State.Values.evaluate {s : State} (h : s.Values) (hs : s.Inv) {q w k : Nat} {u : Inst} {i : Instr} {x : EncBit}
    (he : s.Evaluates q w k u) (hd : decodeGate (imageGate (s.image u.slot) k) = .instr i) (hx : gateValue s i u = some x) :
    (s.setInst q (u.evaluate w k x)).Values := by
  obtain ⟨-, hu, hr, hw⟩ := he
  obtain ⟨-, hfacts, hhead, hbits, hrun⟩ := hs.of_running hu hr
  obtain ⟨r, href, hsame⟩ := gateValue_ref hfacts hhead hbits (h q u hu hr) (hrun.claimed w k hw).1 hd hx
  exact h.setInst fun _ => evaluate_valuesOk (h q u hu hr) href hsame

/-- Each phase of a running command keeps the reference values: only the start phase begins a worker phase. -/
theorem State.Values.runPhase {s t : State} (h : s.Values) {q : Nat} {u : Inst} {i : Instr}
    (ht : runPhase s q u (afterCopyOf i) = .next t) : t.Values := by
  rcases runPhase_next ht with ⟨-, rfl⟩ | ⟨-, rfl⟩ | ⟨-, -, outs, -, rfl⟩ | ⟨-, -, rfl⟩ | ⟨-, rfl⟩ | ⟨-, rfl⟩ | ⟨-, rfl⟩
  · exact h.setInst_resting (running_of_phase nofun)
  · exact h.setInst fun _ => startRun_valuesOk u _ _ _
  · refine h.setInst_resting (running_of_phase fun hp => ?_)
    have hlate := afterCopyOf_late i { u with bits := outs }
    simp [hp] at hlate
  · exact h
  · exact h.setInst_resting (running_of_phase nofun)
  · exact h.setInst_resting (running_of_phase nofun)
  · exact h.giveBack q u _ _

/-- Every effect of an instruction keeps the reference values, if the gate a worker evaluates is the one it has claimed. -/
theorem State.Values.execEffect {s t : State} (h : s.Values) (hs : s.Inv) {i : Instr} (hx : ExecEffect i s t)
    (hd : ∀ q w k u, s.Evaluates q w k u → decodeGate (imageGate (s.image u.slot) k) = .instr i) : t.Values := by
  cases hx with
  | poll | wait => exact h
  | evaluate he _ hv => exact h.evaluate hs he (hd _ _ _ _ he) hv
  | raised => exact h.raise _ _ _ _ _ _
  | @table q u c p =>
    have htable : ({ s with pv := p, pvValid := true } : State).Values := h.congr rfl rfl fun _ _ _ => image_congr rfl rfl _
    exact htable.giveBack _ _ _ _
  | codec | register => exact h.giveBack _ _ _ _
  | @store _ _ _ _ img _ _ hrom _ hr => exact (h.storeImage img hrom hr).giveBack _ _ _ _
  | admitted | begun => exact h.setInst_resting (running_of_phase nofun)
  | phase _ _ ht => exact h.runPhase ht

/-- The acting worker works on one gate. -/
theorem Evaluates.unique {s : State} {q w k q' w' k' : Nat} {u u' : Inst} (h : s.Evaluates q w k u)
    (h' : s.Evaluates q' w' k' u') : q' = q ∧ w' = w ∧ k' = k ∧ u' = u := by
  obtain ⟨ha, hu, -, hw⟩ := h
  obtain ⟨ha', hu', -, hw'⟩ := h'
  obtain ⟨rfl, rfl⟩ := Move.worker.inj (ha'.symm.trans ha)
  obtain rfl := Option.some.inj (hu'.symm.trans hu)
  exact ⟨rfl, rfl, Worker.claimed.inj (Option.some.inj (hw'.symm.trans hw)), rfl⟩

/-- Every effect of a step keeps the reference values. -/
theorem State.Values.stepEffect {s t : State} (h : s.Values) (hs : s.Inv) (hx : StepEffect s t) : t.Values := by
  cases hx with
  | quiet => exact h
  | @issue q u _ _ hu => exact h.setInst fun hr => h q u hu hr
  | restart => exact (values_resetWith s.config).congr rfl rfl fun _ _ _ => image_congr rfl rfl _
  | @claim q _ u _ hu hr => exact h.setInst fun _ => h q u hu hr
  | refuse => exact h.raise _ _ _ _ _ _
  | command hseq _ _ _ ht =>
    exact h.execEffect hs ht fun q w k u ⟨hworker, _⟩ => absurd (hworker.symm.trans hseq) nofun
  | gate he hd ht =>
    refine h.execEffect hs ht fun q' w' k' u' he' => ?_
    obtain ⟨-, -, rfl, rfl⟩ := Evaluates.unique he he'
    exact hd

/-- Settles O48: a step is one of the effects, each of which keeps the reference values; only an evaluate step writes a wire of a
worker phase under way. -/
theorem stepKeepsReferenceValues : Obligations.StepKeepsReferenceValues := by
  unfold Obligations.StepKeepsReferenceValues
  intro s t hs h hst
  obtain ⟨t', hx, rfl⟩ := step_effect hst
  exact (h.stepEffect hs hx).congr rfl rfl fun _ _ _ => image_congr rfl rfl _

end Sys2Proof.Machine
end

section
/-! The join and the output copy (41_executor.md R128, R129, R131): at the join every wire is present, so the selected wires can be
copied, and they hold the outputs of `Ref(prog, in)`. -/

namespace Sys2Proof.Machine

/-- A running command's sequencer takes the next phase, whichever of the four commands it is (41_executor.md R120, 43_sbox.md R172). -/
theorem exec_of_runs {s : State} {q : Nat} {u : Inst} {i : Instr} (hr : s.Runs q u) (hi : isPhased i) :
    exec i s = runPhase s q u (afterCopyOf i) := by
  rcases hi with ⟨sel, rfl⟩ | rfl | rfl | rfl
  all_goals exact onPhases_runs _ _ hr

/-- Before the join the sequencer waits (41_executor.md R128). -/
theorem runPhase_waits {s : State} {q : Nat} {u : Inst} (g : Inst → Inst) (hp : u.phase = .run) (hj : u.joined = false) :
    runPhase s q u g = .next s := by
  simp [runPhase, hp, hj]

/-- At the join the sequencer copies the outputs (41_executor.md R129). -/
theorem runPhase_copies {s : State} {q : Nat} {u : Inst} {outs : List EncBit} (g : Inst → Inst) (hp : u.phase = .run)
    (hj : u.joined = true) (ho : u.outputs (s.image u.slot) = .ok outs) :
    runPhase s q u g = .next (s.setInst q (g { u with bits := outs })) := by
  simp [runPhase, hp, hj, ho]

/-- The DECOMPOSE of a composite command hands its bits to the start phase (43_sbox.md R172). -/
theorem runPhase_decompose {s : State} {q : Nat} {u : Inst} (g : Inst → Inst) (hp : u.phase = .decompose) :
    runPhase s q u g = .next (s.setInst q { u.copyHeader (s.image u.slot) with
      bits := decomposeAll s.call s.pv ((bytesOf u.args).getD []), phase := .start }) := by
  simp [runPhase, hp]

/-- The start phase (41_executor.md R122). -/
theorem runPhase_start {s : State} {q : Nat} {u : Inst} (g : Inst → Inst) (hp : u.phase = .start) :
    runPhase s q u g = .next (s.setInst q (u.startRun s.config.w)) := by
  simp [runPhase, hp]

/-- The RECOMPOSE of a composite command (43_sbox.md R172). -/
theorem runPhase_recompose {s : State} {q : Nat} {u : Inst} (g : Inst → Inst) (hp : u.phase = .recompose) :
    runPhase s q u g = .next (s.setInst q
      { u with result := (recomposeAll s.call s.pv u.bits).map .byte, phase := .status }) := by
  simp [runPhase, hp]

/-- `STATUS.CAUSE <- 0x00` (41_executor.md R120 phase 5). -/
theorem runPhase_status {s : State} {q : Nat} {u : Inst} (g : Inst → Inst) (hp : u.phase = .status) :
    runPhase s q u g = .next (s.setInst q { u with status := statusWord .ok 0, phase := .release }) := by
  simp [runPhase, hp]

/-- `BUSY <- 0`, and the result is returned (41_executor.md R120 phase 6). -/
theorem runPhase_release {s : State} {q : Nat} {u : Inst} (g : Inst → Inst) (hp : u.phase = .release) :
    runPhase s q u g = .next (giveBack s q u u.cmd u.result) := by
  simp [runPhase, hp]

/-- The sequencer that runs a command runs it on, whatever it wrote to its executor but `BUSY`. -/
theorem State.Runs.setInst {s : State} {q : Nat} {u v : Inst} (h : s.Runs q u) (hb : v.busy = true) :
    (s.setInst q v).Runs q v := by
  obtain ⟨ha, hu, -⟩ := h
  exact ⟨ha, insts_set_self hu, hb⟩

theorem joined_iff {u : Inst} : u.joined = true ↔ ∀ w ∈ u.workers, w = .exited := by
  simp [Inst.joined]

/-- There is at least one worker (00_scope.md R7). -/
theorem State.Inv.one_le_workers {s : State} (h : s.Inv) : 1 ≤ s.config.w := by
  obtain ⟨-, -, hw, -⟩ := bounds_iff.mp h.config.bounds
  exact hw

/-- At the join the output copy succeeds: every selector names a wire of the program (41_executor.md R129). -/
theorem State.Inv.outputs_of_joined {s : State} (h : s.Inv) {q : Nat} {u : Inst} (hu : s.insts[q]? = some u)
    (hr : u.running = true) (hj : u.joined = true) : ∃ outs, u.outputs (s.image u.slot) = .ok outs := by
  obtain ⟨-, hfacts, ⟨hnIn, hn, hnOut⟩, -, hrun⟩ := h.of_running hu hr
  refine selectOutputs_of_present fun o ho => ?_
  obtain ⟨j, hjlt, rfl⟩ := List.mem_map.mp ho
  have hsel := hfacts.selector j (hnOut ▸ List.mem_range.mp hjlt)
  exact (joined_present hrun hj h.one_le_workers _).mpr (by rw [hnIn, hn]; exact hsel)

/-- The output bits, one for each selector, are the values of the selected wires (41_executor.md R129). -/
theorem outputs_ok {u : Inst} {img : List Word} {outs : List EncBit} (h : u.outputs img = .ok outs) :
    outs.length = u.nOut ∧ ∀ j, j < u.nOut → cellGet u.wires (imageSelector img u.n j) = outs[j]? := by
  have hmap := selectOutputs_ok h
  have hlen : outs.length = u.nOut := by simpa using (congrArg List.length hmap).symm
  refine ⟨hlen, fun j hj => ?_⟩
  have hget := congrArg (·[j]?) hmap
  simpa [hj, hlen] using hget

/-- When the wires hold reference values, the output copy takes the reference outputs (41_executor.md R131). -/
theorem outputs_ref {u : Inst} {img : List Word} {d : Bool} {outs : List EncBit} (h : u.outputs img = .ok outs)
    (hhead : u.headerOk img) (hv : u.ValuesOk img d) : sameBits d outs (refBits img u.bits) := by
  obtain ⟨-, hn, hnOut⟩ := hhead
  obtain ⟨hlen, hget⟩ := outputs_ok h
  refine sameBits_iff.mpr (List.forall₂_iff_get.mpr ⟨by simp [hlen, hnOut, refBits, refOutputs], fun j hj hj' => ?_⟩)
  have hwire := hget j (hlen ▸ hj)
  rw [List.getElem?_eq_getElem hj, hn] at hwire
  obtain ⟨r, href, hsame⟩ := hv _ _ hwire
  simpa [refBits, refOutputs, href] using hsame

/-- At the join of an executor with reference values the output copy takes the reference outputs (41_executor.md R131). -/
theorem State.Inv.outputs_ref_of_joined {s : State} (h : s.Inv) (hv : s.Values) {q : Nat} {u : Inst} (hu : s.insts[q]? = some u)
    (hr : u.running = true) (hj : u.joined = true) :
    ∃ outs, u.outputs (s.image u.slot) = .ok outs ∧
      sameBits s.config.deterministic outs (refBits (s.image u.slot) u.bits) := by
  obtain ⟨-, -, hhead, -⟩ := h.of_running hu hr
  obtain ⟨outs, ho⟩ := h.outputs_of_joined hu hr hj
  exact ⟨outs, ho, outputs_ref ho hhead (hv q u hu hr)⟩

/-- Settles O16: before the join the run phase waits; at the join the invariant counts the claims and the wires. -/
theorem joinHasEveryWire : Obligations.JoinHasEveryWire := by
  unfold Obligations.JoinHasEveryWire
  intro s q u hs hu hb hp
  obtain ⟨-, -, -, -, hrun⟩ := hs.of_running hu (running_iff.mpr ⟨hb, hp⟩)
  refine ⟨fun ⟨w, hw, hne⟩ i ha hi => ?_, fun hall => ?_⟩
  · have hphased : isPhased i := hi.imp_left fun h => ⟨u.slot, h⟩
    have hj : u.joined = false := by
      rw [← Bool.not_eq_true, joined_iff]
      exact fun hall => hne (hall w hw)
    rw [exec_of_runs ⟨ha, hu, hb⟩ hphased, runPhase_waits _ hp hj]
  · have hj := joined_iff.mpr hall
    exact ⟨joined_next hrun hj hs.one_le_workers, joined_present hrun hj hs.one_le_workers⟩

/-- Settles O17: the run phase copies the outputs, then come the status phase and the release. -/
theorem execCompletes : Obligations.ExecCompletes := by
  unfold Obligations.ExecCompletes
  intro s q u hs hruns hp hall
  have ⟨_, hu, hb⟩ := hruns
  have hj := joined_iff.mpr hall
  have hexec : isPhased (.exec u.slot) := .inl ⟨_, rfl⟩
  obtain ⟨outs, ho⟩ := hs.outputs_of_joined hu (running_iff.mpr ⟨hb, hp⟩) hj
  obtain ⟨hlen, hget⟩ := outputs_ok ho
  refine ⟨s.setInst q { u with bits := outs, result := outs.map .bit, phase := .status },
    s.setInst q { u with bits := outs, result := outs.map .bit, phase := .release, status := 0 },
    outs, hlen, hget, ?_, ?_, rfl, rfl, ?_⟩
  · exact (exec_of_runs hruns hexec).trans (runPhase_copies _ hp hj ho)
  · rw [exec_of_runs (hruns.setInst (by exact hb)) hexec, runPhase_status _ rfl, setInst_setInst]
    rfl
  · rw [exec_of_runs (hruns.setInst (by exact hb)) hexec, runPhase_release _ rfl]
    simp [giveBack, State.returned, State.setInst]

/-- Settles O49: each executor's outputs are the reference outputs of its inputs, and these depend on the inputs alone. -/
theorem outputsDoNotDependOnTheSchedule : Obligations.OutputsDoNotDependOnTheSchedule := by
  unfold Obligations.OutputsDoNotDependOnTheSchedule
  rintro s1 s2 q1 q2 u1 u2 img hs1 hs2 hv1 hv2 hu1 hu2 hr1 hr2 hj1 hj2 rfl himg
  obtain ⟨-, hfacts, ⟨hnIn, -⟩, hbits, -⟩ := hs1.of_running hu1 hr1
  obtain ⟨outs1, ho1, href1⟩ := hs1.outputs_ref_of_joined hv1 hu1 hr1 hj1
  obtain ⟨outs2, ho2, href2⟩ := hs2.outputs_ref_of_joined hv2 hu2 hr2 hj2
  rw [himg] at ho2 href2
  refine ⟨outs1, outs2, ho1, ho2, href1, href2, fun hdec => ?_, fun heq hd1 hd2 => ?_⟩
  · have hsame : sameBits false u1.bits u2.bits := ⟨hdec, nofun⟩
    calc outs1.map Config.engine.decb
        = (refBits (s1.image u1.slot) u1.bits).map Config.engine.decb := href1.1
      _ = (refBits (s1.image u1.slot) u2.bits).map Config.engine.decb := (refBits_same hfacts hsame (hbits.trans hnIn)).1
      _ = outs2.map Config.engine.decb := href2.1.symm
  · rw [href1.2 hd1, href2.2 hd2, heq]

end Sys2Proof.Machine
end

section
/-! SUPPORT. What a step does to a busy executor, and to the results returned to the host (41_executor.md R120, R143, 60_exceptions.md
R206). -/

namespace Sys2Proof.Machine

/-- The step of worker `w`: it claims, or it writes the wire of its gate (41_executor.md R123, R126). -/
inductive WorkerChange (u : Inst) (w : Nat) : Inst → Prop where
  | claim (hw : u.workers[w]? = some .idle) : WorkerChange u w (u.claim w)
  | evaluate {k : Nat} (v : EncBit) (hw : u.workers[w]? = some (.claimed k)) : WorkerChange u w (u.evaluate w k v)

/-- The results returned by the step from `s` to `t` are none of executor `q`. -/
def Silent (s t : State) (q : Nat) : Prop := ∃ more, t.replies = s.replies ++ more ∧ ∀ r ∈ more, r.executor ≠ q

theorem Silent.of_eq {s t : State} {q : Nat} (h : t.replies = s.replies) : Silent s t q :=
  ⟨[], by simp [h], nofun⟩

/-- A result of another executor is none of executor `q`. -/
theorem Silent.of_other {s t : State} {p q : Nat} {w : Word} {r : Payload} (hpq : p ≠ q)
    (h : t.replies = s.replies ++ [⟨p, w, r⟩]) : Silent s t q :=
  ⟨_, h, by simpa using hpq⟩

/-- What a step from `s` to `t` is to the busy executor `q`, whose record is `u`. -/
inductive BusyChange (s : State) (q : Nat) (u : Inst) (t : State) : Prop where
  /-- Another agent's step, which writes the port at most. -/
  | elsewhere (port : List Command) (hu' : t.insts[q]? = some { u with port := port }) (hsilent : Silent s t q)
  /-- A worker's step. -/
  | worker {w : Nat} {u' : Inst} (hr : u.running = true) (hw : WorkerChange u w u') (ht : t = s.setInst q u')
  /-- The sequencer's next phase of its command. -/
  | phase {i : Instr} (hr : s.Runs q u) (hd : decodeCommand u.cmd = .instr i) (ht : runPhase s q u (afterCopyOf i) = .next t)

/-- A step that leaves the executors and the results as they are. -/
theorem BusyChange.of_same {s : State} {q : Nat} {u : Inst} (hu : s.insts[q]? = some u) : BusyChange s q u s :=
  .elsewhere u.port hu (.of_eq rfl)

/-- A write to another executor. -/
theorem BusyChange.of_set_other {s t : State} {p q : Nat} {u x : Inst} (hu : s.insts[q]? = some u) (hpq : p ≠ q)
    (ht : t.insts = s.insts.set p x) (hsilent : Silent s t q) : BusyChange s q u t :=
  .elsewhere u.port (by rw [ht, List.getElem?_set_ne hpq, hu]) hsilent

/-- An executor that accepts a command is not busy. -/
theorem accepts_ne {s : State} {p q : Nat} {u v : Inst} {c : Command} (ha : s.Accepts p v c) (hu : s.insts[q]? = some u)
    (hb : u.busy = true) : p ≠ q := by
  rintro rfl
  obtain ⟨-, hv, hidle⟩ := ha
  obtain rfl := Option.some.inj (hu.symm.trans hv)
  exact absurd (hb.symm.trans hidle) nofun

/-- A phase returns no result, or one of its own executor. -/
theorem runPhase_replies {s t : State} {p : Nat} {v : Inst} {g : Inst → Inst} (h : runPhase s p v g = .next t) :
    t.replies = s.replies ∨ t.replies = s.replies ++ [⟨p, v.cmd, v.result⟩] := by
  rcases runPhase_next h with ⟨-, rfl⟩ | ⟨-, rfl⟩ | ⟨-, -, outs, -, rfl⟩ | ⟨-, -, rfl⟩ | ⟨-, rfl⟩ | ⟨-, rfl⟩ | ⟨-, rfl⟩
  case inr.inr.inr.inr.inr.inr => exact .inr rfl
  all_goals exact .inl rfl

/-- A phase of another executor's command writes that executor. -/
theorem BusyChange.of_phase_other {s t : State} {p q : Nat} {u v : Inst} {g : Inst → Inst} (hu : s.insts[q]? = some u)
    (hpq : p ≠ q) (h : runPhase s p v g = .next t) : BusyChange s q u t := by
  refine .elsewhere u.port ((runPhase_other h hpq).trans hu) ?_
  rcases runPhase_replies h with heq | heq
  · exact .of_eq heq
  · exact .of_other hpq heq

/-- A worker's step is one of executor `q`, or a write to another. -/
theorem BusyChange.of_worker {s : State} {p q w : Nat} {u v v' : Inst} (hu : s.insts[q]? = some u) (hv : s.insts[p]? = some v)
    (hr : v.running = true) (hw : WorkerChange v w v') : BusyChange s q u (s.setInst p v') := by
  by_cases hpq : p = q
  · subst hpq
    obtain rfl := Option.some.inj (hu.symm.trans hv)
    exact .worker hr hw rfl
  · exact .of_set_other hu hpq rfl (.of_eq rfl)

/-- What an instruction is to a busy executor, if a sequencer that runs a command runs the one it decodes to. -/
theorem execEffect_busy {s t : State} {i : Instr} {q : Nat} {u : Inst} (h : ExecEffect i s t) (hu : s.insts[q]? = some u)
    (hb : u.busy = true) (hd : ∀ p v, s.Runs p v → decodeCommand v.cmd = .instr i) : BusyChange s q u t := by
  cases h with
  | poll | wait => exact .of_same hu
  | evaluate he =>
    obtain ⟨-, hv, hr, hw⟩ := he
    exact .of_worker hu hv hr (.evaluate _ hw)
  | raised ha | admitted ha | begun ha => exact .of_set_other hu (accepts_ne ha hu hb) rfl (.of_eq rfl)
  | table ha | codec ha | register ha | store ha =>
    have hpq := accepts_ne ha hu hb
    exact .of_set_other hu hpq rfl (.of_other hpq rfl)
  | @phase p v t hr _ ht =>
    by_cases hpq : p = q
    · subst hpq
      have ⟨_, hv, _⟩ := hr
      obtain rfl := Option.some.inj (hu.symm.trans hv)
      exact .phase hr (hd _ _ hr) ht
    · exact .of_phase_other hu hpq ht

/-- What a step is to a busy executor. -/
theorem stepEffect_busy {s t : State} {q : Nat} {u : Inst} (hs : s.Inv) (h : StepEffect s t) (hu : s.insts[q]? = some u)
    (hb : u.busy = true) : BusyChange s q u t := by
  cases h with
  | quiet => exact .of_same hu
  | @issue p v c _ hv =>
    by_cases hpq : p = q
    · subst hpq
      obtain rfl := Option.some.inj (hu.symm.trans hv)
      exact .elsewhere _ (insts_set_self hu) (.of_eq rfl)
    · exact .of_set_other hu hpq rfl (.of_eq rfl)
  | restart _ hi =>
    have hidle := List.all_eq_true.mp hi u (List.mem_of_getElem? hu)
    simp [hb] at hidle
  | claim _ hv hr hw => exact .of_worker hu hv hr (.claim hw)
  | @refuse p v w r _ hv hw hd =>
    have hpq : p ≠ q := by
      rintro rfl
      obtain rfl := Option.some.inj (hu.symm.trans hv)
      exact absurd (hb.symm.trans (hs.idle_of_refused hv hw hd)) nofun
    exact .of_set_other hu hpq rfl (.of_eq rfl)
  | command hact hv hw hd ht =>
    refine execEffect_busy ht hu hb fun p x ⟨hact', hx, hbx⟩ => ?_
    obtain rfl := Move.seq.inj (hact.symm.trans hact')
    obtain rfl := Option.some.inj (hv.symm.trans hx)
    obtain rfl := Option.some.inj ((commandWord?_of_busy hbx).symm.trans hw)
    exact hd
  | gate he _ ht =>
    obtain ⟨hworker, -⟩ := he
    exact execEffect_busy ht hu hb fun p x ⟨hseq, _⟩ => absurd (hworker.symm.trans hseq) nofun

/-- No instruction takes back a result. -/
theorem execEffect_replies {s t : State} {i : Instr} (h : ExecEffect i s t) : ∃ more, t.replies = s.replies ++ more := by
  cases h with
  | poll | evaluate | wait | raised | admitted | begun => exact ⟨[], (List.append_nil _).symm⟩
  | table | codec | register | store => exact ⟨_, rfl⟩
  | phase _ _ ht =>
    rcases runPhase_replies ht with heq | heq
    · exact ⟨[], by simp [heq]⟩
    · exact ⟨_, heq⟩

/-- No step takes back a result returned to the host. -/
theorem step_replies {s t : State} (h : step s = .next t) : ∃ more, t.replies = s.replies ++ more := by
  obtain ⟨t', hx, rfl⟩ := step_effect h
  rw [advance_replies]
  cases hx with
  | quiet | issue | restart | claim | refuse => exact ⟨[], (List.append_nil _).symm⟩
  | command _ _ _ _ ht | gate _ _ ht => exact execEffect_replies ht

/-- A run that answers a next state took its first move and went on. -/
theorem after_cons_next {s t : State} {m : Move} {moves : List Move} (h : s.after (m :: moves) = .next t) :
    ∃ s', step { s with plan := [m] } = .next s' ∧ s'.after moves = .next t := by
  rw [State.after] at h
  split at h
  · exact ⟨_, ‹_›, h⟩
  · cases h
  · cases h

/-- No run takes back a result returned to the host. -/
theorem after_replies {s t : State} {moves : List Move} (h : s.after moves = .next t) :
    ∃ more, t.replies = s.replies ++ more := by
  induction moves generalizing s with
  | nil =>
    cases h
    exact ⟨[], (List.append_nil _).symm⟩
  | cons m moves ih =>
    obtain ⟨s', hstep, hrest⟩ := after_cons_next h
    obtain ⟨more, hmore⟩ := step_replies hstep
    obtain ⟨more', hmore'⟩ := ih hrest
    exact ⟨more ++ more', by simp [hmore', hmore]⟩

/-- Results of other executors do not come first for executor `q`. -/
theorem firstReply_of_silent {s s' t : State} {q : Nat} (h : Silent s s' q) (ht : ∃ more, t.replies = s'.replies ++ more) :
    t.firstReply s.replies.length q = t.firstReply s'.replies.length q := by
  obtain ⟨more, hs', hmore⟩ := h
  obtain ⟨rest, ht⟩ := ht
  have hnone : more.find? (fun r => r.executor == q) = none := by simpa using hmore
  simp [State.firstReply, ht, hs', hnone]

/-- THE FIRST RESULT OF AN EXECUTOR, the induction over a run: if every step keeps `P` and returns no result for executor `q`, or returns
one that `A` holds of, then after any moves `P` still holds and no result has come, or `A` holds of the first that came. -/
theorem after_firstReply {P : State → Prop} {A : Reply → Prop} {q : Nat} (hplan : ∀ s m, P s → P { s with plan := [m] })
    (hstep : ∀ s t, P s → step s = .next t →
      (P t ∧ Silent s t q) ∨ ∃ r, t.replies = s.replies ++ [r] ∧ r.executor = q ∧ A r)
    {moves : List Move} {s t : State} (hP : P s) (h : s.after moves = .next t) :
    (t.firstReply s.replies.length q = none ∧ P t) ∨ ∃ r, t.firstReply s.replies.length q = some r ∧ A r := by
  induction moves generalizing s with
  | nil =>
    cases h
    exact .inl ⟨by simp [State.firstReply], hP⟩
  | cons m moves ih =>
    obtain ⟨s', hs', hrest⟩ := after_cons_next h
    rcases hstep _ _ (hplan s m hP) hs' with ⟨hP', hsilent⟩ | ⟨r, hr, hq, hA⟩
    · have hfirst : t.firstReply s.replies.length q = t.firstReply s'.replies.length q :=
        firstReply_of_silent hsilent (after_replies hrest)
      rw [hfirst]
      exact ih hP' hrest
    · obtain ⟨more, hmore⟩ := after_replies hrest
      exact .inr ⟨r, by simp [State.firstReply, hmore, hr, hq], hA⟩

end Sys2Proof.Machine
end

section
/-! EXEC answers the outputs of `Ref(prog, in)` (41_executor.md R121, R131): each phase of the command keeps what its executor holds. -/

namespace Sys2Proof.Machine

/-- What EXEC of slot `sel` on the bits `ins` has come to, by its phase (41_executor.md R120). -/
def Inst.ExecPhase (u : Inst) (img : List Word) (d : Bool) (ins : List EncBit) : Prop :=
  match u.phase with
  | .start | .run => u.bits = ins
  | .status | .release => ∃ outs, u.result = outs.map .bit ∧ sameBits d outs (refBits img ins)
  | .decompose | .recompose => False

theorem execUnderWay_iff {s : State} {q sel : Nat} {ins : List EncBit} : s.ExecUnderWay q sel ins ↔
    ∃ u, s.insts[q]? = some u ∧ u.busy = true ∧ decodeCommand u.cmd = .instr (.exec sel) ∧ u.slot = sel ∧
      u.ExecPhase (s.image sel) s.config.deterministic ins := Iff.rfl

/-- The result is the outputs of `Ref(prog, in)` (41_executor.md R131). -/
def Reply.IsReference (r : Reply) (img : List Word) (d : Bool) (ins : List EncBit) : Prop :=
  ∃ outs, r.result = outs.map .bit ∧ sameBits d outs (refBits img ins)

/-- What every step keeps until EXEC of slot `sel` on the bits `ins` answers: it is under way, on the same image. -/
structure ExecRun (q sel : Nat) (img : List Word) (d : Bool) (ins : List EncBit) (s : State) : Prop where
  inv : s.Inv
  values : s.Values
  image : s.image sel = img
  deterministic : s.config.deterministic = d
  underWay : s.ExecUnderWay q sel ins

/-- Each phase of EXEC goes on to the next, and the last returns the reference outputs (41_executor.md R120). -/
theorem runPhase_exec {s t : State} (hs : s.Inv) (hv : s.Values) {q : Nat} {u : Inst} {ins : List EncBit} (hr : s.Runs q u)
    (hp : u.ExecPhase (s.image u.slot) s.config.deterministic ins) (ht : runPhase s q u Inst.bitsAreResult = .next t) :
    (∃ u', t = s.setInst q u' ∧ u'.busy = true ∧ u'.cmd = u.cmd ∧ u'.slot = u.slot ∧
      u'.ExecPhase (s.image u.slot) s.config.deterministic ins) ∨
    ∃ r : Reply, t.replies = s.replies ++ [r] ∧ r.executor = q ∧
      r.IsReference (s.image u.slot) s.config.deterministic ins := by
  obtain ⟨-, hu, hb⟩ := hr
  have hhere := hp
  unfold Inst.ExecPhase at hp
  rcases runPhase_next ht with
    ⟨hph, -⟩ | ⟨hph, rfl⟩ | ⟨hph, hj, outs, ho, rfl⟩ | ⟨hph, -, rfl⟩ | ⟨hph, -⟩ | ⟨hph, rfl⟩ | ⟨hph, rfl⟩
  all_goals rw [hph] at hp
  · exact hp.elim
  · exact .inl ⟨_, rfl, hb, rfl, rfl, hp⟩
  · obtain ⟨outs', ho', href⟩ := hs.outputs_ref_of_joined hv hu (running_iff.mpr ⟨hb, hph⟩) hj
    obtain rfl : outs = outs' := Except.ok.inj (ho.symm.trans ho')
    exact .inl ⟨_, rfl, hb, rfl, rfl, outs, rfl, hp ▸ href⟩
  · exact .inl ⟨u, by rw [State.setInst, insts_set_same hu], hb, rfl, rfl, hhere⟩
  · exact hp.elim
  · exact .inl ⟨_, rfl, hb, rfl, rfl, hp⟩
  · exact .inr ⟨_, rfl, rfl, hp⟩

/-- A step keeps EXEC under way and returns no result for its executor, or returns the reference outputs. -/
theorem ExecRun.stepEffect {s t : State} {q sel : Nat} {img : List Word} {d : Bool} {ins : List EncBit}
    (h : ExecRun q sel img d ins s) (hx : StepEffect s t) :
    (ExecRun q sel img d ins t ∧ Silent s t q) ∨
    ∃ r : Reply, t.replies = s.replies ++ [r] ∧ r.executor = q ∧ r.IsReference img d ins := by
  obtain ⟨hs, hv, rfl, rfl, hway⟩ := h
  obtain ⟨u, hu, hb, hd, rfl, hp⟩ := execUnderWay_iff.mp hway
  have himg := stepEffect_image hx (List.mem_of_getElem? hu) hb
  have hconfig := (stepEffect_table hx).1
  have hgoesOn : ∀ u', t.insts[q]? = some u' → u'.busy = true → u'.cmd = u.cmd → u'.slot = u.slot →
      u'.ExecPhase (s.image u.slot) s.config.deterministic ins →
      ExecRun q u.slot (s.image u.slot) s.config.deterministic ins t := by
    intro u' hu' hb' hcmd hslot hp'
    refine ⟨hs.stepEffect hx, hv.stepEffect hs hx, himg, by rw [hconfig], ?_⟩
    refine execUnderWay_iff.mpr ⟨u', hu', hb', hcmd ▸ hd, hslot, ?_⟩
    rwa [himg, hconfig]
  cases stepEffect_busy hs hx hu hb with
  | elsewhere port hu' hsilent => exact .inl ⟨hgoesOn _ hu' hb rfl rfl hp, hsilent⟩
  | worker _ hw ht =>
    subst ht
    cases hw with
    | claim | evaluate => exact .inl ⟨hgoesOn _ (insts_set_self hu) hb rfl rfl hp, .of_eq rfl⟩
  | phase hr hd' ht =>
    obtain rfl := Decoded.instr.inj (hd.symm.trans hd')
    rcases runPhase_exec hs hv hr hp ht with ⟨u', rfl, hb', hcmd, hslot, hp'⟩ | hanswer
    · exact .inl ⟨hgoesOn u' (insts_set_self hu) hb' hcmd hslot hp', .of_eq rfl⟩
    · exact .inr hanswer

/-- Passing the move on or choosing it changes nothing an EXEC under way reads. -/
theorem ExecRun.congr {s t : State} {q sel : Nat} {img : List Word} {d : Bool} {ins : List EncBit} (h : ExecRun q sel img d ins s)
    (hc : t.config = s.config) (hi : t.insts = s.insts) (hs : t.slots = s.slots) (hv : t.slotValid = s.slotValid) :
    ExecRun q sel img d ins t := by
  obtain ⟨hinv, hvalues, himg, hdet, hway⟩ := h
  refine ⟨hinv.congr hc hi hs hv, hvalues.congr hc hi fun _ _ _ => image_congr hc hs _, (image_congr hc hs _).trans himg,
    hc ▸ hdet, ?_⟩
  rw [execUnderWay_iff, hi, hc, image_congr hc hs]
  exact hway

/-- Settles O53: the induction over the run, where every step keeps EXEC under way or returns the reference outputs. -/
theorem execAnswersTheReference : Obligations.ExecAnswersTheReference := by
  unfold Obligations.ExecAnswersTheReference
  intro s t q sel ins moves hs hv hway h
  have hrun : ExecRun q sel (s.image sel) s.config.deterministic ins s := ⟨hs, hv, rfl, rfl, hway⟩
  have hstep : ∀ x y, ExecRun q sel (s.image sel) s.config.deterministic ins x → step x = .next y →
      (ExecRun q sel (s.image sel) s.config.deterministic ins y ∧ Silent x y q) ∨
      ∃ r : Reply, y.replies = x.replies ++ [r] ∧ r.executor = q ∧
        r.IsReference (s.image sel) s.config.deterministic ins := by
    intro x y hx hxy
    obtain ⟨y', heffect, rfl⟩ := step_effect hxy
    exact (hx.stepEffect heffect).imp_left fun ⟨hy, hsilent⟩ => ⟨hy.congr rfl rfl rfl rfl, hsilent⟩
  rcases after_firstReply (fun x m hx => hx.congr rfl rfl rfl rfl) hstep hrun h with ⟨hnone, hkept⟩ | ⟨r, hr, outs, hanswer⟩
  · exact .inl ⟨hnone, hkept.underWay, hkept.image⟩
  · exact .inr ⟨r, outs, hr, hanswer⟩

end Sys2Proof.Machine
end

section
/-! A worker's move (41_executor.md R123 to R127): what it does when its step is enabled and when it is not, and that before the join
some worker's step is. -/

namespace Sys2Proof.Machine

/-- An idle worker of a running executor claims (41_executor.md R123). -/
theorem fetch_of_idle {s : State} {q w : Nat} {u : Inst} (ha : s.acting = .worker q w) (hu : s.insts[q]? = some u)
    (hr : u.running = true) (hw : u.workers[w]? = some .idle) : fetch s = .control (s.setInst q (u.claim w)) := by
  simp [fetch, fetchWorker, ha, hu, hr, hw]

/-- A worker takes no step outside the worker phase, nor when it has exited, nor when it does not exist. -/
theorem fetch_of_resting {s : State} {q w : Nat} {u : Inst} (ha : s.acting = .worker q w) (hu : s.insts[q]? = some u)
    (h : u.running = false ∨ u.workers[w]? = none ∨ u.workers[w]? = some .exited) : fetch s = .control s := by
  rcases h with h | h | h <;> simp [fetch, fetchWorker, ha, hu, h]

/-- The gate a worker has claimed decodes to a gate instruction, and its wire is one of the wire file (41_executor.md R126,
10_state.md R21). -/
theorem State.Inv.claimed_gate {s : State} (h : s.Inv) {q w k : Nat} {u : Inst} (hu : s.insts[q]? = some u)
    (hr : u.running = true) (hw : u.workers[w]? = some (.claimed k)) :
    (∃ i, decodeGate (imageGate (s.image u.slot) k) = .instr i ∧ i.isGate = true) ∧ u.nIn + k < maxWires := by
  obtain ⟨-, hfacts, ⟨hnIn, hn, -⟩, -, hrun⟩ := h.of_running hu hr
  have hk : k < imageN (s.image u.slot) := hn ▸ (hrun.claimed w k hw).1
  have hdec : ∃ i, decodeGate (imageGate (s.image u.slot) k) = .instr i := by
    rcases decodeGate_checked hfacts hk with ⟨a, b, hd, -⟩ | ⟨a, b, hd, -⟩ | ⟨a, hd, -⟩
    all_goals exact ⟨_, hd⟩
  obtain ⟨i, hi⟩ := hdec
  have hsize := hfacts.size
  exact ⟨⟨i, hi, (encode_of_decodeGate hi).2.1⟩, by omega⟩

/-- A gate has its value exactly when its hold has lifted (41_executor.md R125). -/
theorem isSome_gateValue (s : State) (u : Inst) {w : Word} {i : Instr} (hd : decodeGate w = .instr i) :
    (gateValue s i u).isSome = u.holdLifted w := by
  have hbinary : ∀ f : EncBit → EncBit → EncBit, (binaryGate f (gateS1 w) (gateS2 w) u).isSome =
      (u.present (gateS1 w) && u.present (gateS2 w)) := by
    intro f
    unfold binaryGate Inst.present
    cases cellGet u.wires (gateS1 w) <;> cases cellGet u.wires (gateS2 w) <;> rfl
  have hunary : ∀ f : EncBit → EncBit, (unaryGate f (gateS1 w) u).isSome = u.present (gateS1 w) := by
    intro f
    unfold unaryGate Inst.present
    cases cellGet u.wires (gateS1 w) <;> rfl
  rcases gateOp_cases w with hop | hop | hop | hop
  · obtain rfl := Decoded.instr.inj ((decodeGate_op_zero hop).symm.trans hd)
    simp [gateValue, hbinary, Inst.holdLifted, hop]
  · obtain rfl := Decoded.instr.inj ((decodeGate_op_one hop).symm.trans hd)
    simp [gateValue, hbinary, Inst.holdLifted, hop]
  · rw [decodeGate_op_two hop] at hd
    split at hd
    · cases hd
      simp [gateValue, hunary, Inst.holdLifted, hop]
    · cases hd
  · exact nomatch (decodeGate_op_three hop).symm.trans hd

/-- The move of a worker whose step is enabled is its step. -/
theorem State.Inv.step_of_enabled {s : State} (h : s.Inv) {q w : Nat} {u : Inst} (ha : s.acting = .worker q w)
    (hu : s.insts[q]? = some u) (he : s.workerEnabled q w = true) :
    ∃ u', step s = .next (s.setInst q u').advance ∧ WorkerChange u w u' := by
  obtain ⟨hr, hw | ⟨k, hw, hlift⟩⟩ := (workerEnabled_iff hu w).mp he
  · exact ⟨_, step_of_control (fetch_of_idle ha hu hr hw), .claim hw⟩
  · obtain ⟨⟨i, hd, hi⟩, hk⟩ := h.claimed_gate hu hr hw
    obtain ⟨x, hx⟩ := Option.isSome_iff_exists.mp ((isSome_gateValue s u hd).trans hlift)
    have hev : s.Evaluates q w k u := ⟨ha, hu, hr, hw⟩
    refine ⟨_, ?_, .evaluate x hw⟩
    rw [step_of_instr (fetch_of_evaluates hev hd), exec_gate hi, onWorker_evaluates hev hx hk]
    rfl

/-- The move of a worker whose step is not enabled changes nothing (notes/assumptions/19.md). -/
theorem State.Inv.step_of_disabled {s : State} (h : s.Inv) {q w : Nat} {u : Inst} (ha : s.acting = .worker q w)
    (hu : s.insts[q]? = some u) (he : s.workerEnabled q w = false) : step s = .next s.advance := by
  have hno := mt (workerEnabled_iff hu w).mpr (by simp [he])
  by_cases hr : u.running = true
  · simp only [hr, true_and, not_or, not_exists, not_and] at hno
    obtain ⟨hidle, hheld⟩ := hno
    cases hw : u.workers[w]? with
    | none => exact step_of_control (fetch_of_resting ha hu (.inr (.inl hw)))
    | some x =>
      cases x with
      | idle => exact absurd hw hidle
      | exited => exact step_of_control (fetch_of_resting ha hu (.inr (.inr hw)))
      | claimed k =>
        obtain ⟨⟨i, hd, hi⟩, -⟩ := h.claimed_gate hu hr hw
        have hev : s.Evaluates q w k u := ⟨ha, hu, hr, hw⟩
        have hnone : gateValue s i u = none := by
          rw [← Option.not_isSome_iff_eq_none, isSome_gateValue s u hd]
          exact hheld k hw
        rw [step_of_instr (fetch_of_evaluates hev hd), exec_gate hi, onWorker_holds hev hnone]
        rfl
  · exact step_of_control (fetch_of_resting ha hu (.inl (by simpa using hr)))

/-- The lowest gate claimed has all its operands: each is an input or the wire of an earlier gate, and these are all evaluated
(41_executor.md R130). -/
theorem holdLifted_of_lowest {u : Inst} {img : List Word} {workers w k : Nat} (h : u.RunOk workers) (facts : ImageFacts img)
    (hhead : u.headerOk img) (hw : u.workers[w]? = some (.claimed k)) (hlow : ∀ j, j < k → u.free j) :
    u.holdLifted (imageGate img k) = true := by
  obtain ⟨hnIn, hn, -⟩ := hhead
  obtain ⟨hkn, hknext⟩ := h.claimed w k hw
  have hpresent : ∀ i, i < imageNIn img + k → u.present i = true := by
    intro i hi
    refine (h.present i).mpr ?_
    by_cases hin : i < u.nIn
    · exact .inl hin
    · exact .inr ⟨i - u.nIn, by omega, by omega, by omega, hlow _ (by omega)⟩
  obtain ⟨-, -, hs1, hs2⟩ := facts.gate k (hn ▸ hkn)
  simp only [Inst.holdLifted, Bool.and_eq_true, Bool.or_eq_true, beq_iff_eq]
  refine ⟨hpresent _ hs1, ?_⟩
  by_cases hop : gateOp (imageGate img k) = 2
  · exact .inl hop
  · exact .inr (hpresent _ (hs2 hop))

/-- Before the join some worker can move: an idle one, or the one with the lowest gate (41_executor.md R130). -/
theorem State.Inv.exists_enabled {s : State} (h : s.Inv) {q : Nat} {u : Inst} (hu : s.insts[q]? = some u)
    (hr : u.running = true) (hj : u.joined = false) : ∃ w, w < s.config.w ∧ s.workerEnabled q w = true := by
  obtain ⟨-, hfacts, hhead, -, hrun⟩ := h.of_running hu hr
  have hlt : ∀ {w x}, u.workers[w]? = some x → w < s.config.w := fun hx => hrun.count ▸ (List.getElem?_eq_some_iff.mp hx).1
  by_cases hidle : ∃ w : Nat, u.workers[w]? = some .idle
  · obtain ⟨w, hw⟩ := hidle
    exact ⟨w, hlt hw, (workerEnabled_iff hu w).mpr ⟨hr, .inl hw⟩⟩
  · have hclaimed : ∃ k, ∃ w : Nat, u.workers[w]? = some (.claimed k) := by
      rw [← Bool.not_eq_true, joined_iff] at hj
      push Not at hj
      obtain ⟨x, hx, hne⟩ := hj
      obtain ⟨w, hw⟩ := List.mem_iff_getElem?.mp hx
      cases x with
      | idle => exact absurd ⟨w, hw⟩ hidle
      | exited => exact absurd rfl hne
      | claimed k => exact ⟨k, w, hw⟩
    classical
    obtain ⟨w, hw⟩ := Nat.find_spec hclaimed
    have hlow : ∀ j, j < Nat.find hclaimed → u.free j := fun j hjlt x hx => Nat.find_min hclaimed hjlt ⟨x, hx⟩
    exact ⟨w, hlt hw, (workerEnabled_iff hu w).mpr ⟨hr, .inr ⟨_, hw, holdLifted_of_lowest hrun hfacts hhead hw hlow⟩⟩⟩

/-- A worker's step changes the state of that worker. -/
theorem WorkerChange.ne {u u' : Inst} {w : Nat} (h : WorkerChange u w u') : u' ≠ u := by
  intro heq
  have hworkers : u'.workers[w]? = u.workers[w]? := by rw [heq]
  cases h with
  | claim hw =>
    rw [claim_workers, List.getElem?_set_self (List.getElem?_eq_some_iff.mp hw).1, hw] at hworkers
    split at hworkers <;> cases hworkers
  | evaluate v hw =>
    rw [evaluate_workers, List.getElem?_set_self (List.getElem?_eq_some_iff.mp hw).1, hw] at hworkers
    cases hworkers

/-- Settles O50: before the join an idle worker or the one with the lowest gate can move; a move that is a step changes the worker's
own state. -/
theorem someWorkerCanMove : Obligations.SomeWorkerCanMove := by
  unfold Obligations.SomeWorkerCanMove
  intro s q u hs hu hr
  refine ⟨hs.exists_enabled hu hr, fun w => ?_⟩
  have hplan : ({ s with plan := [.worker q w] } : State).Inv := hs.congr rfl rfl rfl rfl
  refine ⟨fun he => ?_, fun he => hplan.step_of_disabled rfl hu he⟩
  obtain ⟨u', hstep, hchange⟩ := hplan.step_of_enabled (w := w) rfl hu he
  exact ⟨_, u', hstep, insts_set_self hu, hchange.ne⟩

/-- Settles O13: an idle worker fetches its claim. -/
theorem claimTakesTheNextIndex : Obligations.ClaimTakesTheNextIndex := by
  unfold Obligations.ClaimTakesTheNextIndex
  intro s q w u ha hu hb hp hw
  rw [step_of_control (fetch_of_idle ha hu (running_iff.mpr ⟨hb, hp⟩) hw)]
  have hindex : (if u.n ≤ u.next.toNat then Worker.exited else .claimed u.next.toNat) =
      if u.next.toNat < u.n then .claimed u.next.toNat else .exited := by
    simp only [← Nat.not_le, ite_not]
  simp only [State.advance, State.setInst, Inst.claim, hindex]

end Sys2Proof.Machine
end

section
/-! From every state of the invariant the step answers a next state (60_exceptions.md R202). -/

namespace Sys2Proof.Machine

/-- An accepted command is carried out or refused by cause (60_exceptions.md R202). -/
theorem exec_accepts_next {s : State} {q : Nat} {u : Inst} {c : Command} {i : Instr} (ha : s.Accepts q u c)
    (hi : i.isGate = false) : ∃ t, exec i s = .next t := by
  cases i with
  | xor | and | not => cases hi
  | loadPv | decompose | recompose | loadProg | readReg =>
    simp only [exec, execLoadPv, execDecompose, execRecompose, execLoadProg, execReadReg]
    exact ⟨_, onPort_accepts _ ha⟩
  | exec | sbox | invsbox | mixcol => exact ⟨_, onPhases_accepts _ _ ha⟩

/-- Every phase of a running command has its next state: the output copy reads present wires only (41_executor.md R129). -/
theorem State.Inv.runPhase_next {s : State} (h : s.Inv) {q : Nat} {u : Inst} (g : Inst → Inst) (hr : s.Runs q u) :
    ∃ t, Machine.runPhase s q u g = .next t := by
  obtain ⟨-, hu, hb⟩ := hr
  cases hp : u.phase with
  | run =>
    cases hj : u.joined with
    | false => exact ⟨s, runPhase_waits g hp hj⟩
    | true =>
      obtain ⟨outs, ho⟩ := h.outputs_of_joined hu (running_iff.mpr ⟨hb, hp⟩) hj
      exact ⟨_, runPhase_copies g hp hj ho⟩
  | decompose => exact ⟨_, runPhase_decompose g hp⟩
  | start => exact ⟨_, runPhase_start g hp⟩
  | recompose => exact ⟨_, runPhase_recompose g hp⟩
  | status => exact ⟨_, runPhase_status g hp⟩
  | release => exact ⟨_, runPhase_release g hp⟩

/-- A running command is one of the four that have phases (10_state.md R36). -/
theorem Inst.cmdOk.phased {u : Inst} (h : u.cmdOk) : ∃ i, decodeCommand u.cmd = .instr i ∧ isPhased i := by
  rcases h with hd | ⟨hd, -⟩ | ⟨hd, -⟩ | ⟨hd, -⟩
  · exact ⟨_, hd, .inl ⟨_, rfl⟩⟩
  · exact ⟨_, hd, .inr (.inl rfl)⟩
  · exact ⟨_, hd, .inr (.inr (.inl rfl))⟩
  · exact ⟨_, hd, .inr (.inr (.inr rfl))⟩

/-- The instruction a sequencer fetches has a next state. -/
theorem State.Inv.exec_fetched_next {s : State} (h : s.Inv) {q : Nat} {u : Inst} {w : Word} {i : Instr} (ha : s.acting = .seq q)
    (hu : s.insts[q]? = some u) (hw : u.commandWord? = some w) (hd : decodeCommand w = .instr i) : ∃ t, exec i s = .next t := by
  cases hb : u.busy with
  | true =>
    obtain rfl := Option.some.inj ((commandWord?_of_busy hb).symm.trans hw)
    obtain ⟨j, hj, hphased⟩ := (h.busy q u hu hb).cmd.phased
    obtain rfl := Decoded.instr.inj (hj.symm.trans hd)
    rw [exec_of_runs ⟨ha, hu, hb⟩ hphased]
    exact h.runPhase_next _ ⟨ha, hu, hb⟩
  | false =>
    cases hp : u.port with
    | nil => simp [Inst.commandWord?, hb, hp] at hw
    | cons c rest =>
      have haccepts : s.Accepts q { u with port := rest } c := ⟨ha, by rw [hu, ← hp], hb⟩
      exact exec_accepts_next haccepts (encode_of_decodeCommand hd).2.1

/-- No agent gets stuck: the step answers a next state (60_exceptions.md R202). -/
theorem State.Inv.step_next {s : State} (h : s.Inv) : ∃ t, step s = .next t := by
  cases ha : s.acting with
  | host m => exact ⟨_, step_of_control (t := hostStep s m) (by simp [fetch, ha])⟩
  | worker q w =>
    cases hu : s.insts[q]? with
    | none => exact ⟨_, step_of_control (t := s) (by simp [fetch, fetchWorker, ha, hu])⟩
    | some u =>
      cases he : s.workerEnabled q w with
      | true =>
        obtain ⟨u', hstep, -⟩ := h.step_of_enabled ha hu he
        exact ⟨_, hstep⟩
      | false => exact ⟨_, h.step_of_disabled ha hu he⟩
  | seq q =>
    cases hu : s.insts[q]? with
    | none => exact ⟨_, step_of_control (t := s) (by simp [fetch, fetchSequencer, ha, hu])⟩
    | some u =>
      cases hw : u.commandWord? with
      | none => exact ⟨_, step_of_control (t := s) (by simp [fetch, fetchSequencer, ha, hu, hw])⟩
      | some w =>
        cases hd : decodeCommand w with
        | refused r => exact ⟨_, step_of_control (fetch_of_refused ha hu hw hd)⟩
        | instr i =>
          obtain ⟨t, ht⟩ := h.exec_fetched_next ha hu hw hd
          exact ⟨t.advance, by rw [step_of_instr (fetch_of_commandWord ha hu hw hd), ht, passMove]⟩

end Sys2Proof.Machine
end

section
/-! How many worker steps the join is away, which every step of a worker makes fewer (41_executor.md R130). -/

namespace Sys2Proof.Machine

/-- How many gates have their wire still absent. -/
def Inst.absentGates (u : Inst) : Nat := ((Finset.range u.n).filter fun k => u.present (u.nIn + k) = false).card

/-- The worker steps up to the join: a claim for each value `NEXT` has still to take, a write for each absent wire. -/
def Inst.remaining (u : Inst) (workers : Nat) : Nat := (u.n + workers - u.next.toNat) + u.absentGates

/-- An EXEC is at most `2 · N + W` worker steps long. -/
theorem remaining_le (u : Inst) (workers : Nat) : u.remaining workers ≤ 2 * u.n + workers := by
  have hcard : u.absentGates ≤ u.n := (Finset.card_filter_le _ _).trans_eq (Finset.card_range _)
  unfold Inst.remaining
  omega

/-- No worker step remains at the join, where every wire is present. -/
theorem remaining_of_joined {u : Inst} {workers : Nat} (h : u.RunOk workers) (hj : u.joined = true) (hw : 1 ≤ workers) :
    u.remaining workers = 0 := by
  have hpresent : u.absentGates = 0 := by
    refine Finset.card_eq_zero.mpr (Finset.filter_eq_empty_iff.mpr fun k hk => ?_)
    rw [(joined_present h hj hw _).mpr (Nat.add_lt_add_left (Finset.mem_range.mp hk) _)]
    exact Bool.noConfusion
  rw [Inst.remaining, hpresent, joined_next h hj hw]
  omega

/-- When no worker step remains, `NEXT` is `N + W`, so every worker has exited (41_executor.md R128). -/
theorem joined_of_remaining {u : Inst} {workers : Nat} (h : u.RunOk workers) (hz : u.remaining workers = 0) :
    u.joined = true := by
  have hall : u.exitedCount = u.workers.length := by
    have hexited := h.exited
    have hle := runOk_next_le h
    rw [h.count]
    unfold Inst.remaining at hz
    omega
  exact joined_iff.mpr (by simpa using List.countP_eq_length.mp hall)

/-- An evaluate step makes one absent wire present and no present wire absent (41_executor.md R126, 10_state.md R23). -/
theorem absentGates_evaluate_lt {u : Inst} {workers w k : Nat} (v : EncBit) (h : u.RunOk workers)
    (hw : u.workers[w]? = some (.claimed k)) : (u.evaluate w k v).absentGates < u.absentGates := by
  have hpresent : ∀ i, (u.evaluate w k v).present i = (decide (i = u.nIn + k) || u.present i) := by
    intro i
    rw [Inst.present, evaluate_wires, cellGet_cellPut]
    by_cases hi : i = u.nIn + k <;> simp [hi, Inst.present]
  refine Finset.card_lt_card (Finset.ssubset_iff_of_subset (fun j hj => ?_) |>.mpr ⟨k, ?_, ?_⟩)
  · simp only [Finset.mem_filter, hpresent, Bool.or_eq_false_iff, evaluate_n, evaluate_nIn] at hj ⊢
    exact ⟨hj.1, hj.2.2⟩
  · simp [Inst.present, claimed_absent h hw, (h.claimed w k hw).1]
  · simp [hpresent]

/-- Every step of a worker brings the join nearer. -/
theorem WorkerChange.remaining_lt {u u' : Inst} {workers w : Nat} (h : WorkerChange u w u') (hrun : u.RunOk workers)
    (hn : u.n + workers < 2 ^ 32 - 1) : u'.remaining workers < u.remaining workers := by
  cases h with
  | claim hw =>
    have hnext := claim_next_toNat w hrun hn
    have hle := runOk_next_le (claim_runOk hrun hw hn)
    have habsent : (u.claim w).absentGates = u.absentGates := rfl
    rw [claim_n] at hle
    rw [Inst.remaining, Inst.remaining, habsent, claim_n]
    omega
  | evaluate v hw => exact Nat.add_lt_add_left (absentGates_evaluate_lt v hrun hw) _

/-- A running executor changes in its port, or by a step of a worker. -/
theorem RunningChange.port_or_worker {u u' : Inst} (h : RunningChange u u') :
    (∃ port, u' = { u with port := port }) ∨ ∃ w, WorkerChange u w u' := by
  cases h with
  | port p => exact .inl ⟨p, rfl⟩
  | claim hw => exact .inr ⟨_, .claim hw⟩
  | evaluate v hw => exact .inr ⟨_, .evaluate v hw⟩

end Sys2Proof.Machine
end

section
/-! An EXEC on its way to the join, move by move: until the join its sequencer waits, and every other agent's move leaves it running
(41_executor.md R127, R128). -/

namespace Sys2Proof.Machine

/-- Executor `q`, with the record `u`, is in the worker phase of an EXEC, in a state of the invariant with `workers` workers. -/
structure InRun (workers q : Nat) (s : State) (u : Inst) : Prop where
  inv : s.Inv
  count : s.config.w = workers
  inst : s.insts[q]? = some u
  running : u.running = true

theorem InRun.runOk {workers q : Nat} {s : State} {u : Inst} (h : InRun workers q s u) : u.RunOk workers := by
  obtain ⟨hs, rfl, hu, hr⟩ := h
  obtain ⟨-, -, -, -, hrun⟩ := hs.of_running hu hr
  exact hrun

/-- The join is when no worker step remains. -/
theorem InRun.joined_iff_remaining {workers q : Nat} {s : State} {u : Inst} (h : InRun workers q s u) :
    u.joined = true ↔ u.remaining workers = 0 :=
  ⟨fun hj => remaining_of_joined h.runOk hj (h.count ▸ h.inv.one_le_workers), joined_of_remaining h.runOk⟩

theorem InRun.remaining_lt {workers q w : Nat} {s : State} {u u' : Inst} (h : InRun workers q s u) (hw : WorkerChange u w u') :
    u'.remaining workers < u.remaining workers :=
  hw.remaining_lt h.runOk (h.count ▸ h.inv.next_bound h.inst h.running)

/-- Choosing the next move changes nothing of a run. -/
theorem InRun.plan {workers q : Nat} {s : State} {u : Inst} (h : InRun workers q s u) (moves : List Move) :
    InRun workers q { s with plan := moves } u :=
  ⟨h.inv.congr rfl rfl rfl rfl, h.count, h.inst, h.running⟩

/-- A step that leaves the executor running leaves it in a run. -/
theorem InRun.step {workers q : Nat} {s t : State} {u u' : Inst} (h : InRun workers q s u) (hst : Machine.step s = .next t)
    (hu' : t.insts[q]? = some u') (hr' : u'.running = true) : InRun workers q t u' ∧ RunningChange u u' := by
  obtain ⟨hs, rfl, hu, hr⟩ := h
  obtain ⟨t', hx, rfl⟩ := step_effect hst
  refine ⟨⟨stepKeepsTheInvariant _ _ hs hst, ?_, hu', hr'⟩, stepEffect_running hx hu hr hu' hr'⟩
  exact congrArg Params.w (stepEffect_table hx).1

/-- Before the join every move, and at the join every move but its sequencer's, leaves an executor running. -/
theorem InRun.move {workers q : Nat} {s : State} {u : Inst} (h : InRun workers q s u) {m : Move}
    (hm : m ≠ .seq q ∨ u.joined = false) :
    ∃ t u', Machine.step { s with plan := [m] } = .next t ∧ InRun workers q t u' ∧ RunningChange u u' := by
  have hplan := h.plan [m]
  obtain ⟨t, hst⟩ := hplan.inv.step_next
  obtain ⟨hb, hp⟩ := running_iff.mp h.running
  obtain ⟨t', hx, rfl⟩ := step_effect hst
  have hrunning : ∃ u', t'.insts[q]? = some u' ∧ u'.running = true := by
    cases stepEffect_busy hplan.inv hx hplan.inst hb with
    | elsewhere port hu' => exact ⟨_, hu', h.running⟩
    | worker _ hw ht =>
      subst ht
      cases hw with
      | claim | evaluate => exact ⟨_, insts_set_self hplan.inst, h.running⟩
    | phase hruns _ ht =>
      obtain ⟨hact, -⟩ := hruns
      have hj := hm.resolve_left (not_not.mpr hact)
      obtain rfl := Host.Outcome.next.inj ((runPhase_waits _ hp hj).symm.trans ht)
      exact ⟨u, hplan.inst, h.running⟩
  obtain ⟨u', hu', hr'⟩ := hrunning
  exact ⟨_, u', hst, hplan.step hst hu' hr'⟩

/-- The move of a worker whose step is enabled brings the join nearer. -/
theorem InRun.enabled_move {workers q w : Nat} {s : State} {u : Inst} (h : InRun workers q s u)
    (he : s.workerEnabled q w = true) :
    ∃ t u', Machine.step { s with plan := [.worker q w] } = .next t ∧ InRun workers q t u' ∧
      u'.remaining workers < u.remaining workers := by
  have hplan := h.plan [.worker q w]
  obtain ⟨u', hst, hw⟩ := hplan.inv.step_of_enabled (w := w) rfl hplan.inst he
  have hr' : u'.running = true := by
    cases hw with
    | claim | evaluate => exact h.running
  exact ⟨_, u', hst, (hplan.step hst (insts_set_self hplan.inst) hr').1, h.remaining_lt hw⟩

/-- While an executor changes in its port only, the steps enabled of its workers stay so. -/
theorem InRun.workerEnabled_of_port {workers q : Nat} {s t : State} {u : Inst} {port : List Command} {m : Move}
    (h : InRun workers q s u) (hst : Machine.step { s with plan := [m] } = .next t)
    (hu' : t.insts[q]? = some { u with port := port }) (w : Nat) : t.workerEnabled q w = s.workerEnabled q w := by
  have himg : t.image u.slot = s.image u.slot :=
    runningImageIsStable { s with plan := [m] } t q u hst h.inst (running_iff.mp h.running).1
  rw [Bool.eq_iff_iff, workerEnabled_iff hu', workerEnabled_iff h.inst]
  simp only [himg]
  rfl

theorem after_cons {s t : State} {m : Move} (moves : List Move) (h : Machine.step { s with plan := [m] } = .next t) :
    s.after (m :: moves) = t.after moves := by
  rw [State.after, h]

end Sys2Proof.Machine
end

section
/-! Rounds that give every worker a move reach the join (41_executor.md R130). -/

namespace Sys2Proof.Machine

/-- Moves of other agents than its sequencer leave an executor running, no further from the join. -/
theorem InRun.moves {workers q : Nat} {s : State} {u : Inst} {moves : List Move} (h : InRun workers q s u)
    (hseq : Move.seq q ∉ moves) :
    ∃ t u', s.after moves = .next t ∧ InRun workers q t u' ∧ u'.remaining workers ≤ u.remaining workers := by
  induction moves generalizing s u with
  | nil => exact ⟨s, u, rfl, h, Nat.le_refl _⟩
  | cons m moves ih =>
    obtain ⟨hm, hrest⟩ := List.ne_and_not_mem_of_not_mem_cons hseq
    obtain ⟨t, u', hst, hrun, hchange⟩ := h.move (.inl (Ne.symm hm))
    obtain ⟨t', u'', hafter, hrun', hle⟩ := ih hrun hrest
    have hstep : u'.remaining workers ≤ u.remaining workers := by
      rcases hchange.port_or_worker with ⟨port, rfl⟩ | ⟨w, hw⟩
      · exact Nat.le_refl _
      · exact (h.remaining_lt hw).le
    exact ⟨t', u'', (after_cons moves hst).trans hafter, hrun', hle.trans hstep⟩

/-- Moves that give an enabled worker one bring the join nearer. -/
theorem InRun.moves_lt {workers q w : Nat} {s : State} {u : Inst} {moves : List Move} (h : InRun workers q s u)
    (he : s.workerEnabled q w = true) (hw : Move.worker q w ∈ moves) (hseq : Move.seq q ∉ moves) :
    ∃ t u', s.after moves = .next t ∧ InRun workers q t u' ∧ u'.remaining workers < u.remaining workers := by
  induction moves generalizing s u with
  | nil => cases hw
  | cons m moves ih =>
    obtain ⟨hm, hrest⟩ := List.ne_and_not_mem_of_not_mem_cons hseq
    have hnearer : ∀ {t u'}, Machine.step { s with plan := [m] } = .next t → InRun workers q t u' →
        u'.remaining workers < u.remaining workers →
        ∃ t u', s.after (m :: moves) = .next t ∧ InRun workers q t u' ∧ u'.remaining workers < u.remaining workers := by
      intro t u' hst hrun hlt
      obtain ⟨t', u'', hafter, hrun', hle⟩ := hrun.moves hrest
      exact ⟨t', u'', (after_cons moves hst).trans hafter, hrun', hle.trans_lt hlt⟩
    rcases List.mem_cons.mp hw with rfl | hw
    · obtain ⟨t, u', hst, hrun, hlt⟩ := h.enabled_move he
      exact hnearer hst hrun hlt
    · obtain ⟨t, u', hst, hrun, hchange⟩ := h.move (.inl (Ne.symm hm))
      rcases hchange.port_or_worker with ⟨port, rfl⟩ | ⟨w', hw'⟩
      · obtain ⟨t', u'', hafter, hrun', hlt⟩ := ih hrun ((h.workerEnabled_of_port hst hrun.inst w).trans he) hw hrest
        exact ⟨t', u'', (after_cons moves hst).trans hafter, hrun', hlt⟩
      · exact hnearer hst hrun (h.remaining_lt hw')

/-- A round brings the join nearer, unless it is reached. -/
theorem InRun.round {workers q : Nat} {s : State} {u : Inst} {moves : List Move} (h : InRun workers q s u)
    (hround : fairRound q workers moves) :
    ∃ t u', s.after moves = .next t ∧ InRun workers q t u' ∧ u'.remaining workers ≤ u.remaining workers - 1 := by
  obtain ⟨hall, hseq⟩ := hround
  cases hj : u.joined with
  | true =>
    obtain ⟨t, u', hafter, hrun, hle⟩ := h.moves hseq
    have hzero := h.joined_iff_remaining.mp hj
    exact ⟨t, u', hafter, hrun, by omega⟩
  | false =>
    obtain ⟨w, hw, he⟩ := h.inv.exists_enabled h.inst h.running hj
    obtain ⟨t, u', hafter, hrun, hlt⟩ := h.moves_lt he (hall w (h.count ▸ hw)) hseq
    exact ⟨t, u', hafter, hrun, by omega⟩

/-- As many rounds as worker steps remain reach the join. -/
theorem InRun.rounds {workers q : Nat} {s : State} {u : Inst} {rounds : List (List Move)} (h : InRun workers q s u)
    (hrounds : ∀ r ∈ rounds, fairRound q workers r) (hlen : u.remaining workers ≤ rounds.length) :
    ∃ t u', s.after rounds.flatten = .next t ∧ InRun workers q t u' ∧ u'.joined = true := by
  induction rounds generalizing s u with
  | nil => exact ⟨s, u, rfl, h, h.joined_iff_remaining.mpr (Nat.le_zero.mp hlen)⟩
  | cons r rounds ih =>
    obtain ⟨hr, hrest⟩ := List.forall_mem_cons.mp hrounds
    obtain ⟨t, u', hafter, hrun, hle⟩ := h.round hr
    rw [List.flatten_cons, after_append _ hafter]
    exact ih hrun hrest (by rw [List.length_cons] at hlen; omega)

/-- Settles O52: `2 · N + W` rounds are as many as the worker steps that can remain. -/
theorem fairRoundsReachTheJoin : Obligations.FairRoundsReachTheJoin := by
  unfold Obligations.FairRoundsReachTheJoin
  intro s q u rounds hs hu hr hrounds hlen
  have hrun : InRun s.config.w q s u := ⟨hs, rfl, hu, hr⟩
  obtain ⟨t, u', hafter, hrun', hj⟩ := hrun.rounds hrounds ((remaining_le u _).trans hlen)
  exact ⟨t, u', hafter, hrun'.inst, hrun'.running, hj⟩

end Sys2Proof.Machine
end

section
/-! Weakly fair schedules reach the join (41_executor.md R127, R130). -/

namespace Sys2Proof.Machine

/-- After `n` moves of the schedule the run has come to the state `t`, and executor `q` was running after each earlier one. -/
structure RunPoint (workers q : Nat) (s : State) (schedule : Nat → Move) (n : Nat) (t : State) (u : Inst) : Prop where
  reached : s.upTo schedule n = .next t
  run : InRun workers q t u
  before : ∀ m, m < n → ∃ t' v, s.upTo schedule m = .next t' ∧ t'.insts[q]? = some v ∧ v.running = true

/-- The next point of a run. -/
theorem RunPoint.succ {workers q n : Nat} {s t t' : State} {schedule : Nat → Move} {u u' : Inst}
    (h : RunPoint workers q s schedule n t u) (hst : Machine.step { t with plan := [schedule n] } = .next t')
    (hrun : InRun workers q t' u') : RunPoint workers q s schedule (n + 1) t' u' where
  reached := upTo_succ h.reached hst
  run := hrun
  before m hm := by
    rcases Nat.lt_succ_iff_lt_or_eq.mp hm with hlt | rfl
    · exact h.before m hlt
    · exact ⟨t, u, h.reached, h.run.inst, h.run.running⟩

/-- A later point of the run is nearer to the join than `r` worker steps. -/
def NearerPoint (workers q : Nat) (s : State) (schedule : Nat → Move) (r : Nat) : Prop :=
  ∃ n t u, RunPoint workers q s schedule n t u ∧ u.remaining workers < r

/-- Before the join, after any number of moves the run has come nearer to the join, or its executor has changed in its port only and
an enabled step is still enabled. -/
theorem RunPoint.nearer_or_enabled {workers q n w : Nat} {s t : State} {schedule : Nat → Move} {u : Inst}
    (h : RunPoint workers q s schedule n t u) (hj : u.joined = false) (he : t.workerEnabled q w = true) (d : Nat) :
    NearerPoint workers q s schedule (u.remaining workers) ∨
      ∃ t' port, RunPoint workers q s schedule (n + d) t' { u with port := port } ∧ t'.workerEnabled q w = true := by
  induction d with
  | zero => exact .inr ⟨t, u.port, h, he⟩
  | succ d ih =>
    rcases ih with hnear | ⟨t', port, hpoint, he'⟩
    · exact .inl hnear
    · obtain ⟨t'', u'', hst, hrun, hchange⟩ := hpoint.run.move (m := schedule (n + d)) (.inr hj)
      have hnext := hpoint.succ hst hrun
      rcases hchange.port_or_worker with ⟨port', rfl⟩ | ⟨w', hw'⟩
      · exact .inr ⟨t'', port', hnext, (hpoint.run.workerEnabled_of_port hst hrun.inst w).trans he'⟩
      · exact .inl ⟨_, t'', u'', hnext, hpoint.run.remaining_lt hw'⟩

/-- Before the join a weakly fair run comes nearer to it: an enabled worker is given the move while its step is still enabled, unless
another worker has taken one. -/
theorem RunPoint.nearer {workers q n : Nat} {s t : State} {schedule : Nat → Move} {u : Inst}
    (h : RunPoint workers q s schedule n t u) (hcount : s.config.w = workers) (hfair : s.WeaklyFair q schedule)
    (hj : u.joined = false) : NearerPoint workers q s schedule (u.remaining workers) := by
  obtain ⟨w, hw, he⟩ := h.run.inv.exists_enabled h.run.inst h.run.running hj
  rw [h.run.count, ← hcount] at hw
  obtain ⟨m, hm, hturn⟩ := hfair w n hw
  obtain ⟨d, rfl⟩ := Nat.exists_eq_add_of_le hm
  rcases h.nearer_or_enabled hj he d with hnear | ⟨t', port, hpoint, he'⟩
  · exact hnear
  · rcases hturn with hmove | ⟨t'', hreached, hdisabled⟩
    · obtain ⟨t'', u'', hst, hrun, hlt⟩ := hpoint.run.enabled_move he'
      exact ⟨_, t'', u'', hpoint.succ (by rw [hmove]; exact hst) hrun, hlt⟩
    · obtain rfl := Host.Outcome.next.inj (hpoint.reached.symm.trans hreached)
      exact absurd (he'.symm.trans hdisabled) nofun

/-- Every point of a weakly fair run is followed by the join, by induction on the worker steps that remain. -/
theorem RunPoint.reaches_join {workers q n : Nat} {s t : State} {schedule : Nat → Move} {u : Inst}
    (h : RunPoint workers q s schedule n t u) (hcount : s.config.w = workers) (hfair : s.WeaklyFair q schedule) :
    ∃ n' t' u', RunPoint workers q s schedule n' t' u' ∧ u'.joined = true := by
  induction hr : u.remaining workers using Nat.strong_induction_on generalizing n t u with
  | _ r ih =>
    subst hr
    cases hj : u.joined with
    | true => exact ⟨n, t, u, h, hj⟩
    | false =>
      obtain ⟨n', t', u', hpoint, hlt⟩ := h.nearer hcount hfair hj
      exact ih _ hlt hpoint rfl

/-- Settles O51: the run starts in its worker phase, and every point of it is followed by the join. -/
theorem weaklyFairSchedulesReachTheJoin : Obligations.WeaklyFairSchedulesReachTheJoin := by
  unfold Obligations.WeaklyFairSchedulesReachTheJoin
  intro s q u schedule hs hu hr hfair
  have hstart : RunPoint s.config.w q s schedule 0 s u := ⟨upTo_zero s schedule, ⟨hs, rfl, hu, hr⟩, nofun⟩
  obtain ⟨n, t, u', hpoint, hj⟩ := hstart.reaches_join rfl hfair
  exact ⟨n, t, u', hpoint.reached, hpoint.run.inst, hpoint.run.running, hj, hpoint.before⟩

end Sys2Proof.Machine
end

section
/-! The steps of EXEC one by one (41_executor.md R121, R122, R125, R126): admission, the start phase, the evaluate step. -/

namespace Sys2Proof.Machine

/-- A gate whose value is at hand is evaluated, in one step (41_executor.md R126). -/
theorem exec_gate_evaluates {s : State} {q w k : Nat} {u : Inst} {i : Instr} {x : EncBit} (he : s.Evaluates q w k u)
    (hk : u.nIn + k < maxWires) (hi : i.isGate = true) (hx : gateValue s i u = some x) :
    exec i s = .next (s.setInst q (u.evaluate w k x)) :=
  (exec_gate hi s).trans (onWorker_evaluates he hx hk)

/-- A gate whose value is not at hand changes nothing (notes/assumptions/19.md). -/
theorem exec_gate_holds {s : State} {q w k : Nat} {u : Inst} {i : Instr} (he : s.Evaluates q w k u) (hi : i.isGate = true)
    (hx : gateValue s i u = none) : exec i s = .next s :=
  (exec_gate hi s).trans (onWorker_holds he hx)

/-- A two-operand gate has no value while either operand is absent (41_executor.md R125). -/
theorem binaryGate_absent {f : EncBit → EncBit → EncBit} {s1 s2 : Nat} {u : Inst}
    (h : cellGet u.wires s1 = none ∨ cellGet u.wires s2 = none) : binaryGate f s1 s2 u = none := by
  unfold binaryGate
  split
  · rename_i ha hb
    simp [ha, hb] at h
  · rfl

/-- Settles O8: each gate's value is the engine's answer, and the construction check refuses `OP = 11`. -/
theorem evaluateStepWritesItsWire : Obligations.EvaluateStepWritesItsWire := by
  unfold Obligations.EvaluateStepWritesItsWire
  refine ⟨fun s q w k s1 s2 u a b he hk ha hb => ⟨?_, ?_⟩, fun s q w k s1 u a he hk ha => ?_, fun img k hc hk hop => ?_⟩
  · exact exec_gate_evaluates he hk rfl (gateValue_xor ha hb)
  · exact exec_gate_evaluates he hk rfl (gateValue_and ha hb)
  · exact exec_gate_evaluates he hk rfl (gateValue_not ha)
  · obtain ⟨hop3, -⟩ := (check_facts hc).gate k hk
    exact hop3 (congrArg BitVec.toNat hop)

/-- Settles O11: a gate with an absent operand has no value. -/
theorem heldWorkerWaits : Obligations.HeldWorkerWaits := by
  unfold Obligations.HeldWorkerWaits
  intro s q w k s1 s2 u he
  refine ⟨fun habsent => ⟨?_, ?_⟩, fun habsent => ?_⟩
  · exact exec_gate_holds he rfl (binaryGate_absent habsent)
  · exact exec_gate_holds he rfl (binaryGate_absent habsent)
  · exact exec_gate_holds he rfl (by simp [gateValue, unaryGate, habsent])

/-- EXEC is admitted or refused by the sequencer that accepts it. -/
theorem exec_exec_accepts {s : State} {q sel : Nat} {u : Inst} {c : Command} (ha : s.Accepts q u c) :
    exec (.exec sel) s = .next (admitExec sel s q u c) := onPhases_accepts _ _ ha

/-- EXEC of a slot that exists and is valid looks at its payload: it is admitted with as many bits as the program has inputs,
and refused with any other payload (41_executor.md R121). -/
theorem admitExec_of_slotOk {s : State} {q sel : Nat} {u : Inst} {c : Command} (hsel : sel < 3 + s.config.nUser)
    (hv : s.slotOk sel = true) :
    (∀ bits, c.payload = bits.map .bit → bits.length = imageNIn (s.image sel) → admitExec sel s q u c =
      s.setInst q { u.copyHeader (s.image sel) with
        busy := true, cmd := c.word, slot := sel, args := c.payload, bits := bits, phase := .start }) ∧
    ((∀ bits : List EncBit, c.payload = bits.map .bit → bits.length ≠ imageNIn (s.image sel)) →
      admitExec sel s q u c = raise s q u c.word .pvInputCount c.payload.length) := by
  have hexists : ¬ s.config.nUser + 3 ≤ sel := by omega
  rw [admitExec, if_neg hexists, if_pos hv]
  refine ⟨fun bits hp hlen => ?_, fun hwrong => ?_⟩
  · rw [bitsOf_eq_some.mpr hp]
    exact if_pos hlen
  · split
    · exact if_neg (hwrong _ (bitsOf_eq_some.mp ‹_›))
    · rfl

/-- Settles O14: the tests of admission in their order. -/
theorem execAdmission : Obligations.ExecAdmission := by
  unfold Obligations.ExecAdmission
  intro s q sel u c ha
  rw [exec_exec_accepts ha]
  refine ⟨fun hno => ?_, fun hsel hbit h32 => ?_, fun hsel hv hwrong => ?_, fun bits hsel hv hp hlen => ?_⟩
  · rw [admitExec, if_pos (by omega), raise_eq_faulted]
  · have hinvalid : s.slotOk sel = false := by
      rw [getLsbD_slotValidWord] at hbit
      simp only [h32, decide_true, Bool.and_true, show sel < s.config.nUser + 3 by omega, Bool.or_eq_false_iff] at hbit
      simp [State.slotOk, hbit]
    have hexists : ¬ s.config.nUser + 3 ≤ sel := by omega
    rw [admitExec, if_neg hexists, hinvalid, if_neg Bool.false_ne_true, raise_eq_faulted, Nat.min_eq_left (by omega)]
  · rw [(admitExec_of_slotOk hsel hv).2 hwrong, raise_eq_faulted]
    rfl
  · rw [(admitExec_of_slotOk hsel hv).1 bits hp hlen]
    rfl

/-- Settles O15: the start phase lists the inputs from wire 0 on; outside the worker phase a worker rests. -/
theorem startPhaseLoadsTheInputs : Obligations.StartPhaseLoadsTheInputs := by
  unfold Obligations.StartPhaseLoadsTheInputs
  refine ⟨fun s q u i hr hp hi => ?_, fun s q w u ha hu hp => ?_⟩
  · have hphased : isPhased i := hi.imp_left fun h => ⟨u.slot, h⟩
    exact ⟨u.startRun s.config.w, (exec_of_runs hr hphased).trans (runPhase_start _ hp), rfl,
      fun x => by simp [cellGet_wiresFrom], rfl⟩
  · exact step_of_control (fetch_of_resting ha hu (.inl (running_of_phase (by simp [hp]))))

end Sys2Proof.Machine
end

section
/-! LOAD_PROG and the construction check (41_executor.md R140, R141): which images pass, with which causes the others fail, and what
is stored. -/

namespace Sys2Proof.Machine

theorem headerField_lt (w : Word) : headerField w < 65536 := (w.extractLsb' 0 16).isLt

/-- What the check meets first in an image: no room for a header, a header word with a reserved bit, a broken limit or a wrong length,
or none of these (30_encoding.md R81). -/
theorem check_cases (img : List Word) : img.length < 3 ∨
    (3 ≤ img.length ∧ ∃ a, a < 3 ∧ headerReserved (memRead img a) ≠ 0 ∧ ∀ b, b < a → headerReserved (memRead img b) = 0) ∨
    (3 ≤ img.length ∧ (∀ a, a < 3 → headerReserved (memRead img a) = 0) ∧ ¬ sizeLegal img) ∨
    ((∀ a, a < 3 → headerReserved (memRead img a) = 0) ∧ sizeLegal img) := by
  by_cases hlen : img.length < 3
  · exact .inl hlen
  by_cases hres : ∃ a, a < 3 ∧ headerReserved (memRead img a) ≠ 0
  · obtain ⟨ha, hbit⟩ := Nat.find_spec hres
    refine .inr (.inl ⟨by omega, Nat.find hres, ha, hbit, fun b hb => ?_⟩)
    by_contra hne
    exact Nat.find_min hres hb ⟨by omega, hne⟩
  · push Not at hres
    by_cases hsize : sizeLegal img
    · exact .inr (.inr (.inr ⟨hres, hsize⟩))
    · exact .inr (.inr (.inl ⟨by omega, hres, hsize⟩))

/-- Settles O24: a header that fails a test of its own is refused; past it, the scans find no failing gate and no failing selector
exactly when there is none. -/
theorem checkAcceptsExactlyTheLegalImages : Obligations.CheckAcceptsExactlyTheLegalImages := by
  unfold Obligations.CheckAcceptsExactlyTheLegalImages
  refine fun img => ⟨fun h => ?_, check_of_legal⟩
  rcases check_cases img with hlen | ⟨hlen, a, ha, hbit, hbefore⟩ | ⟨hlen, hres, hsize⟩ | ⟨hres, hsize⟩
  · exact nomatch (check_of_short hlen).symm.trans h
  · exact nomatch (check_of_reserved hlen ha hbit hbefore).symm.trans h
  · exact nomatch (check_of_not_sizeLegal hlen hres hsize).symm.trans h
  · rw [check_of_sizeLegal hres hsize, Option.or_eq_none_iff] at h
    obtain ⟨hgates, hsels⟩ := h
    refine ⟨hsize, hres, fun k hk => ?_, fun j hj => ?_⟩
    · simpa [gateError] using List.findSome?_eq_none_iff.mp hgates k (List.mem_range.mpr hk)
    · simpa [selectorError] using List.findSome?_eq_none_iff.mp hsels j (List.mem_range.mpr hj)

/-- The cause of a failing gate is a construction cause, and no slot's (60_exceptions.md R200, R201). -/
theorem gateFailure_construction {nIn k : Nat} {w : Word} {c : Cause} (h : gateFailure nIn k w = some c) :
    c.isConstruction = true ∧ c ≠ .ceRomSlot := by
  unfold gateFailure at h
  split_ifs at h <;> cases h <;> decide

/-- The cause of a failing selector is a construction cause, and no slot's (60_exceptions.md R200, R201). -/
theorem selectorFailure_construction {wires : Nat} {o : Word} {c : Cause} (h : selectorFailure wires o = some c) :
    c.isConstruction = true ∧ c ≠ .ceRomSlot := by
  unfold selectorFailure at h
  split_ifs at h <;> cases h <;> decide

/-- The check fails with a construction cause, which is no slot's, and a DETAIL within an image, which fits its field
(60_exceptions.md R201, R204). -/
theorem check_failure {img : List Word} {c : Cause} {d : Nat} (h : check img = some (c, d)) :
    (c.isConstruction = true ∧ c ≠ .ceRomSlot) ∧ d ≤ 0xFFFFFF := by
  rcases check_cases img with hlen | ⟨hlen, a, ha, hbit, hbefore⟩ | ⟨hlen, hres, hsize⟩ | ⟨hres, hsize⟩
  · cases (check_of_short hlen).symm.trans h
    decide
  · cases (check_of_reserved hlen ha hbit hbefore).symm.trans h
    exact ⟨by decide, by omega⟩
  · cases (check_of_not_sizeLegal hlen hres hsize).symm.trans h
    decide
  · have hn : imageN img < 65536 := headerField_lt _
    have hnOut : imageNOut img < 65536 := headerField_lt _
    rw [check_of_sizeLegal hres hsize, Option.or_eq_some_iff] at h
    rcases h with hgate | ⟨-, hsel⟩
    · obtain ⟨k, hk, herror⟩ := List.exists_of_findSome?_eq_some hgate
      obtain ⟨c', hfail, heq⟩ := Option.map_eq_some_iff.mp herror
      cases heq
      exact ⟨gateFailure_construction hfail, by have := List.mem_range.mp hk; omega⟩
    · obtain ⟨j, hj, herror⟩ := List.exists_of_findSome?_eq_some hsel
      obtain ⟨c', hfail, heq⟩ := Option.map_eq_some_iff.mp herror
      cases heq
      exact ⟨selectorFailure_construction hfail, by have := List.mem_range.mp hj; omega⟩

theorem slotRunning_eq_false {s : State} {sel : Nat} (h : ∀ v ∈ s.insts, v.busy = true → v.slot ≠ sel) :
    s.slotRunning sel = false := by
  rw [State.slotRunning, List.any_eq_false]
  intro v hv hrun
  simp only [Bool.and_eq_true, beq_iff_eq] at hrun
  exact h v hv hrun.1 hrun.2

/-- What LOAD_PROG does with the payload of a command to a user slot that no executor runs (41_executor.md R140). -/
def loadPayload (sel : Nat) (s : State) (q : Nat) (u : Inst) (c : Command) : State :=
  match wordsOf c.payload with
  | none => raise s q u c.word .pvInputCount c.payload.length (some sel)
  | some img =>
    match check img with
    | some (cause, detail) => raise s q u c.word cause detail (some sel)
    | none => complete (s.storeImage sel img) q u c.word []

/-- LOAD_PROG to a user slot that no executor runs comes to its payload. -/
theorem exec_loadProg_free {s : State} {q sel : Nat} {u : Inst} {c : Command} (ha : s.Accepts q u c)
    (hsel : sel < 3 + s.config.nUser) (huser : 3 ≤ sel) (hfree : ∀ v ∈ s.insts, v.busy = true → v.slot ≠ sel) :
    exec (.loadProg sel) s = .next (loadPayload sel s q u c) := by
  have hexists : ¬ s.config.nUser + 3 ≤ sel := by omega
  have hrom : ¬ sel ≤ 2 := by omega
  simp only [exec, execLoadProg]
  rw [onPort_accepts _ ha, if_neg hexists, if_neg hrom, slotRunning_eq_false hfree, if_neg Bool.false_ne_true]
  rfl

/-- Settles O21: the tests of LOAD_PROG in their order; only a failing construction check clears the valid bit. -/
theorem loadProgRefusesByCause : Obligations.LoadProgRefusesByCause := by
  unfold Obligations.LoadProgRefusesByCause
  intro s q sel u c ha h32
  refine ⟨fun hno => ?_, fun hsel hrom => ?_, fun hsel huser hfree hwords => ?_,
    fun img cause detail hsel huser hfree hp hc => ?_⟩
  · simp only [exec, execLoadProg]
    rw [onPort_accepts _ ha, if_pos (by omega), raise_eq_faulted, Nat.min_eq_left (by omega)]
  · have hexists : ¬ s.config.nUser + 3 ≤ sel := by omega
    simp only [exec, execLoadProg]
    rw [onPort_accepts _ ha, if_neg hexists, if_pos hrom, raise_eq, Nat.min_eq_left (by omega)]
    rfl
  · have hnone : wordsOf c.payload = none :=
      Option.eq_none_iff_forall_ne_some.mpr fun img h => hwords img (wordsOf_eq_some.mp h)
    rw [exec_loadProg_free ha hsel huser hfree, loadPayload, hnone]
    exact congrArg Host.Outcome.next (raise_eq _ _ _ _ _ _ _)
  · obtain ⟨⟨hcons, hrom⟩, hd⟩ := check_failure hc
    have hclear : slotValidAfter s.slotValid cause (some sel) = clearSlotBit s.slotValid sel := by
      simp [slotValidAfter, hcons, hrom]
    refine ⟨raise s q u c.word cause detail (some sel), ?_, ?_, fun b => ?_⟩
    · rw [exec_loadProg_free ha hsel huser hfree, loadPayload, wordsOf_eq_some.mpr hp]
      simp only [hc]
    · rw [raise_eq, Nat.min_eq_left hd]
    · rw [raise_slotValid, hclear, getLsbD_clearSlotBit]
      simp [eq_comm]

/-- Settles O22: the image is stored in its slot alone, and its valid bit alone is set. -/
theorem loadProgStoresACheckedImage : Obligations.LoadProgStoresACheckedImage := by
  unfold Obligations.LoadProgStoresACheckedImage
  intro s q sel u c img ha h32 hsel huser hfree hp hc
  have himage : ∀ k, (complete (s.storeImage sel img) q u c.word []).image k = if k = sel then img else s.image k :=
    fun k => (image_congr rfl rfl k).trans (image_storeImage s sel k img (by omega))
  refine ⟨complete (s.storeImage sel img) q u c.word [], ?_, rfl, ?_, fun k hk => ?_, fun b hb => ?_⟩
  · rw [exec_loadProg_free ha hsel huser hfree, loadPayload, wordsOf_eq_some.mpr hp]
    simp only [hc]
  · rw [himage, if_pos rfl]
  · rw [himage, if_neg hk]
  · rw [complete_slotValid, storeImage_slotValid, getLsbD_setSlotBit]
    simp [hb, eq_comm]

end Sys2Proof.Machine
end

section
/-! The codec's laws (42_codec.md R153, R157, R158): under the position-value duty DECOMPOSE and RECOMPOSE are, on plaintext, the
eight bits of a byte and the byte of eight bits, however the engine answers the calls. -/

namespace Sys2Proof.Machine

/-- The eight powers of two, in the order of the table (10_state.md R34). -/
theorem powers_eq_twoPow : [1, 2, 4, 8, 16, 32, 64, 128] = (List.range 8).map (BitVec.twoPow 8) := by decide

theorem byteBits_eq_map (v : BitVec 8) : byteBits v = (List.range 8).map v.getLsbD := rfl

/-- A byte is known by its bits (20_memory.md R51). -/
theorem byteBits_injective : Function.Injective byteBits := by
  intro v w h
  rw [byteBits_eq_map, byteBits_eq_map, List.map_inj_left] at h
  exact BitVec.eq_of_getLsbD_eq fun i hi => h i (List.mem_range.mpr hi)

/-- A byte is the sum of its bits at their weights. -/
theorem toNat_eq_sum_bits (v : BitVec 8) : v.toNat =
    (v.getLsbD 0).toNat * 1 + (v.getLsbD 1).toNat * 2 + (v.getLsbD 2).toNat * 4 + (v.getLsbD 3).toNat * 8 +
      (v.getLsbD 4).toNat * 16 + (v.getLsbD 5).toNat * 32 + (v.getLsbD 6).toNat * 64 + (v.getLsbD 7).toNat * 128 := by
  have hv : v.toNat < 256 := v.isLt
  simp only [BitVec.getLsbD, Nat.toNat_testBit]
  omega

/-- A byte masked with `2^i` is `2^i` exactly when its bit `i` is 1 (42_codec.md R153). -/
theorem decide_twoPow_and {w i : Nat} (hi : i < w) (v : BitVec w) :
    decide (BitVec.twoPow w i &&& v = BitVec.twoPow w i) = v.getLsbD i := by
  rw [BitVec.twoPow_and]
  cases hbit : v.getLsbD i with
  | true => simp
  | false =>
    have hne : ¬ 0#w = BitVec.twoPow w i := fun h => by simpa [hi] using congrArg (BitVec.getLsbD · i) h
    simp [hne]

/-- Masking a byte with each constant of the table reads its bits (42_codec.md R153). -/
theorem map_mask_powers (v : BitVec 8) :
    [1, 2, 4, 8, 16, 32, 64, 128].map (fun p => decide (p &&& v = p)) = byteBits v := by
  rw [powers_eq_twoPow, List.map_map, byteBits_eq_map]
  exact List.map_congr_left fun i hi => decide_twoPow_and (List.mem_range.mp hi) v

/-- Settles O30: each bit compares the byte, masked with a constant of the table, with that constant. -/
theorem decomposeLaw : Obligations.DecomposeLaw := by
  unfold Obligations.DecomposeLaw
  rintro s t b ⟨hpowers, -⟩
  have hbits := decomposeByte_decb s 0 t b
  simp only [Nat.zero_add] at hbits
  rw [hbits, ← map_mask_powers, ← hpowers, List.map_map]
  rfl

theorem getLsbD_ite_zero (x : Bool) (v : BitVec 8) (i : Nat) : (if x then v else 0).getLsbD i = (x && v.getLsbD i) := by
  cases x <;> simp

/-- The OR of the selects has bit `i` exactly when the `i`-th select took its constant: the constants have disjoint bits
(42_codec.md R157). -/
theorem byteBits_or_tree (x0 x1 x2 x3 x4 x5 x6 x7 : Bool) :
    byteBits
      ((((if x0 then 1 else 0) ||| (if x1 then 2 else 0)) ||| ((if x2 then 4 else 0) ||| (if x3 then 8 else 0))) |||
        (((if x4 then 16 else 0) ||| (if x5 then 32 else 0)) ||| ((if x6 then 64 else 0) ||| (if x7 then 128 else 0)))) =
      [x0, x1, x2, x3, x4, x5, x6, x7] := by
  simp only [byteBits, BitVec.getLsbD_or, getLsbD_ite_zero]
  simp

/-- Under the duty, the bits of what RECOMPOSE answers are the bits it was given (42_codec.md R157). -/
theorem byteBits_recomposeBits (s : State) (j : Nat) {t : PvTable} (ht : t.Duty) (b0 b1 b2 b3 b4 b5 b6 b7 : EncBit) :
    byteBits (Config.engine.decB (recomposeBits (fun i => s.call (j + i)) t b0 b1 b2 b3 b4 b5 b6 b7)) =
      [b0, b1, b2, b3, b4, b5, b6, b7].map Config.engine.decb := by
  obtain ⟨hpowers, hz⟩ := ht
  simp only [PvTable.powers, List.map_cons, List.map_nil, List.cons.injEq, and_true] at hpowers
  obtain ⟨h0, h1, h2, h3, h4, h5, h6, h7⟩ := hpowers
  simp only [recomposeBits, selectPower, call_byteOr, call_select, h0, h1, h2, h3, h4, h5, h6, h7, hz]
  exact byteBits_or_tree _ _ _ _ _ _ _ _

/-- Settles O31: a byte is the sum of its bits, and RECOMPOSE's bits are the bits it was given. -/
theorem recomposeLaw : Obligations.RecomposeLaw := by
  unfold Obligations.RecomposeLaw
  intro s t b0 b1 b2 b3 b4 b5 b6 b7 ht
  have hbits := byteBits_recomposeBits s 0 ht b0 b1 b2 b3 b4 b5 b6 b7
  simp only [Nat.zero_add, byteBits, List.map_cons, List.map_nil, List.cons.injEq, and_true] at hbits
  obtain ⟨h0, h1, h2, h3, h4, h5, h6, h7⟩ := hbits
  rw [toNat_eq_sum_bits, h0, h1, h2, h3, h4, h5, h6, h7]

/-- Under the duty, RECOMPOSE of bits that decrypt to those of some bytes gives those bytes (20_memory.md R52). -/
theorem recomposeAll_decB (s : State) {t : PvTable} (ht : t.Duty) (vs : List (BitVec 8)) (j : Nat) (bits : List EncBit)
    (h : bits.map Config.engine.decb = vs.flatMap byteBits) :
    (recomposeAll (fun i => s.call (j + i)) t bits).map Config.engine.decB = vs := by
  induction vs generalizing j bits with
  | nil =>
    obtain rfl := List.map_eq_nil_iff.mp h
    rfl
  | cons v vs ih =>
    rw [List.flatMap_cons, List.map_eq_append_iff] at h
    obtain ⟨first, rest, rfl, hfirst, hrest⟩ := h
    have hlen : first.length = 8 := by simpa [byteBits] using congrArg List.length hfirst
    match first, hlen with
    | [b0, b1, b2, b3, b4, b5, b6, b7], _ =>
      have hbyte := byteBits_injective ((byteBits_recomposeBits s j ht b0 b1 b2 b3 b4 b5 b6 b7).trans hfirst)
      have htail := ih (j + 15) rest hrest
      simp only [Nat.add_right_comm j 15, Nat.add_assoc] at htail
      simp [recomposeAll, hbyte, htail]

/-- Settles O32: the two laws, in the terms of a byte's bits. -/
theorem codecRoundTrip : Obligations.CodecRoundTrip := by
  unfold Obligations.CodecRoundTrip
  refine fun s s' t ht => ⟨fun b => ?_, fun b0 b1 b2 b3 b4 b5 b6 b7 => ?_⟩
  · have hbits : (decomposeByte s.call t b).map Config.engine.decb = [Config.engine.decB b].flatMap byteBits := by
      simpa using decomposeLaw s t b ht
    simpa using recomposeAll_decB s' ht _ 0 _ hbits
  · rw [decomposeLaw s' t _ ht]
    simpa using byteBits_recomposeBits s 0 ht b0 b1 b2 b3 b4 b5 b6 b7

end Sys2Proof.Machine
end

section
/-! The codec's commands (42_codec.md R150, R152, R155), and what the commands of one step leave unchanged (R159). -/

namespace Sys2Proof.Machine

/-- A completed command, said by the state it leaves (70_reset_and_hazards.md R244). -/
theorem complete_eq_returned (s : State) (q : Nat) (u : Inst) (w : Word) (r : Payload) :
    complete s q u w r = s.returned q u w r := rfl

/-- A table of ciphertexts is the nine that it holds, in their order (42_codec.md R150). -/
theorem tableOf_eq_some {bytes : List EncByte} {t : PvTable} : tableOf bytes = some t ↔ t.powers ++ [t.pvz] = bytes := by
  constructor
  · intro h
    unfold tableOf at h
    split at h <;> cases h
    rfl
  · rintro rfl
    rfl

/-- Any nine ciphertexts make a table: the block cannot check them (42_codec.md R150). -/
theorem exists_tableOf {bytes : List EncByte} (h : bytes.length = 9) : ∃ t, tableOf bytes = some t :=
  match bytes, h with
  | [_, _, _, _, _, _, _, _, _], _ => ⟨_, rfl⟩

/-- Settles O27: the payload makes a table exactly when it is nine bytes. -/
theorem loadPvInstallsTheTable : Obligations.LoadPvInstallsTheTable := by
  unfold Obligations.LoadPvInstallsTheTable
  intro s q u c ha
  simp only [exec, execLoadPv, onPort_accepts _ ha, raise_eq_faulted]
  refine ⟨fun hv => ?_, fun hv hwrong => ?_, fun bytes hv hp hlen => ?_⟩
  · simp [hv]
  · have hnone : (bytesOf c.payload).bind tableOf = none := by
      refine Option.eq_none_iff_forall_ne_some.mpr fun t ht => ?_
      obtain ⟨bytes, hbytes, htable⟩ := Option.bind_eq_some_iff.mp ht
      refine hwrong bytes (bytesOf_eq_some.mp hbytes) ?_
      rw [← tableOf_eq_some.mp htable]
      rfl
    simp [hv, hnone, suppliedLength]
  · obtain ⟨t, ht⟩ := exists_tableOf hlen
    refine ⟨t, ?_, tableOf_eq_some.mp ht⟩
    simp [hv, bytesOf_eq_some.mpr hp, ht, complete_eq_returned, State.returned]

/-- Settles O28: the tests of DECOMPOSE in their order, and the bits of `decomposeByte`. -/
theorem decomposeReturnsEightBits : Obligations.DecomposeReturnsEightBits := by
  unfold Obligations.DecomposeReturnsEightBits
  intro s q u c ha
  simp only [exec, execDecompose, onPort_accepts _ ha, raise_eq_faulted]
  refine ⟨fun hv => ?_, fun hv hwrong => ?_, fun b hv hp => ?_⟩
  · simp [hv]
  · simp only [hv, if_true]
    split
    · exact absurd (bytesOf_eq_some.mp ‹_›) (hwrong _)
    · rfl
  · simp only [hv, if_true, hp, bytesOf, Option.map_some, complete_eq_returned]
    rfl

/-- Settles O29: the tests of RECOMPOSE in their order, and the tree of `recomposeBits`. -/
theorem recomposeReturnsTheTree : Obligations.RecomposeReturnsTheTree := by
  unfold Obligations.RecomposeReturnsTheTree
  intro s q u c ha
  simp only [exec, execRecompose, onPort_accepts _ ha, raise_eq_faulted]
  refine ⟨fun hv => ?_, fun hv hwrong => ?_, fun b0 b1 b2 b3 b4 b5 b6 b7 hv hp => ?_⟩
  · simp [hv]
  · simp only [hv, if_true]
    split
    · exact absurd rfl (hwrong _ (bitsOf_eq_some.mp ‹_›))
    · rfl
  · simp only [hv, if_true, hp, bitsOf, Option.map_some, complete_eq_returned]
    rfl

/-- No instruction writes the configuration, the plan or the tick. -/
theorem execEffect_config {s t : State} {i : Instr} (h : ExecEffect i s t) :
    t.config = s.config ∧ t.plan = s.plan ∧ t.tick = s.tick := by
  cases h with
  | phase hr _ ht =>
    obtain ⟨u', hchange⟩ := runPhase_phasedChange hr ht
    rw [hchange.state]
    exact ⟨rfl, rfl, rfl⟩
  | poll | evaluate | wait | raised | table | codec | register | store | admitted | begun => exact ⟨rfl, rfl, rfl⟩

/-- No instruction but LOAD_PV writes the table (42_codec.md R151). -/
theorem execEffect_pv {s t : State} {i : Instr} (h : ExecEffect i s t) (hi : i ≠ .loadPv) :
    t.pv = s.pv ∧ t.pvValid = s.pvValid := by
  cases h with
  | table _ hload => exact absurd hload hi
  | phase _ _ ht =>
    obtain ⟨-, hvalid, hpv⟩ := runPhase_table ht
    exact ⟨hpv, hvalid⟩
  | poll | evaluate | wait | raised | codec | register | store | admitted | begun => exact ⟨rfl, rfl⟩

/-- No instruction but a LOAD_PROG of the slot writes the slot's image or its valid bit (41_executor.md R140). -/
theorem execEffect_slot {s t : State} {i : Instr} (h : ExecEffect i s t) {k : Nat} (hi : i ≠ .loadProg k) :
    t.image k = s.image k ∧ t.slotValid.getLsbD k = s.slotValid.getLsbD k := by
  cases h with
  | @raised _ _ _ cause _ loading _ _ hl =>
    refine ⟨image_congr rfl rfl k, ?_⟩
    rw [raise_slotValid]
    rcases slotValidAfter_cases s.slotValid cause loading with hsame | ⟨sel, rfl, -, -, hclear⟩
    · rw [hsame]
    · have hne : sel ≠ k := by
        rintro rfl
        rcases hl with hnone | ⟨_, hload, hsel, -⟩
        · cases hnone
        · cases hsel
          exact hi hload
      rw [hclear, getLsbD_clearSlotBit]
      simp [hne]
  | @store _ _ _ sel img _ hload hs =>
    have hne : k ≠ sel := by
      rintro rfl
      exact hi hload
    refine ⟨(image_congr rfl rfl k).trans ((image_storeImage s sel k img hs).trans (if_neg hne)), ?_⟩
    rw [complete_slotValid, storeImage_slotValid, getLsbD_setSlotBit]
    simp [hne.symm]
  | phase hr _ ht =>
    obtain ⟨u', hchange⟩ := runPhase_phasedChange hr ht
    exact ⟨hchange.image k, by rw [hchange.state]⟩
  | poll | evaluate | wait | table | codec | register | admitted | begun => exact ⟨image_congr rfl rfl k, rfl⟩

/-- The step from `s` to `t` wrote at most the status, the `BUSY` flag and the port of one executor, the acting one, and left it
idle. -/
def EndsIdle (s t : State) : Prop :=
  ∃ q u u', s.acting = .seq q ∧ s.insts[q]? = some u ∧ t.insts = s.insts.set q u' ∧
    u' = { u with status := u'.status, busy := false, port := u'.port }

/-- A command that its executor accepts and ends in one step. -/
theorem EndsIdle.of_accepts {s t : State} {q : Nat} {u : Inst} {c : Command} (ha : s.Accepts q u c) (status : Word)
    (ht : t.insts = s.insts.set q { u with status := status, busy := false }) : EndsIdle s t := by
  obtain ⟨hact, hu, -⟩ := ha
  exact ⟨q, _, _, hact, hu, ht, rfl⟩

/-- A held command leaves its idle executor as it is. -/
theorem EndsIdle.of_held {s : State} {q : Nat} {u : Inst} {c : Command} (ha : s.Accepts q u c) : EndsIdle s s := by
  obtain ⟨hact, hu, hidle⟩ := ha
  exact ⟨q, _, _, hact, hu, (insts_set_same hu).symm, by rw [← hidle]⟩

theorem isPhased_of_isComposite {i : Instr} {slot count : Nat} (h : isComposite i slot count) : isPhased i := by
  rcases h with ⟨rfl, -⟩ | ⟨rfl, -⟩ | ⟨rfl, -⟩ <;> simp [isPhased]

/-- An instruction that is neither a gate nor a phased command ends in one step, or is held. -/
theorem execEffect_endsIdle {s t : State} {i : Instr} (h : ExecEffect i s t) (hgate : i.isGate = false)
    (hphased : ¬ isPhased i) : EndsIdle s t := by
  cases h with
  | poll _ hi | evaluate _ hi => exact absurd (hi.symm.trans hgate) nofun
  | wait ha => exact .of_held ha
  | raised ha | table ha | codec ha | store ha => exact .of_accepts ha _ rfl
  | @register q u c sel ha => exact .of_accepts ha u.status rfl
  | @admitted _ _ _ sel _ _ hi => exact absurd (.inl ⟨sel, hi⟩) hphased
  | begun _ hi => exact absurd (isPhased_of_isComposite hi) hphased
  | phase _ hi => exact absurd hi hphased

/-- Settles O33: what every instruction leaves unchanged, and that the five commands end in one step or are held. -/
theorem oneStepCommandsFrame : Obligations.OneStepCommandsFrame := by
  unfold Obligations.OneStepCommandsFrame
  intro i s t hi h
  have heffect := exec_effect h
  obtain ⟨hconfig, hplan, htick⟩ := execEffect_config heffect
  obtain ⟨hgate, hphased⟩ : i.isGate = false ∧ ¬ isPhased i := by
    rcases hi with rfl | rfl | rfl | ⟨_, rfl⟩ | ⟨_, rfl, -⟩ <;> simp [Instr.isGate, isPhased]
  exact ⟨hconfig, hplan, htick, execEffect_pv heffect, fun k hk => (execEffect_slot heffect hk).1,
    fun k _ hk => (execEffect_slot heffect hk).2, execEffect_endsIdle heffect hgate hphased⟩

end Sys2Proof.Machine
end

section
/-! The programs of the S-box circuits (43_sbox.md R171 to R179): what a checked program computes on plaintext bits it computes on
ciphertexts, under every engine that meets the laws. -/

namespace Sys2Proof.Machine

/-- A program that computes a table on plaintext bits computes it on ciphertexts (43_sbox.md R173, R176). -/
theorem refOutputs_of_computesTable {E : Engine} (hE : E.Laws) {img : List Word} {table : BitVec 8 → BitVec 8}
    (hok : programOk img 8 = true) (hcomputes : computesTable img table) {v : BitVec 8} {ins : List EncBit}
    (hins : ins.map E.decb = byteBits v) : (refOutputs E.gates img ins).map E.decb = byteBits (table v) := by
  obtain ⟨-, hfacts, hnIn, -⟩ := programOk_facts hok
  have hlen : ins.length = imageNIn img := by
    rw [hnIn]
    simpa [byteBits] using congrArg List.length hins
  rw [refOutputs_decb hE hfacts hlen, hins, hcomputes v]

/-- Settles O54: SBOX_FWD and the programs of a legal ROM's slot 0 compute the table on plaintext bits. -/
theorem sboxProgramComputesTheTable : Obligations.SboxProgramComputesTheTable := by
  unfold Obligations.SboxProgramComputesTheTable
  intro E v ins hE hins
  exact ⟨refOutputs_of_computesTable hE sboxFwd_ok sboxFwd_computes hins,
    fun r hr => refOutputs_of_computesTable hE hr.sboxFwd hr.forward hins⟩

/-- Settles O55: SBOX_INV and the programs of a legal ROM's slot 1 compute the inverse table on plaintext bits. -/
theorem invsboxProgramComputesTheTable : Obligations.InvsboxProgramComputesTheTable := by
  unfold Obligations.InvsboxProgramComputesTheTable
  intro E v ins hE hins
  exact ⟨refOutputs_of_computesTable hE sboxInv_ok sboxInv_computes hins,
    fun r hr => refOutputs_of_computesTable hE hr.sboxInv hr.inverse hins⟩

end Sys2Proof.Machine
end

section
/-! The steps of the composite commands one by one (43_sbox.md R172, R175, 44_mixcolumns.md R192): admission, the inner DECOMPOSE, and
the steps from the join of the inner EXEC to the result. -/

namespace Sys2Proof.Machine

/-- A composite command is admitted or refused by the sequencer that accepts it. -/
theorem exec_composite_accepts {s : State} {q slot count : Nat} {u : Inst} {c : Command} {i : Instr} (ha : s.Accepts q u c)
    (hi : isComposite i slot count) : exec i s = .next (admitComposite slot count s q u c) := by
  rcases hi with ⟨rfl, rfl, rfl⟩ | ⟨rfl, rfl, rfl⟩ | ⟨rfl, rfl, rfl⟩
  all_goals exact onPhases_accepts _ _ ha

/-- With the table installed, a composite command looks at its payload: it is accepted with as many bytes as it takes, and refused
with any other payload (43_sbox.md R172). -/
theorem admitComposite_of_pvValid {s : State} {q slot count : Nat} {u : Inst} {c : Command} (hv : s.pvValid = true) :
    (∀ bytes : List EncByte, c.payload = bytes.map .byte → bytes.length = count → admitComposite slot count s q u c =
      s.setInst q { u with busy := true, cmd := c.word, slot := slot, args := c.payload, phase := .decompose }) ∧
    ((∀ bytes : List EncByte, c.payload = bytes.map .byte → bytes.length ≠ count) →
      admitComposite slot count s q u c = raise s q u c.word .pvInputCount c.payload.length) := by
  rw [admitComposite, if_pos hv]
  refine ⟨fun bytes hp hlen => ?_, fun hwrong => ?_⟩
  · rw [bytesOf_eq_some.mpr hp]
    exact if_pos hlen
  · split
    · exact if_neg (hwrong _ (bytesOf_eq_some.mp ‹_›))
    · rfl

/-- The sequencer that accepts a command runs it, if it wrote a busy executor. -/
theorem State.Accepts.runs_setInst {s : State} {q : Nat} {u v : Inst} {c : Command} (h : s.Accepts q u c) (hb : v.busy = true) :
    (s.setInst q v).Runs q v := by
  obtain ⟨hact, hu, -⟩ := h
  exact ⟨hact, insts_set_self hu, hb⟩

/-- Settles O18: the tests of admission in their order, then the inner DECOMPOSE of the accepted bytes. -/
theorem compositesBegin : Obligations.CompositesBegin := by
  unfold Obligations.CompositesBegin
  intro s q u c i slot count ha hi
  rw [exec_composite_accepts ha hi]
  refine ⟨fun hv => ?_, fun hv hwrong => ?_, fun bytes hv hp hlen => ?_⟩
  · simp [admitComposite, hv, raise_eq_faulted]
  · rw [(admitComposite_of_pvValid hv).2 hwrong, raise_eq_faulted]
    rfl
  · rw [(admitComposite_of_pvValid hv).1 bytes hp hlen]
    refine ⟨_, rfl, rfl, ?_⟩
    rw [exec_of_runs (ha.runs_setInst rfl) (isPhased_of_isComposite hi), runPhase_decompose _ rfl, setInst_setInst,
      bytesOf_eq_some.mpr hp]
    rfl

/-- A composite command recomposes its output bits (43_sbox.md R172). -/
theorem afterCopyOf_composite {i : Instr} (hi : i = .sbox ∨ i = .invsbox ∨ i = .mixcol) :
    afterCopyOf i = Inst.bitsAreRecomposed := by
  rcases hi with rfl | rfl | rfl <;> rfl

/-- Settles O19: the run phase copies the outputs, then come RECOMPOSE, the status phase and the release. -/
theorem compositesComplete : Obligations.CompositesComplete := by
  unfold Obligations.CompositesComplete
  intro s q u i hs hruns hp hall hi
  have ⟨_, hu, hb⟩ := hruns
  have hj := joined_iff.mpr hall
  have hphased : isPhased i := .inr hi
  obtain ⟨outs, ho⟩ := hs.outputs_of_joined hu (running_iff.mpr ⟨hb, hp⟩) hj
  obtain ⟨hlen, hget⟩ := outputs_ok ho
  refine ⟨s.setInst q { u with bits := outs, phase := .recompose },
    s.setInst q { u with bits := outs, result := (recomposeAll s.call s.pv outs).map .byte, phase := .status },
    s.setInst q { u with bits := outs, result := (recomposeAll s.call s.pv outs).map .byte, phase := .release, status := 0 },
    outs, _, hlen, hget, rfl, ?_, ?_, ?_, rfl, rfl, rfl, ?_⟩
  · rw [exec_of_runs hruns hphased, afterCopyOf_composite hi, runPhase_copies _ hp hj ho]
    rfl
  · rw [exec_of_runs (hruns.setInst (by exact hb)) hphased, runPhase_recompose _ rfl, setInst_setInst]
    rfl
  · rw [exec_of_runs (hruns.setInst (by exact hb)) hphased, runPhase_status _ rfl, setInst_setInst]
    rfl
  · rw [exec_of_runs (hruns.setInst (by exact hb)) hphased, runPhase_release _ rfl]
    simp [giveBack, State.returned, State.setInst]

end Sys2Proof.Machine
end

section
/-! The codec inside a composite command (43_sbox.md R172): under the position-value duty the engine's answers are the same results as
a deterministic engine's, and decrypt to the bits and bytes of the plaintext (10_state.md R46, 42_codec.md R153, R157). -/

namespace Sys2Proof.Machine

/-- Some state's calls are all answered by the deterministic engine, so a fact of every step's calls is one of that engine
(10_state.md R46). -/
theorem exists_call_engine : ∃ s : State, s.call = fun _ => Config.engine :=
  ⟨State.resetWith Params.vectorsDefault, call_deterministic rfl⟩

/-- Under the duty, DECOMPOSE of one byte of several decrypts to its bits (42_codec.md R153). -/
theorem decomposeByte_byteBits (s : State) (j : Nat) {t : PvTable} (ht : t.Duty) (b : EncByte) :
    (decomposeByte (fun k => s.call (j + k)) t b).map Config.engine.decb = byteBits (Config.engine.decB b) := by
  have hfirst := decomposeByte_decb s 0 t b
  simp only [Nat.zero_add] at hfirst
  rw [decomposeByte_decb, ← hfirst]
  exact decomposeLaw s t b ht

/-- Under the duty, DECOMPOSE of some bytes decrypts to their bits (20_memory.md R52). -/
theorem decomposeAll_decb (s : State) {t : PvTable} (ht : t.Duty) (bytes : List EncByte) :
    (decomposeAll s.call t bytes).map Config.engine.decb = (bytes.map Config.engine.decB).flatMap byteBits := by
  have hbytes : (bytes.mapIdx fun j b => decomposeByte (fun k => s.call (16 * j + k)) t b).map (List.map Config.engine.decb) =
      (bytes.map Config.engine.decB).map byteBits := by
    refine List.ext_getElem (by simp) fun j _ _ => ?_
    simp only [List.getElem_map, List.getElem_mapIdx, decomposeByte_byteBits s _ ht]
  rw [decomposeAll, List.map_flatten, hbytes, List.flatMap_def]

/-- Under the duty, a deterministic engine's DECOMPOSE decrypts to the bits (42_codec.md R153). -/
theorem refDecompose_decb {t : PvTable} (ht : t.Duty) (bytes : List EncByte) :
    (refDecompose t bytes).map Config.engine.decb = (bytes.map Config.engine.decB).flatMap byteBits := by
  obtain ⟨s, hs⟩ := exists_call_engine
  have hdec := decomposeAll_decb s ht bytes
  rwa [hs] at hdec

/-- Under the duty, a deterministic engine's RECOMPOSE of the bits of some bytes decrypts to these bytes (42_codec.md R157). -/
theorem refRecompose_decB {t : PvTable} (ht : t.Duty) {vs : List (BitVec 8)} {bits : List EncBit}
    (h : bits.map Config.engine.decb = vs.flatMap byteBits) : (refRecompose t bits).map Config.engine.decB = vs := by
  obtain ⟨s, hs⟩ := exists_call_engine
  have hdec := recomposeAll_decB s ht vs 0 bits h
  rwa [hs] at hdec

/-- The step's DECOMPOSE gives the same result as a deterministic engine's (10_state.md R46). -/
theorem decomposeAll_same (s : State) {t : PvTable} (ht : t.Duty) (bytes : List EncByte) :
    sameBits s.config.deterministic (decomposeAll s.call t bytes) (refDecompose t bytes) :=
  ⟨(decomposeAll_decb s ht bytes).trans (refDecompose_decb ht bytes).symm, fun hdet => by rw [call_deterministic hdet]; rfl⟩

/-- The step's RECOMPOSE of the same bits gives the same result as a deterministic engine's, here of the bits of the bytes `vs`
(10_state.md R46). -/
theorem recomposeAll_same (s : State) {t : PvTable} (ht : t.Duty) {vs : List (BitVec 8)} {xs ys : List EncBit}
    (h : sameBits s.config.deterministic xs ys) (hys : ys.map Config.engine.decb = vs.flatMap byteBits) :
    sameBytes s.config.deterministic (recomposeAll s.call t xs) (refRecompose t ys) := by
  obtain ⟨hdec, heq⟩ := h
  have hxs := recomposeAll_decB s ht vs 0 xs (hdec.trans hys)
  simp only [Nat.zero_add] at hxs
  exact ⟨hxs.trans (refRecompose_decB ht hys).symm, fun hdet => by rw [call_deterministic hdet, heq hdet]; rfl⟩

end Sys2Proof.Machine
end

section
/-! SBOX and INVSBOX answer their tables (43_sbox.md R173, R176). The run of a composite command is one argument for all three: it answers
the bytes whose bits its ROM program computes from the bits of its own. -/

namespace Sys2Proof.Machine

/-- What a composite command on the encrypted bytes `bytes` has come to, by its phase (43_sbox.md R172). -/
def Inst.CompositePhase (u : Inst) (img : List Word) (t : PvTable) (d : Bool) (bytes : List EncByte) : Prop :=
  match u.phase with
  | .decompose => bytesOf u.args = some bytes
  | .start | .run => sameBits d u.bits (refDecompose t bytes)
  | .recompose => sameBits d u.bits (refBits img (refDecompose t bytes))
  | .status | .release =>
    ∃ outs, u.result = outs.map .byte ∧ sameBytes d outs (refRecompose t (refBits img (refDecompose t bytes)))

theorem compositeUnderWay_iff {s : State} {q slot : Nat} {i : Instr} {bytes : List EncByte} :
    s.CompositeUnderWay q i slot bytes ↔
    ∃ u, s.insts[q]? = some u ∧ u.busy = true ∧ decodeCommand u.cmd = .instr i ∧ u.slot = slot ∧
      u.CompositePhase (s.image slot) s.pv s.config.deterministic bytes := Iff.rfl

/-- The program `img` computes the bits of the plaintext bytes `vs` from the bits DECOMPOSE gives of `bytes`. -/
def ComputesBytes (img : List Word) (t : PvTable) (bytes : List EncByte) (vs : List (BitVec 8)) : Prop :=
  (refBits img (refDecompose t bytes)).map Config.engine.decb = vs.flatMap byteBits

/-- The result is encrypted bytes that decrypt to `vs`. -/
def Reply.DecryptsTo (r : Reply) (vs : List (BitVec 8)) : Prop :=
  ∃ outs : List EncByte, r.result = outs.map .byte ∧ outs.map Config.engine.decB = vs

/-- What every step keeps until the composite command `i` on `bytes` answers: it is under way, under the position-value duty, and its
program computes the bits of `vs`. -/
structure CompositeRun (q : Nat) (i : Instr) (slot : Nat) (bytes : List EncByte) (vs : List (BitVec 8)) (s : State) : Prop where
  inv : s.Inv
  values : s.Values
  duty : s.PvDuty
  computes : ComputesBytes (s.image slot) s.pv bytes vs
  underWay : s.CompositeUnderWay q i slot bytes

/-- At the join of the inner EXEC the output copy takes the program's outputs on the bits of the inner DECOMPOSE (43_sbox.md R172,
41_executor.md R131). -/
theorem State.Inv.composite_outputs {s : State} (h : s.Inv) (hv : s.Values) {q : Nat} {u : Inst} {ins outs : List EncBit}
    (hu : s.insts[q]? = some u) (hr : u.running = true) (hj : u.joined = true) (ho : u.outputs (s.image u.slot) = .ok outs)
    (hbits : sameBits s.config.deterministic u.bits ins) :
    sameBits s.config.deterministic outs (refBits (s.image u.slot) ins) := by
  obtain ⟨-, hfacts, ⟨hnIn, -⟩, hlen, -⟩ := h.of_running hu hr
  obtain ⟨outs', ho', href⟩ := h.outputs_ref_of_joined hv hu hr hj
  obtain rfl : outs = outs' := Except.ok.inj (ho.symm.trans ho')
  exact href.trans (refBits_same hfacts hbits (hlen.trans hnIn))

/-- Each phase of a composite command goes on to the next, and the last returns the bytes (43_sbox.md R172). -/
theorem runPhase_composite {s t : State} (hs : s.Inv) (hv : s.Values) (hduty : s.pv.Duty) {q : Nat} {u : Inst}
    {bytes : List EncByte} {vs : List (BitVec 8)} (hvs : ComputesBytes (s.image u.slot) s.pv bytes vs) (hr : s.Runs q u)
    (hp : u.CompositePhase (s.image u.slot) s.pv s.config.deterministic bytes)
    (ht : runPhase s q u Inst.bitsAreRecomposed = .next t) :
    (∃ u', t = s.setInst q u' ∧ u'.busy = true ∧ u'.cmd = u.cmd ∧ u'.slot = u.slot ∧
      u'.CompositePhase (s.image u.slot) s.pv s.config.deterministic bytes) ∨
    ∃ r : Reply, t.replies = s.replies ++ [r] ∧ r.executor = q ∧ r.DecryptsTo vs := by
  obtain ⟨-, hu, hb⟩ := hr
  have hhere := hp
  unfold Inst.CompositePhase at hp
  rcases runPhase_next ht with
    ⟨hph, rfl⟩ | ⟨hph, rfl⟩ | ⟨hph, hj, outs, ho, rfl⟩ | ⟨hph, -, rfl⟩ | ⟨hph, rfl⟩ | ⟨hph, rfl⟩ | ⟨hph, rfl⟩
  all_goals rw [hph] at hp
  · rw [hp]
    exact .inl ⟨_, rfl, hb, rfl, rfl, decomposeAll_same s hduty bytes⟩
  · exact .inl ⟨_, rfl, hb, rfl, rfl, hp⟩
  · exact .inl ⟨_, rfl, hb, rfl, rfl, hs.composite_outputs hv hu (running_iff.mpr ⟨hb, hph⟩) hj ho hp⟩
  · exact .inl ⟨u, by rw [State.setInst, insts_set_same hu], hb, rfl, rfl, hhere⟩
  · exact .inl ⟨_, rfl, hb, rfl, rfl, _, rfl, recomposeAll_same s hduty hp hvs⟩
  · exact .inl ⟨_, rfl, hb, rfl, rfl, hp⟩
  · obtain ⟨outs, hresult, hsame, -⟩ := hp
    exact .inr ⟨_, rfl, rfl, outs, hresult, hsame.trans (refRecompose_decB hduty hvs)⟩

/-- While an executor is busy no step writes a table that is installed: a reset is taken only while every executor is idle
(70_reset_and_hazards.md R230). -/
theorem stepEffect_table_of_busy {s t : State} (h : StepEffect s t) {v : Inst} (hv : v ∈ s.insts) (hb : v.busy = true)
    (hvalid : s.pvValid = true) : t.pvValid = true ∧ t.pv = s.pv := by
  cases h with
  | restart _ hi =>
    have hidle := List.all_eq_true.mp hi v hv
    simp [hb] at hidle
  | command _ _ _ _ ht | gate _ _ ht => exact (execEffect_table ht).2 hvalid
  | quiet | issue | claim | refuse => exact ⟨hvalid, rfl⟩

/-- A step keeps a composite command under way and returns no result for its executor, or returns its bytes. -/
theorem CompositeRun.stepEffect {s t : State} {q slot count : Nat} {i : Instr} {bytes : List EncByte} {vs : List (BitVec 8)}
    (hi : isComposite i slot count) (h : CompositeRun q i slot bytes vs s) (hx : StepEffect s t) :
    (CompositeRun q i slot bytes vs t ∧ Silent s t q) ∨
    ∃ r : Reply, t.replies = s.replies ++ [r] ∧ r.executor = q ∧ r.DecryptsTo vs := by
  obtain ⟨hs, hv, ⟨hvalid, hduty⟩, hvs, hway⟩ := h
  obtain ⟨u, hu, hb, hd, rfl, hp⟩ := compositeUnderWay_iff.mp hway
  have hmem := List.mem_of_getElem? hu
  have himg := stepEffect_image hx hmem hb
  have hconfig := (stepEffect_table hx).1
  obtain ⟨hvalid', hpv⟩ := stepEffect_table_of_busy hx hmem hb hvalid
  have hgoesOn : ∀ u', t.insts[q]? = some u' → u'.busy = true → u'.cmd = u.cmd → u'.slot = u.slot →
      u'.CompositePhase (s.image u.slot) s.pv s.config.deterministic bytes → CompositeRun q i u.slot bytes vs t := by
    intro u' hu' hb' hcmd hslot hp'
    refine ⟨hs.stepEffect hx, hv.stepEffect hs hx, ⟨hvalid', by rwa [hpv]⟩, by rwa [himg, hpv], ?_⟩
    refine compositeUnderWay_iff.mpr ⟨u', hu', hb', hcmd ▸ hd, hslot, ?_⟩
    rwa [himg, hpv, hconfig]
  cases stepEffect_busy hs hx hu hb with
  | elsewhere port hu' hsilent => exact .inl ⟨hgoesOn _ hu' hb rfl rfl hp, hsilent⟩
  | worker _ hw ht =>
    subst ht
    cases hw with
    | claim | evaluate => exact .inl ⟨hgoesOn _ (insts_set_self hu) hb rfl rfl hp, .of_eq rfl⟩
  | phase hr hd' ht =>
    obtain rfl := Decoded.instr.inj (hd.symm.trans hd')
    rw [afterCopyOf_composite (hi.imp And.left (Or.imp And.left And.left))] at ht
    rcases runPhase_composite hs hv hduty hvs hr hp ht with ⟨u', rfl, hb', hcmd, hslot, hp'⟩ | hanswer
    · exact .inl ⟨hgoesOn u' (insts_set_self hu) hb' hcmd hslot hp', .of_eq rfl⟩
    · exact .inr hanswer

/-- Passing the move on or choosing it changes nothing a composite command under way reads. -/
theorem CompositeRun.congr {s t : State} {q slot : Nat} {i : Instr} {bytes : List EncByte} {vs : List (BitVec 8)}
    (h : CompositeRun q i slot bytes vs s) (hc : t.config = s.config) (hi : t.insts = s.insts) (hs : t.slots = s.slots)
    (hv : t.slotValid = s.slotValid) (hvalid : t.pvValid = s.pvValid) (hpv : t.pv = s.pv) : CompositeRun q i slot bytes vs t := by
  obtain ⟨hinv, hvalues, hduty, hvs, hway⟩ := h
  have himg := image_congr hc hs slot
  refine ⟨hinv.congr hc hi hs hv, hvalues.congr hc hi fun _ _ _ => image_congr hc hs _, ?_, by rwa [himg, hpv], ?_⟩
  · rwa [State.PvDuty, hvalid, hpv]
  · rw [compositeUnderWay_iff, hi, hc, himg, hpv]
    exact hway

/-- A composite command whose program computes the bits of `vs` answers bytes that decrypt to `vs`: the induction over the run, where
every step keeps it under way or returns them. -/
theorem CompositeRun.answers {s t : State} {q slot count : Nat} {i : Instr} {bytes : List EncByte} {vs : List (BitVec 8)}
    {moves : List Move} (hi : isComposite i slot count) (h : CompositeRun q i slot bytes vs s) (ht : s.after moves = .next t) :
    (t.firstReply s.replies.length q = none ∧ t.CompositeUnderWay q i slot bytes ∧ t.PvDuty) ∨
    ∃ r, t.firstReply s.replies.length q = some r ∧ r.DecryptsTo vs := by
  have hstep : ∀ x y, CompositeRun q i slot bytes vs x → step x = .next y → (CompositeRun q i slot bytes vs y ∧ Silent x y q) ∨
      ∃ r : Reply, y.replies = x.replies ++ [r] ∧ r.executor = q ∧ r.DecryptsTo vs := by
    intro x y hx hxy
    obtain ⟨y', heffect, rfl⟩ := step_effect hxy
    exact (hx.stepEffect hi heffect).imp_left fun ⟨hy, hsilent⟩ => ⟨hy.congr rfl rfl rfl rfl rfl rfl, hsilent⟩
  exact (after_firstReply (fun x m hx => hx.congr rfl rfl rfl rfl rfl rfl) hstep h ht).imp_left
    fun ⟨hnone, hkept⟩ => ⟨hnone, hkept.underWay, hkept.duty⟩

/-- A reply that decrypts to one byte is one byte. -/
theorem Reply.DecryptsTo.one_byte {r : Reply} {v : BitVec 8} (h : r.DecryptsTo [v]) :
    ∃ c, r.result = [.byte c] ∧ Config.engine.decB c = v := by
  obtain ⟨outs, hresult, hdec⟩ := h
  obtain ⟨c, rfl, hc⟩ := List.map_eq_singleton_iff.mp hdec
  exact ⟨c, hresult, hc⟩

/-- A program that computes a table computes its entry from the bits DECOMPOSE gives of one byte. -/
theorem computesBytes_of_computesTable {img : List Word} {table : BitVec 8 → BitVec 8} (hok : programOk img 8 = true)
    (hcomputes : computesTable img table) {t : PvTable} (ht : t.Duty) (b : EncByte) :
    ComputesBytes img t [b] [table (Config.engine.decB b)] := by
  have hins : (refDecompose t [b]).map Config.engine.decb = byteBits (Config.engine.decB b) := by
    simpa using refDecompose_decb ht [b]
  simpa [ComputesBytes, refBits] using refOutputs_of_computesTable Config.engine_laws hok hcomputes hins

/-- A composite command whose program computes a table answers one byte that decrypts to its entry (43_sbox.md R173, R176). -/
theorem State.CompositeUnderWay.answers_table {s t : State} {q slot : Nat} {i : Instr} {b : EncByte} {moves : List Move}
    {table : BitVec 8 → BitVec 8} (hway : s.CompositeUnderWay q i slot [b]) (hs : s.Inv) (hv : s.Values) (hduty : s.PvDuty)
    (hi : isComposite i slot 1) (hok : programOk (s.image slot) 8 = true) (hcomputes : computesTable (s.image slot) table)
    (h : s.after moves = .next t) :
    (t.firstReply s.replies.length q = none ∧ t.CompositeUnderWay q i slot [b] ∧ t.PvDuty) ∨
    ∃ (r : Reply) (c : EncByte), t.firstReply s.replies.length q = some r ∧ r.result = [.byte c] ∧
      Config.engine.decB c = table (Config.engine.decB b) := by
  have hrun : CompositeRun q i slot [b] [table (Config.engine.decB b)] s :=
    ⟨hs, hv, hduty, computesBytes_of_computesTable hok hcomputes hduty.2 b, hway⟩
  refine (hrun.answers hi h).imp_right fun ⟨r, hr, hanswer⟩ => ?_
  obtain ⟨c, hresult, hc⟩ := hanswer.one_byte
  exact ⟨r, c, hr, hresult, hc⟩

/-- Settles O57: the program of slot 0 computes the table, so the run of SBOX answers its entry. -/
theorem sboxAnswersTheTable : Obligations.SboxAnswersTheTable := by
  unfold Obligations.SboxAnswersTheTable
  intro s t q b moves hs hv hduty hway h
  exact hway.answers_table hs hv hduty (.inl ⟨rfl, rfl, rfl⟩) hs.config.rom.sboxFwd hs.config.rom.forward h

/-- Settles O58: the program of slot 1 computes the inverse table, so the run of INVSBOX answers its entry. -/
theorem invsboxAnswersTheTable : Obligations.InvsboxAnswersTheTable := by
  unfold Obligations.InvsboxAnswersTheTable
  intro s t q b moves hs hv hduty hway h
  exact hway.answers_table hs hv hduty (.inr (.inl ⟨rfl, rfl, rfl⟩)) hs.config.rom.sboxInv hs.config.rom.inverse h

end Sys2Proof.Machine
end

section
/-! MIXCOL and the program of the MixColumns circuit (44_mixcolumns.md R190, R191, R195). -/

namespace Sys2Proof.Machine

/-- A program that meets the contract of MixColumns computes the transform on ciphertexts (44_mixcolumns.md R190). -/
theorem refOutputs_of_computesColumn {E : Engine} (hE : E.Laws) {img : List Word} (hok : programOk img 32 = true)
    (hcomputes : computesColumn img) {a : List (BitVec 8)} (ha : a.length = 4) {ins : List EncBit}
    (hins : ins.map E.decb = a.flatMap byteBits) :
    (refOutputs E.gates img ins).map E.decb = (mixColumn a).flatMap byteBits := by
  match a, ha with
  | [a0, a1, a2, a3], _ =>
    obtain ⟨-, hfacts, hnIn, -⟩ := programOk_facts hok
    have hlen : ins.length = imageNIn img := by
      rw [hnIn]
      simpa [byteBits] using congrArg List.length hins
    rw [refOutputs_decb hE hfacts hlen, hins, hcomputes a0 a1 a2 a3]

/-- Settles O56: the reference program and every legal one in its place meet the contract on plaintext bits, and the engine's gates
are the plain gates on what the wires decrypt to. -/
theorem mixcolProgramComputesTheMatrix : Obligations.MixcolProgramComputesTheMatrix := by
  unfold Obligations.MixcolProgramComputesTheMatrix
  intro E a ins hE ha hins
  exact ⟨refOutputs_of_computesColumn hE mixcol_ok mixcol_computes ha hins,
    fun r hr => refOutputs_of_computesColumn hE hr.mixcol hr.column ha hins⟩

/-- A program that meets the contract of MixColumns computes the transform from the bits DECOMPOSE gives of a column. -/
theorem computesBytes_of_computesColumn {img : List Word} (hok : programOk img 32 = true) (hcomputes : computesColumn img)
    {t : PvTable} (ht : t.Duty) {column : List EncByte} (hlen : column.length = 4) :
    ComputesBytes img t column (mixColumn (column.map Config.engine.decB)) :=
  refOutputs_of_computesColumn Config.engine_laws hok hcomputes (by simpa using hlen) (refDecompose_decb ht column)

/-- Settles O59: the program of slot 2 computes the transform, so the run of MIXCOL answers the column's. -/
theorem mixcolAnswersTheMatrix : Obligations.MixcolAnswersTheMatrix := by
  unfold Obligations.MixcolAnswersTheMatrix
  intro s t q a0 a1 a2 a3 moves hs hv hduty hway h
  have hcomputes := computesBytes_of_computesColumn hs.config.rom.mixcol hs.config.rom.column hduty.2
    (column := [a0, a1, a2, a3]) rfl
  have hrun : CompositeRun q .mixcol 2 _ _ s := ⟨hs, hv, hduty, hcomputes, hway⟩
  refine (hrun.answers (.inr (.inr ⟨rfl, rfl, rfl⟩)) h).imp_right fun ⟨r, hr, outs, hresult, hdec⟩ => ?_
  exact ⟨r, outs, hr, hresult, hdec⟩

end Sys2Proof.Machine
end

section
/-! READ_REG (60_exceptions.md R215) and the registers it reads (10_state.md R29 to R33). -/

namespace Sys2Proof.Machine

/-- A byte appended below a word is added to it eight bits up. -/
theorem toNat_append_byte {n : Nat} (x : BitVec n) (b : Nat) :
    (x ++ BitVec.ofNat 8 b).toNat = x.toNat * 2 ^ 8 + b % 256 := by
  rw [BitVec.toNat_append, BitVec.toNat_ofNat, ← Nat.shiftLeft_add_eq_or_of_lt (Nat.mod_lt b (by decide)), Nat.shiftLeft_eq]

/-- `CONFIG` is the sum of its three bytes, each in its place (10_state.md R32). -/
theorem configWord_eq_ofNat (p : Params) :
    configWord p = BitVec.ofNat 32 (p.w % 256 + p.nUser % 256 * 2 ^ 8 + p.nInst % 256 * 2 ^ 16) := by
  have hzero : (0 : BitVec 8).toNat = 0 := rfl
  apply BitVec.eq_of_toNat_eq
  rw [configWord, toNat_append_byte, toNat_append_byte, toNat_append_byte, BitVec.toNat_ofNat, hzero]
  omega

/-- The registers by number (10_state.md R29). -/
theorem register_eq (s : State) (u : Inst) (r : Nat) :
    s.register u r =
      if r = 0 then u.status else if r = 1 then s.pvStateWord else if r = 2 then configWord s.config
      else if r = 3 then s.slotValidWord else 0 :=
  match r with
  | 0 | 1 | 2 | 3 => rfl
  | r + 4 => by simp [State.register]

/-- A result given back by an idle executor leaves its record as it is, `STATUS` included (60_exceptions.md R215). -/
theorem giveBack_of_idle {s : State} {q : Nat} {u : Inst} (hidle : u.busy = false) (w : Word) (r : Payload) :
    giveBack s q u w r = { s with insts := s.insts.set q u, replies := s.replies ++ [⟨q, w, r⟩] } := by
  rw [giveBack, ← hidle]

/-- Settles O34: a payload of length 0 or not, and the register by its number. -/
theorem readRegReturnsTheRegister : Obligations.ReadRegReturnsTheRegister := by
  unfold Obligations.ReadRegReturnsTheRegister
  intro s q sel u c ha
  have ⟨_, _, hidle⟩ := ha
  simp only [exec, execReadReg, onPort_accepts _ ha, raise_eq_faulted]
  refine ⟨fun hp => ?_, fun hp => ?_⟩
  · rw [hp, ← configWord_eq_ofNat, ← State.pvStateWord, ← register_eq]
    exact congrArg Host.Outcome.next (giveBack_of_idle hidle _ _)
  · obtain ⟨a, rest, hcons⟩ := List.exists_cons_of_ne_nil hp
    rw [suppliedLength, hcons]

end Sys2Proof.Machine
end

section
/-! Causes and the fault history (60_exceptions.md R202, R205, R207): an instruction adds to the history by raising a cause and in no
other way, no step clears it, and no step stops. -/

namespace Sys2Proof.Machine

/-- Settles O47: whichever agent has the move, what it holds has a next state. -/
theorem stepNeverStops : Obligations.StepNeverStops := by
  unfold Obligations.StepNeverStops
  exact fun s h => h.step_next

/-- No phase of a running command records a fault: a command is refused at its admission (60_exceptions.md R205). -/
theorem runPhase_faults {s t : State} {q : Nat} {u : Inst} {g : Inst → Inst} (h : runPhase s q u g = .next t) :
    t.faults = s.faults := by
  rcases runPhase_next h with ⟨-, rfl⟩ | ⟨-, rfl⟩ | ⟨-, -, outs, -, rfl⟩ | ⟨-, -, rfl⟩ | ⟨-, rfl⟩ | ⟨-, rfl⟩ | ⟨-, rfl⟩
  all_goals rfl

/-- An instruction that changes the history refuses the command at a port by cause, and `loading` is the slot of a LOAD_PROG alone
(60_exceptions.md R205). -/
theorem execEffect_raises {s t : State} {i : Instr} (h : ExecEffect i s t) (hne : t.faults ≠ s.faults) :
    ∃ q u c cause detail loading, s.Accepts q u c ∧ (∀ sel, loading = some sel → i = .loadProg sel) ∧
      t = raise s q u c.word cause detail loading := by
  cases h with
  | @raised q u c cause detail loading ha _ hl =>
    refine ⟨q, u, c, cause, detail, loading, ha, fun sel hsel => ?_, rfl⟩
    rcases hl with hnone | ⟨k, hi, hk, -⟩
    · cases hnone.symm.trans hsel
    · cases hk.symm.trans hsel
      exact hi
  | phase _ _ ht => exact absurd (runPhase_faults ht) hne
  | poll | evaluate | wait | table | codec | register | store | admitted | begun => exact absurd rfl hne

/-- Settles O41: the command raised a cause, and the valid bit is cleared for a construction cause of a LOAD_PROG only. -/
theorem faultsArePrecise : Obligations.FaultsArePrecise := by
  unfold Obligations.FaultsArePrecise
  intro i s t h hne
  obtain ⟨q, u, c, cause, detail, loading, ha, hload, rfl⟩ := execEffect_raises (exec_effect h) hne
  refine ⟨q, u, c, cause, min detail 0xFFFFFF, ha, raise_eq s q u c.word cause detail loading, ?_⟩
  rw [raise_slotValid]
  rcases slotValidAfter_cases s.slotValid cause loading with hsame | ⟨sel, hsel, hcons, hrom, hclear⟩
  · exact .inr hsame
  · exact .inl ⟨sel, hload sel hsel, hcons, hrom, hclear⟩

/-- No instruction takes a fault from the history (60_exceptions.md R207). -/
theorem execEffect_faults {s t : State} {i : Instr} (h : ExecEffect i s t) : ∃ more, t.faults = s.faults ++ more := by
  by_cases hsame : t.faults = s.faults
  · exact ⟨[], by rw [hsame, List.append_nil]⟩
  · obtain ⟨q, u, c, cause, detail, loading, -, -, rfl⟩ := execEffect_raises h hsame
    exact ⟨_, raise_faults s q u c.word cause detail loading⟩

/-- Settles O40: an instruction, and the refusal of a word that is no command, append to the history; nothing else writes it. -/
theorem historyIsNeverCleared : Obligations.HistoryIsNeverCleared := by
  unfold Obligations.HistoryIsNeverCleared
  intro s t h
  obtain ⟨t', hx, rfl⟩ := step_effect h
  rw [advance_faults]
  cases hx with
  | quiet | issue | restart | claim => exact ⟨[], (List.append_nil _).symm⟩
  | refuse => exact ⟨_, rfl⟩
  | command _ _ _ _ ht | gate _ _ ht => exact execEffect_faults ht

end Sys2Proof.Machine
end

section
/-! The executors do not interact (60_exceptions.md R206, 41_executor.md R143, 20_memory.md R62): a step of a sequencer or a worker
writes its own executor and no other. -/

namespace Sys2Proof.Machine

/-- The executor whose sequencer or worker has the move; none when the host has it. -/
def State.mover (s : State) : Option Nat :=
  match s.acting with
  | .host _ => none
  | .seq q | .worker q _ => some q

theorem mover_of_seq {s : State} {q : Nat} (h : s.acting = .seq q) : s.mover = some q := by
  rw [State.mover, h]

theorem mover_of_worker {s : State} {q w : Nat} (h : s.acting = .worker q w) : s.mover = some q := by
  rw [State.mover, h]

/-- Writing the executor that has the move leaves every other as it is. -/
theorem getElem?_set_mover {s : State} {q p : Nat} {x : Inst} (hq : s.mover = some q) (hp : s.mover ≠ some p) :
    (s.insts.set q x)[p]? = s.insts[p]? := by
  refine List.getElem?_set_ne ?_
  rintro rfl
  exact hp hq

/-- No instruction changes an executor that does not have the move. -/
theorem execEffect_other {s t : State} {i : Instr} {p : Nat} (h : ExecEffect i s t) (hp : s.mover ≠ some p) :
    t.insts[p]? = s.insts[p]? := by
  cases h with
  | poll | wait => rfl
  | evaluate he =>
    obtain ⟨hact, -⟩ := he
    exact getElem?_set_mover (mover_of_worker hact) hp
  | raised ha | table ha | codec ha | register ha | store ha | admitted ha | begun ha =>
    obtain ⟨hact, -⟩ := ha
    exact getElem?_set_mover (mover_of_seq hact) hp
  | phase hr _ ht =>
    obtain ⟨hact, -⟩ := hr
    refine runPhase_other ht ?_
    rintro rfl
    exact hp (mover_of_seq hact)

/-- No step that is not the host's changes an executor that does not have the move. -/
theorem stepEffect_other {s t : State} {p q : Nat} (h : StepEffect s t) (hq : s.mover = some q) (hpq : p ≠ q) :
    t.insts[p]? = s.insts[p]? := by
  have hp : s.mover ≠ some p := fun hp => hpq (Option.some.inj (hp.symm.trans hq))
  cases h with
  | quiet => rfl
  | issue ha | restart ha => simp [State.mover, ha] at hq
  | claim ha => exact getElem?_set_mover (mover_of_worker ha) hp
  | refuse ha => exact getElem?_set_mover (mover_of_seq ha) hp
  | command _ _ _ _ ht | gate _ _ ht => exact execEffect_other ht hp

/-- Settles O42: the executor of the acting sequencer or worker has the move, so no other is written. -/
theorem executorsDoNotInteract : Obligations.ExecutorsDoNotInteract := by
  unfold Obligations.ExecutorsDoNotInteract
  intro s t q p hact h hpq
  obtain ⟨t', hx, rfl⟩ := step_effect h
  have hq : s.mover = some q := hact.elim mover_of_seq fun ⟨_, hworker⟩ => mover_of_worker hworker
  rw [advance_insts]
  exact stepEffect_other hx hq hpq

end Sys2Proof.Machine
end

section
/-! The host's reset (70_reset_and_hazards.md R230): it is taken when every executor is idle, and is no move while one is busy. -/

namespace Sys2Proof.Machine

/-- A reset asked for while an executor is busy leaves the block as it is (70_reset_and_hazards.md R243). -/
theorem hostStep_reset_of_busy {s : State} {u : Inst} (hu : u ∈ s.insts) (hb : u.busy = true) : hostStep s .reset = s := by
  refine if_neg fun hall => ?_
  have hidle := List.all_eq_true.mp hall u hu
  simp [hb] at hidle

/-- A reset asked for while every executor is idle is taken (70_reset_and_hazards.md R230). -/
theorem hostStep_reset_of_idle {s : State} (h : ∀ u ∈ s.insts, u.busy = false) : hostStep s .reset = s.restart :=
  if_pos (List.all_eq_true.mpr fun u hu => by simp [h u hu])

/-- The step of the host, when the plan gives it the move. -/
theorem step_of_host {s : State} {h : HostMove} {rest : List Move} (hplan : s.plan = .host h :: rest) :
    step s = .next (hostStep s h).advance :=
  step_of_control (by simp [fetch, State.acting, hplan])

/-- Settles O37: a busy executor stops the reset; taken, it leaves every executor as `Inst.reset` and the history as it was. -/
theorem resetOnlyWhileIdle : Obligations.ResetOnlyWhileIdle := by
  unfold Obligations.ResetOnlyWhileIdle
  intro s rest hplan
  refine ⟨fun ⟨u, hu, hb⟩ => ?_, fun hidle => ⟨s.restart.advance, ?_, rfl, rfl, rfl, rfl, fun hlegal => ?_, fun u hu => ?_⟩⟩
  · rw [step_of_host hplan, hostStep_reset_of_busy hu hb]
  · rw [step_of_host hplan, hostStep_reset_of_idle hidle]
  · exact (inv_resetWith hlegal).executors
  · obtain rfl : u = Inst.reset s.config.w := eq_reset_of_mem_resetWith hu
    exact ⟨fun _ => rfl, rfl, rfl, rfl, rfl⟩

end Sys2Proof.Machine
end

section
/-! The fixed vectors of the construction check (95_test_vectors.md section 2.2). -/

namespace Sys2Proof.Machine

/-- Settles O26: each of the nine images is closed, so the kernel runs the check on it and compares the cause and the DETAIL. -/
theorem checkMeetsTheVectors : Obligations.CheckMeetsTheVectors := by
  unfold Obligations.CheckMeetsTheVectors
  decide

end Sys2Proof.Machine
end
